-- ==== Sys2Proof/Word.lean ====
section
/-! DEFINITION. The word types of the block: bytes (R11) and 6-bit chip register addresses (R54). -/

namespace Sys2Proof

/-- A byte, an unsigned integer 0 to 255 (R11). -/
abbrev Byte := BitVec 8

/-- The 6-bit chip register address an address byte carries in bits 6 to 1 (R54, R100). -/
abbrev RegAddr := BitVec 6

end Sys2Proof
end

