-- ==== Sys2Proof/Config.lean ====
section
/-! DEFINITION. What an implementation fixes: the literals of 00_scope.md section 4, the parameters of
R8 and R9, and the free values, which have no body. -/

namespace Sys2Proof.Config

/-! ## Literals the document gives (00_scope.md section 4) -/

/-- Command register (R41). -/
abbrev REG_COMMAND : Byte := 0x01
/-- Interrupt-request enable register (R42). -/
abbrev REG_COMM_IEN : Byte := 0x02
/-- Communication interrupt-request register (R43). -/
abbrev REG_COMM_IRQ : Byte := 0x04
/-- Second interrupt-request register (R44). -/
abbrev REG_DIV_IRQ : Byte := 0x05
/-- Error register (R45). -/
abbrev REG_ERROR : Byte := 0x06
/-- FIFO port (R46). -/
abbrev REG_FIFO_DATA : Byte := 0x09
/-- FIFO level register (R47). -/
abbrev REG_FIFO_LEVEL : Byte := 0x0A
/-- Control register (R48). -/
abbrev REG_CONTROL : Byte := 0x0C
/-- Bit-framing register (R49). -/
abbrev REG_BIT_FRAMING : Byte := 0x0D
/-- TX control register (R50). -/
abbrev REG_TX_CONTROL : Byte := 0x14
/-- The initialization-only registers, in the order of the document's list (R52, R235). -/
abbrev INIT_ONLY_REGS : List Byte := [0x2A, 0x2B, 0x2D, 0x2E, 0x15, 0x11]

/-- Chip command calculate-CRC (R106, R212). -/
abbrev CMD_CALC_CRC : Byte := 0x03
/-- Chip command transceive (R106, R213). -/
abbrev CMD_TRANSCEIVE : Byte := 0x0C
/-- Chip command soft-reset (R106, R214). -/
abbrev CMD_SOFT_RESET : Byte := 0x0F

/-- Tag-facing READ opcode, a payload byte (R112, R216). -/
abbrev TAG_READ : Byte := 0x30
/-- Tag-facing WRITE opcode, a payload byte (R112, R217). -/
abbrev TAG_WRITE : Byte := 0xA0

/-- "The full interrupt-request mask" (R42, R173). -/
abbrev IRQ_EN_MASK : Byte := 0x77
/-- The framing, parity, buffer-overflow and collision error bits (R45). -/
abbrev ERR_MASK : Byte := 0x1B
/-- Mask of the shifted register address (R102). -/
abbrev ADDR_MASK : Byte := 0x7E
/-- Read flag of the address byte (R102). -/
abbrev READ_FLAG : Byte := 0x80
/-- Both TX-enable bits of the TX control register (R50). -/
abbrev TX_EN_BITS : Byte := 0x03
/-- Tag acknowledgment byte, host level (R232). -/
abbrev ACK : Byte := 0x0A
/-- Most bytes a TransceiveResult holds (R29, R186). -/
abbrev DATA_MAX : Nat := 16
/-- Bytes in a tag block, host level (R230). -/
abbrev BLOCK_LEN : Nat := 16
/-- The three block addresses, host level (R237). -/
abbrev BLOCKS : List Byte := [4, 5, 6]

/-! ## Parameters (R8, R9)

They are held in `State.cfg`, which no step changes, so that a statement about every state is a statement
about every choice of the parameters (log entry 2, DESIGN CHOICE). -/

/-- Which function the parameter `Crc16` is (R9, R160, D31): the default CRC_A, which `Machine.crcA` computes, or the
uninterpreted `Config.crc16` (log entry 22). -/
inductive CrcFunction where
  | crcA
  | uninterpreted
  deriving DecidableEq, Repr

/-- The named parameters of R8 and R9, but for the `INIT_VAL_*` bytes, which have no default and are the opaque
`initVal` below; the function `Crc16` is named by which function it is. -/
structure Params where
  pollBudgetTrx : Nat := 2000
  pollBudgetCrc : Nat := 255
  cmdIdle : Byte := 0x00
  globalIenBit : Byte := 0x80
  irqPendingBit : Byte := 0x80
  fifoFlushBit : Byte := 0x80
  startSendBit : Byte := 0x80
  timerIrqBit : Byte := 0x01
  waitIrqMask : Byte := 0x30
  crcDoneBit : Byte := 0x04
  regCrcIrq : Byte := REG_DIV_IRQ
  lastBitsMask : Byte := 0x07
  regCrcResultLo : Byte := 0x22
  regCrcResultHi : Byte := 0x21
  readDummy : Byte := 0x00
  fifoCap : Nat := 64
  maxSend : Nat := 18
  padByte : Byte := 0x00
  drainOnError : Bool := true
  bitlenFromClamped : Bool := true
  crc16 : CrcFunction := .crcA
  deriving DecidableEq, Repr

/-- The defaults of R8 and R9. PRESUMED: all but the budgets, the two reading parameters, `maxSend` and
`padByte` are general knowledge of the chip family, as R9 marks them (log entry 2, unsafe). -/
def defaults : Params := {}

/-- The constraints of R10 on the parameters: the named bits and the wait mask are nonzero; both budgets are
at least 1 and fit the 16 bits of the `budget` register (R27). -/
abbrev Params.wf (p : Params) : Prop :=
  p.timerIrqBit ≠ 0 ∧ p.crcDoneBit ≠ 0 ∧ p.fifoFlushBit ≠ 0 ∧ p.startSendBit ≠ 0 ∧
  p.globalIenBit ≠ 0 ∧ p.irqPendingBit ≠ 0 ∧ p.waitIrqMask ≠ 0 ∧
  1 ≤ p.pollBudgetTrx ∧ p.pollBudgetTrx < 2 ^ 16 ∧ 1 ≤ p.pollBudgetCrc ∧ p.pollBudgetCrc < 2 ^ 16

/-- R10 on `LAST_BITS_MASK`: the masked control byte counts at most 7 bits. The rules do not fail without it
(R187, U16), so it is not part of `Params.wf`. -/
abbrev Params.lastBitsFit (p : Params) : Prop := p.lastBitsMask ≤ 7

/-! ## Data of the reference environment SimChip (R88) -/

/-- What the tag does with a frame (R88): an answer, silence ended by the chip's timer, or nothing ever. -/
inductive TagResponse where
  | answer (bytes : List Byte) (lastBits : BitVec 3) (errBits irqBits : Byte)
  | silence (irqBits : Byte)
  | never
  deriving DecidableEq, Repr, Inhabited

/-! ## Free values

No body: nothing in Lean can evaluate them or prove a value of them. -/

/-- Draw number k of a free byte: a chip answer (R16, R80) or a free byte of SimChip (log entry 3, safe). -/
opaque freeByte : Nat → Byte

/-- The bit length that D13 leaves unspecified: level 0, nonzero count, BITLEN_FROM_CLAMPED false
(log entry 15, safe). -/
opaque freeBitLength : Nat → Nat

/-- The delay SimChip draws for a command (R88, log entry 17, safe). -/
opaque freeDelay : Nat → Nat

/-- Whether SimChip's environment chooses that the CRC-done flag never comes (R94, log entry 17, safe). -/
opaque freeSilent : Nat → Bool

/-- FIFO contents of SimChip that are a free draw: at its start, after a soft reset (R89, R96, log entry 19, safe), and after
a tag answer longer than its FIFO (log entry 30, safe). -/
opaque freeFifo : Nat → List Byte

/-- The byte a plain register of SimChip holds before the engine writes it, by the number of soft resets so
far and by address (R89, R90, R96, log entry 19, safe). -/
opaque simReg : Nat → RegAddr → Byte

/-- The function the chip's CRC engine computes, low byte and high byte, where the parameter `crc16` leaves it
uninterpreted (R160, D31; log entry 22, safe). -/
opaque crc16 : List Byte → Byte × Byte

/-- SimChip's TagOracle: uninterpreted (R88, log entry 22, safe). -/
opaque tagOracle : List Byte → TagResponse

/-- The byte `init` writes to an initialization-only register: the document gives none (R9, R235, D32; log
entry 20, safe). -/
opaque initVal : Byte → Byte

end Sys2Proof.Config
end

