-- ==== Sys2Proof/Syntax.lean ====
section
/-! DEFINITION. The syntax: one constructor for each of the fourteen rows of spec/opcode_table.json. -/

namespace Sys2Proof

/-- The encoded things of 30_encoding.md, as the opcode table's "format" column names them. The rows of
different formats share bit patterns, so a word is read in its format (log entry 8, DESIGN CHOICE). -/
inductive Format where
  | busFrame
  | hostRequest
  | chipCommand
  | tagOpcode
  deriving DecidableEq, Repr

/-- The instructions of the table. -/
inductive Instr where
  /-- BUS_WR: a write frame on the wire, `0aaaaaa0 vvvvvvvv` (R100). -/
  | busWr (a : RegAddr) (v : Byte)
  /-- BUS_RD: a read frame on the wire, `1aaaaaa0 dddddddd` (R101). -/
  | busRd (a : RegAddr) (d : Byte)
  /-- WR: `writeRegister(reg, value)` (R130). -/
  | wr (reg value : Byte)
  /-- RD: `readRegister(reg) -> byte` (R132). -/
  | rd (reg : Byte)
  /-- SETB: `setBits(reg, mask)` (R134). -/
  | setb (reg mask : Byte)
  /-- CLRB: `clearBits(reg, mask)` (R136). -/
  | clrb (reg mask : Byte)
  /-- CRC: `computeCRC(data) -> (byte, byte)` (R150). -/
  | crc (data : List Byte)
  /-- TOCARD: `toCard(command, sendData) -> TransceiveResult` (R170). -/
  | tocard (command : Byte) (sendData : List Byte)
  /-- CMD_IDLE: the chip command idle (R211). -/
  | cmdIdle
  /-- CMD_CALC_CRC: the chip command calculate-CRC (R212). -/
  | cmdCalcCrc
  /-- CMD_TRANSCEIVE: the chip command transceive (R213). -/
  | cmdTransceive
  /-- CMD_SOFT_RESET: the chip command soft-reset (R214). -/
  | cmdSoftReset
  /-- TAG_READ: the tag-facing READ opcode, opaque to the block (R216). -/
  | tagRead
  /-- TAG_WRITE: the tag-facing WRITE opcode, opaque to the block (R217). -/
  | tagWrite
  deriving DecidableEq, Repr

/-- The format of an instruction's row. -/
def Instr.format : Instr → Format
  | .busWr _ _ => .busFrame
  | .busRd _ _ => .busFrame
  | .wr _ _ => .hostRequest
  | .rd _ => .hostRequest
  | .setb _ _ => .hostRequest
  | .clrb _ _ => .hostRequest
  | .crc _ => .hostRequest
  | .tocard _ _ => .hostRequest
  | .cmdIdle => .chipCommand
  | .cmdCalcCrc => .chipCommand
  | .cmdTransceive => .chipCommand
  | .cmdSoftReset => .chipCommand
  | .tagRead => .tagOpcode
  | .tagWrite => .tagOpcode

end Sys2Proof
end

