-- ==== Sys2Proof/WellFormed.lean ====
section
/-! DEFINITION. Which terms of the syntax are instructions of the table. -/

namespace Sys2Proof

/-- The most payload bytes a request carries: its `len` field is 8 bits wide (R110). -/
abbrev maxPayload : Nat := 255

/-- A well-formed instruction: a payload fits the 8-bit `len` field (R110). Every other operand is a byte or
a 6-bit address by its type, and every value of it is accepted (R53, R114, R130). -/
def Instr.wellFormed : Instr → Bool
  | .busWr _ _ => true
  | .busRd _ _ => true
  | .wr _ _ => true
  | .rd _ => true
  | .setb _ _ => true
  | .clrb _ _ => true
  | .crc data => data.length ≤ maxPayload
  | .tocard _ sendData => sendData.length ≤ maxPayload
  | .cmdIdle => true
  | .cmdCalcCrc => true
  | .cmdTransceive => true
  | .cmdSoftReset => true
  | .tagRead => true
  | .tagWrite => true

end Sys2Proof
end

