-- ==== Sys2Proof/Decode.lean ====
section
/-! DEFINITION. Decoding, total on any bytes of any format, and the encoder beside it. -/

namespace Sys2Proof

/-! ## The wire's address byte (R100 to R102) -/

/-- The register address an address byte carries, bits 6 to 1 (R100, R101). -/
def addressOnWire (first : Byte) : RegAddr := first.extractLsb' 1 6

/-- The first byte of a write frame for a 6-bit address: bit 7 clear, bit 0 clear (R100). -/
def writeFrameByte (a : RegAddr) : Byte := (0#1 ++ a ++ 0#1 : BitVec 8)

/-- The first byte of a read frame for a 6-bit address: bit 7 set, bit 0 clear (R101). -/
def readFrameByte (a : RegAddr) : Byte := (1#1 ++ a ++ 0#1 : BitVec 8)

/-! ## Decoding by format -/

/-- A bus frame is two bytes, the address byte first (R66, R100, R101). Bit 0 of the address byte is always
0 (R115): a set bit is no frame of the table. -/
def decodeBusFrame : List Byte → Option Instr
  | [first, second] =>
    if first.getLsbD 0 then none
    else if first.getLsbD 7 then some (.busRd (addressOnWire first) second)
    else some (.busWr (addressOnWire first) second)
  | _ => none

/-- The payload of a request: exactly `len` bytes (R110). -/
def takePayload (len : Byte) (bytes : List Byte) : Option (List Byte) :=
  if bytes.length = len.toNat then some bytes else none

/-- A request without payload: "unused, len = 0" (R111). -/
def noPayload (len : Byte) (bytes : List Byte) (i : Instr) : Option Instr :=
  if len = 0 ∧ bytes = [] then some i else none

/-- A host request is the record `op`, `a`, `b`, `len`, payload (R110), here one byte each in that order, `op`
in bits 2 to 0 of the first byte and its other bits 0 (log entry 7, DESIGN CHOICE). Op-select 6 and 7 name no
operation (R113). -/
def decodeHostRequest : List Byte → Option Instr
  | op :: a :: b :: len :: payload =>
    match op.toNat with
    | 0 => noPayload len payload (.wr a b)
    | 1 => noPayload len payload (.rd a)
    | 2 => noPayload len payload (.setb a b)
    | 3 => noPayload len payload (.clrb a b)
    | 4 => (takePayload len payload).map .crc
    | 5 => (takePayload len payload).map (.tocard a)
    | _ => none
  | _ => none

/-- A chip command is one byte (R106). A byte the table does not name is no row of it; the host writes such a
byte with WR or passes it to TOCARD (R114, R215). The row CMD_IDLE is selected by the table's pattern 0x00; the
byte put on the wire is the parameter (log entry 10). -/
def decodeChipCommand : List Byte → Option Instr
  | [c] =>
    match c.toNat with
    | 0x00 => some .cmdIdle
    | 0x03 => some .cmdCalcCrc
    | 0x0C => some .cmdTransceive
    | 0x0F => some .cmdSoftReset
    | _ => none
  | _ => none

/-- A tag-facing opcode is one byte (R112). -/
def decodeTagOpcode : List Byte → Option Instr
  | [c] =>
    match c.toNat with
    | 0x30 => some .tagRead
    | 0xA0 => some .tagWrite
    | _ => none
  | _ => none

/-- The decoder: a word is read in its format. -/
def decode (f : Format) (bytes : List Byte) : Option Instr :=
  match f with
  | .busFrame => decodeBusFrame bytes
  | .hostRequest => decodeHostRequest bytes
  | .chipCommand => decodeChipCommand bytes
  | .tagOpcode => decodeTagOpcode bytes

/-! ## The encoder -/

/-- The words of an instruction, from the encoding tables of 30_encoding.md: R100, R101, R106, R110 with R111,
R112. Unused operand bytes of a request are written 0. -/
def encode : Instr → List Byte
  | .busWr a v => [writeFrameByte a, v]
  | .busRd a d => [readFrameByte a, d]
  | .wr reg value => [0, reg, value, 0]
  | .rd reg => [1, reg, 0, 0]
  | .setb reg mask => [2, reg, mask, 0]
  | .clrb reg mask => [3, reg, mask, 0]
  | .crc data => 4 :: 0 :: 0 :: BitVec.ofNat 8 data.length :: data
  | .tocard command sendData => 5 :: command :: 0 :: BitVec.ofNat 8 sendData.length :: sendData
  | .cmdIdle => [0x00]
  | .cmdCalcCrc => [0x03]
  | .cmdTransceive => [0x0C]
  | .cmdSoftReset => [0x0F]
  | .tagRead => [0x30]
  | .tagWrite => [0xA0]

/-! ## Words of the opcode table -/

/-- The format a table word is read in. A 16-bit word is a bus frame. An 8-bit word (or a bare 3-bit op-select)
below 8 is an op-select, 0x30 and 0xA0 are tag opcodes, and any other byte is a chip command. The rows WR and
CMD_IDLE, and CLRB and CMD_CALC_CRC, have the same words 0x00 and 0x03 in different formats: here the
block's own operation is read (log entry 8, DESIGN CHOICE). -/
def tableFormat (nbits w : Nat) : Format :=
  if 8 < nbits then .busFrame
  else if w < 8 then .hostRequest
  else if w = 0x30 ∨ w = 0xA0 then .tagOpcode
  else .chipCommand

/-- The bytes of a table word as the hardware stores them, the bits above it 0: a bus frame's first byte is in
bits 15 to 8 (note of row BUS_WR), and an op-select is followed by zero operand bytes. -/
def tableBytes (nbits w : Nat) : List Byte :=
  match tableFormat nbits w with
  | .busFrame => [BitVec.ofNat 8 (w / 256), BitVec.ofNat 8 w]
  | .hostRequest => [BitVec.ofNat 8 w, 0, 0, 0]
  | .chipCommand => [BitVec.ofNat 8 w]
  | .tagOpcode => [BitVec.ofNat 8 w]

/-- The instruction the decoder reads from a word of spec/opcode_table.json, bits numbered as the table
numbers them. -/
def decodeTableWord (nbits w : Nat) : Option Instr :=
  decode (tableFormat nbits w) (tableBytes nbits w)

end Sys2Proof
end

