-- ==== Sys2Proof/Machine/State.lean ====
section
/-! DEFINITION. The state of the machine (R20): engine state, bus state and chip state, as plain data, and the
state after reset (R56, R280). -/

namespace Sys2Proof.Machine

/-! ## Pieces of the state -/

/-- The six operations of the block, op-select 0 to 5 in this order (R3, R111). -/
inductive OpSel where
  | wr | rd | setb | clrb | crc | tocard
  deriving DecidableEq, Repr

/-- The status of a TransceiveResult (R30): OK, TIMEOUT, ERROR. -/
inductive Status where
  | ok | timeout | error
  deriving DecidableEq, Repr

/-- The level of the chip-select line (R33). -/
inductive Level where
  | high | low
  deriving DecidableEq, Repr

/-- The sequencer position (R36): REST, or the next bus exchange of an operation. A step of several exchanges
has one position for each; `i` counts the bytes of a per-byte step. T1 and T8 perform no exchange (R172,
R190): T1 happens at acceptance and T8 at completion. -/
inductive Seq where
  | rest
  | wr1
  | rd1
  | sb1 | sb2
  | cb1 | cb2
  | c1Read | c1Write
  | c2Read | c2Write
  | c3 (i : Nat)
  | c4
  | c5
  | c6Lo | c6Hi
  | t2Enable | t2ClearRead | t2ClearWrite | t2FlushRead | t2FlushWrite | t2Idle
  | t3 (i : Nat)
  | t4Issue | t4StartRead | t4StartWrite
  | t5
  | t6Read | t6Write
  | t7Error | t7Level | t7Control | t7Data (i : Nat)
  deriving DecidableEq, Repr

/-- The step labels of R36. -/
inductive StepLabel where
  | WR1 | RD1 | SB1 | SB2 | CB1 | CB2
  | C1 | C2 | C3 | C4 | C5 | C6
  | T1 | T2 | T3 | T4 | T5 | T6 | T7 | T8
  deriving DecidableEq, Repr

/-- The four states of "the chip's command state machine" (R37). -/
inductive Fsm where
  | idle | loaded | executing | irqSignaled
  deriving DecidableEq, Repr

/-- The record one `toCard` produces (R29, R105). -/
structure TransceiveResult where
  status : Status
  data : List Byte
  bitLength : Nat
  deriving DecidableEq, Repr

/-- What an operation hands to the host at completion (R105, R111). -/
inductive OpResult where
  /-- `writeRegister`, `setBits` and `clearBits` return nothing. -/
  | nothing
  /-- The byte of `readRegister`. -/
  | byte (v : Byte)
  /-- The pair of `computeCRC`, low byte first (R68). -/
  | pair (lo hi : Byte)
  /-- The record of `toCard`. -/
  | card (r : TransceiveResult)
  deriving DecidableEq, Repr

/-- The event history (R86): the bus exchanges with the bytes on the wire, and, as R110 asks, a request and a
completion as two events. The bytes the chip sends back during an address byte or a write exchange are
discarded (R63, R64) and not recorded. -/
inductive Event where
  /-- The engine accepts a request. -/
  | request (i : Instr)
  /-- A write exchange: the two bytes the engine sends. -/
  | write (first second : Byte)
  /-- A read exchange: the two bytes the engine sends, and the chip's answer. -/
  | read (first second answer : Byte)
  /-- An operation completes with its result. -/
  | complete (r : OpResult)
  deriving DecidableEq, Repr

/-- The chip register space (R54 a): the cells the engine has written, addresses rising. An unlisted register
holds no value anything is known of (R57): reading it here gives none (log entry 6). -/
abbrev Memory := List Host.Cell

/-- A completion SimChip has still to signal (R89). -/
inductive Pending where
  | none
  | crc (d : Nat)
  | trx (d : Nat) (resp : Config.TagResponse)
  deriving DecidableEq, Repr

/-- The components of SimChip (R89), but for `S.reg`, which is `State.regs`, and its parameters of R88 as
data: finite tables tried before the uninterpreted functions, and scripted draws (log entry 17). -/
structure SimChip where
  fifo : List Byte
  commIrq : Byte
  divIrq : Byte
  err : Byte
  lastBits : BitVec 3
  crcLo : Byte
  crcHi : Byte
  pending : Pending
  epoch : Nat
  tags : List (List Byte × Config.TagResponse)
  crcs : List (List Byte × Byte × Byte)
  delays : List Nat
  silent : List Bool
  deriving DecidableEq, Repr

/-- The chip as the engine's environment. -/
inductive Chip where
  /-- Every answer is an unconstrained draw (R16, R80). -/
  | unconstrained
  /-- The reference environment, for simulation only (R88 to R97). -/
  | sim (c : SimChip)
  /-- SimChip after a write to its full FIFO: it has no step (R91, U9). -/
  | stuck
  deriving DecidableEq, Repr

/-- How a request is run (log entry 1, DESIGN CHOICE): as one step from its acceptance to its completion, or
exchange by exchange, acceptance first. Both perform the same exchanges. -/
inductive Grain where
  | operation | exchange
  deriving DecidableEq, Repr

/-- A request as the host presents it: words in a format. -/
structure Request where
  format : Format
  bytes : List Byte
  grain : Grain
  deriving DecidableEq, Repr

/-! ## The state -/

/-- The state. The rule of each field and its value at reset are listed in INVENTORY.md, ## State. -/
@[ext]
structure State where
  /-- The parameters (R8, R9): no step changes them. -/
  cfg : Config.Params
  /-- Operand latches (R21). `E.sendLen` is `State.sendLen`. -/
  op : OpSel
  reg : Byte
  val : Byte
  command : Byte
  send : List Byte
  /-- Working registers (R22 to R27). -/
  tmp : Byte
  irq : Byte
  err : Byte
  lvl : Byte
  n : Nat
  lastBits : Byte
  budget : Nat
  /-- Results of `readRegister` and `computeCRC` (R28). -/
  rdata : Byte
  crcLo : Byte
  crcHi : Byte
  /-- Result registers of `toCard` (R29 to R32). -/
  status : Status
  data : Vector Byte 16
  dataLen : Nat
  bitLength : Nat
  /-- Sequencer position (R36). -/
  seq : Seq
  /-- Chip-select line (R33). -/
  cs : Level
  /-- The byte the last read exchange received (R64; log entry 9). -/
  rx : Byte
  /-- Chip register space: what the engine last wrote (R54; log entry 6). -/
  regs : Memory
  /-- The chip as environment (R80, R88). -/
  chip : Chip
  /-- The chip's next answers and free draws (R16; log entry 3). -/
  oracle : List Byte
  /-- Draws taken from the opaque free values so far (log entry 3). -/
  draws : Nat
  /-- Event history (R86). -/
  history : List Event
  /-- Requests the host has still to have accepted (R110; log entry 7). -/
  requests : List Request
  deriving DecidableEq, Repr

/-- `E.sendLen` = `len(E.send)` (R21). -/
def State.sendLen (s : State) : Nat := s.send.length

/-- Why the machine stops with a fault. The block itself has none (R250). -/
inductive Fault where
  /-- SimChip has no step on a write to its full FIFO (R91, U9). Raised by an operation or an exchange that
  writes REG_FIFO_DATA while `chip` is `sim`. Safe: it stops. -/
  | simFifoFull
  deriving DecidableEq, Repr

/-- Why a step is refused. -/
inductive Refusal where
  /-- An instruction without a meaning in this model; no arm answers it. Safe: it stops. -/
  | notModelled (mnemonic : String)
  /-- The request's words name no operation: op-select 6 and 7 (R113, U15), or no word of the table. Raised by
  the step. Safe: it stops. -/
  | noOperation
  /-- A request, or another bus master, while an operation is in progress (R78, R286, U6). Raised by every
  meaning at `seq` other than REST. Safe: it stops. -/
  | notAtRest
  deriving DecidableEq, Repr

/-- The state after the block's reset (R56, R280): `seq` at REST, `cs` high as a launch premise, no chip
register known (R57), every answer unconstrained (R80). The spec gives the engine registers no value; the values
here are the model's (log entry 4, DESIGN CHOICE, unsafe). -/
def State.reset : State where
  cfg := Config.defaults
  op := .wr
  reg := 0
  val := 0
  command := 0
  send := []
  tmp := 0
  irq := 0
  err := 0
  lvl := 0
  n := 1
  lastBits := 0
  budget := 0
  rdata := 0
  crcLo := 0
  crcHi := 0
  status := .error
  data := Vector.replicate 16 0
  dataLen := 0
  bitLength := 0
  seq := .rest
  cs := .high
  rx := 0
  regs := []
  chip := .unconstrained
  oracle := []
  draws := 0
  history := []
  requests := []

end Sys2Proof.Machine
end

