-- ==== Sys2Proof/Machine/Memory.lean ====
section
/-! DEFINITION. The chip register space as a canonical list of cells (R54 a, R75, R76). -/

namespace Sys2Proof.Machine

/-- Whether an address exists: 6 bits, 0x00 to 0x3F (R54). -/
def inChip (a : Nat) : Bool := a < 64

/-- Whether every address of the list is above `a`, rising. -/
def Memory.risesFrom (a : Nat) : Memory → Bool
  | [] => true
  | (b, _) :: rest => a < b && Memory.risesFrom b rest

/-- The canonical form: addresses strictly rising, each inside the 6-bit space. No entry equals what an unlisted
address reads as, since that is no value. -/
def Memory.wf : Memory → Bool
  | [] => true
  | (a, v) :: rest => ((a, v) :: rest).all (fun c => inChip c.1) && Memory.risesFrom a rest

/-- The byte last written to an address; none where nothing is known of the register (R57). -/
def Memory.read : Memory → Nat → Option Byte
  | [], _ => none
  | (b, v) :: rest, a => if b = a then some v else Memory.read rest a

/-- A write: the cell of the address holds the byte, every other cell is as before. -/
def Memory.write : Memory → Nat → Byte → Memory
  | [], a, v => [(a, v)]
  | (b, w) :: rest, a, v =>
    if a < b then (a, v) :: (b, w) :: rest
    else if a = b then (a, v) :: rest
    else (b, w) :: Memory.write rest a v

/-- The byte last written to a chip register. -/
def State.regByte (s : State) (a : RegAddr) : Option Byte := Memory.read s.regs a.toNat

/-- Record a write to a chip register. -/
def State.setRegByte (s : State) (a : RegAddr) (v : Byte) : State :=
  { s with regs := Memory.write s.regs a.toNat v }

end Sys2Proof.Machine
end

