-- ==== Sys2Proof/Machine/Operands.lean ====
section
/-! DEFINITION. Operands: the address byte on the wire (R102), the register a byte operand selects (R70), and
the latching of a request's operands (R21, R110). -/

namespace Sys2Proof.Machine

/-! ## The address byte -/

/-- `A = (reg << 1) & 0x7E`, sent as it is for a write (R63, R102). -/
def writeAddressByte (reg : Byte) : Byte := (reg <<< 1) &&& Config.ADDR_MASK

/-- `A | 0x80`, sent for a read (R64, R102). -/
def readAddressByte (reg : Byte) : Byte := writeAddressByte reg ||| Config.READ_FLAG

/-- The chip register a byte operand selects: `reg & 0x3F` (R53, R70). -/
def chipAddr (reg : Byte) : RegAddr := reg.setWidth 6

/-! ## Trace notation of R15 -/

/-- `W(a,v)`: a write exchange to register `a`. -/
def Event.W (reg v : Byte) : Event := .write (writeAddressByte reg) v

/-- `R(a)=v`: a read exchange of register `a`, answered `v`, with `READ_DUMMY` sent in the second byte time. -/
def Event.R (cfg : Config.Params) (reg v : Byte) : Event := .read (readAddressByte reg) cfg.readDummy v

/-- The 6-bit register address of an exchange, as the chip sees it (R15). -/
def Event.register : Event → Option RegAddr
  | .request _ => none
  | .write first _ => some (addressOnWire first)
  | .read first _ _ => some (addressOnWire first)
  | .complete _ => none

/-! ## Accepting a request (R21, R36, R110)

Each operation latches the operands its signature names and no others ("the others are don't-care"; log entry 26)
and takes the position of its first exchange. -/

/-- Accept `writeRegister(reg, value)`. -/
def acceptWr (reg value : Byte) (s : State) : State :=
  { s with
    op := .wr
    reg := reg
    val := value
    seq := .wr1
    history := s.history ++ [.request (.wr reg value)] }

/-- Accept `readRegister(reg)`. -/
def acceptRd (reg : Byte) (s : State) : State :=
  { s with
    op := .rd
    reg := reg
    seq := .rd1
    history := s.history ++ [.request (.rd reg)] }

/-- Accept `setBits(reg, mask)`. -/
def acceptSetb (reg mask : Byte) (s : State) : State :=
  { s with
    op := .setb
    reg := reg
    val := mask
    seq := .sb1
    history := s.history ++ [.request (.setb reg mask)] }

/-- Accept `clearBits(reg, mask)`. -/
def acceptClrb (reg mask : Byte) (s : State) : State :=
  { s with
    op := .clrb
    reg := reg
    val := mask
    seq := .cb1
    history := s.history ++ [.request (.clrb reg mask)] }

/-- Accept `computeCRC(data)`. -/
def acceptCrc (data : List Byte) (s : State) : State :=
  { s with
    op := .crc
    send := data
    seq := .c1Read
    history := s.history ++ [.request (.crc data)] }

/-- Step 1 of `toCard` (R172): status ERROR, data empty, bit length 0, budget reloaded. No exchange. -/
def resetResult (s : State) : State :=
  { s with
    status := .error
    dataLen := 0
    bitLength := 0
    budget := s.cfg.pollBudgetTrx }

/-- Accept `toCard(command, sendData)` and do its step 1; the position is then T2 (R56, R172). -/
def acceptTocard (command : Byte) (sendData : List Byte) (s : State) : State :=
  resetResult
    { s with
      op := .tocard
      command := command
      send := sendData
      seq := .t2Enable
      history := s.history ++ [.request (.tocard command sendData)] }

end Sys2Proof.Machine
end

