-- ==== Sys2Proof/Machine/Environment.lean ====
section
/-! DEFINITION. The chip as environment: the unconstrained oracle (R16, R80), and SimChip, the spec's reference
environment for simulation (R88 to R97). SimChip is not a description of the MFRC522 (R97). -/

namespace Sys2Proof.Machine

/-! ## Free draws (log entry 3) -/

/-- Take the next free byte into `rx`: the head of `oracle`, or, when it is empty, a fresh opaque byte. -/
def receiveFree (s : State) : State :=
  match s.oracle with
  | v :: rest => { s with rx := v, oracle := rest }
  | [] => { s with rx := Config.freeByte s.draws, draws := s.draws + 1 }

/-- Receive a byte the environment fixes. -/
def receive (v : Byte) (s : State) : State := { s with rx := v }

/-- Change the components of SimChip. -/
def setSim (c : SimChip) (s : State) : State := { s with chip := .sim c }

/-! ## The two functions of R88, tables first -/

/-- One bit of CRC_A: the register shifted right, the polynomial 0x8408 applied when a 1 leaves it. -/
def crcABit (r : BitVec 16) : BitVec 16 := if r.getLsbD 0 then (r >>> 1) ^^^ 0x8408 else r >>> 1

/-- One byte of CRC_A, bit 0 first. -/
def crcAByte (r : BitVec 16) (b : Byte) : BitVec 16 :=
  crcABit (crcABit (crcABit (crcABit (crcABit (crcABit (crcABit (crcABit (r ^^^ b.setWidth 16))))))))

/-- ISO/IEC 14443-3 CRC_A, low byte first: the default of the parameter `Crc16` (R9, D31). PRESUMED: the spec names the
standard and not its polynomial and preset (log entry 22). -/
def crcA (bytes : List Byte) : Byte × Byte :=
  let r := bytes.foldl crcAByte 0x6363
  (r.setWidth 8, (r >>> 8).setWidth 8)

/-- The function that the parameter `Crc16` names (R9, R160). -/
def crcFunction (cfg : Config.Params) (bytes : List Byte) : Byte × Byte :=
  match cfg.crc16 with
  | .crcA => crcA bytes
  | .uninterpreted => Config.crc16 bytes

/-- `Crc16` of SimChip: the tabled pair, or the parameter's function (R88, R160). -/
def SimChip.crc16 (cfg : Config.Params) (c : SimChip) (bytes : List Byte) : Byte × Byte :=
  (c.crcs.lookup bytes).getD (crcFunction cfg bytes)

/-- `TagOracle`: the tabled response, or the uninterpreted function (R88). -/
def SimChip.tagOracle (c : SimChip) (frame : List Byte) : Config.TagResponse :=
  (c.tags.lookup frame).getD (Config.tagOracle frame)

/-- The delay drawn for a command (R88): scripted, or opaque. -/
def SimChip.delay (c : SimChip) (draws : Nat) : Nat :=
  c.delays.head?.getD (Config.freeDelay draws)

/-- Whether the CRC-done flag never comes for this command (R94): scripted, or opaque. -/
def SimChip.flagNeverComes (c : SimChip) (draws : Nat) : Bool :=
  c.silent.head?.getD (Config.freeSilent draws)

/-- A TagOracle response of a fault-free SimChip (R95). -/
def faultFree (cfg : Config.Params) : Config.TagResponse → Bool
  | .answer bytes lastBits errBits irqBits =>
    lastBits == 0 && errBits == 0 && irqBits &&& cfg.waitIrqMask != 0 && irqBits &&& cfg.timerIrqBit == 0 &&
      bytes.length ≤ 16
  | .silence _ => false
  | .never => false

/-! ## Addresses SimChip treats apart (R91 to R95)

No rule keeps the parameters REG_CRC_IRQ and the CRC-result addresses apart from the other registers or from each other (R10).
Where one of them names the address of another register, R90 to R96 give one access two effects, and the model's choice is
that the earlier of these tests wins: a register with an address of its own before a parameter (log entry 34). So 0x01 is
always the command register. -/

/-- The registers whose access R91 to R96 describe. -/
inductive SimPort where
  | fifoData | fifoLevel | commIrq | crcIrq | error | control | crcLo | crcHi | command | bitFraming | plain
  deriving DecidableEq, Repr

/-- Which of them an address is. -/
def simPort (cfg : Config.Params) (a : RegAddr) : SimPort :=
  if a = chipAddr Config.REG_FIFO_DATA then .fifoData
  else if a = chipAddr Config.REG_FIFO_LEVEL then .fifoLevel
  else if a = chipAddr Config.REG_COMM_IRQ then .commIrq
  else if a = chipAddr Config.REG_ERROR then .error
  else if a = chipAddr Config.REG_CONTROL then .control
  else if a = chipAddr Config.REG_COMMAND then .command
  else if a = chipAddr Config.REG_BIT_FRAMING then .bitFraming
  else if a = chipAddr cfg.regCrcIrq then .crcIrq
  else if a = chipAddr cfg.regCrcResultLo then .crcLo
  else if a = chipAddr cfg.regCrcResultHi then .crcHi
  else .plain

/-! ## Reads (R90 to R95) -/

/-- The FIFO after a tag answer `r` (R95). R95 stores `r` and R89 bounds the FIFO by `FIFO_CAP`; for a longer `r` the spec
says nothing more, and the model's choice is contents that are a free draw within the bound (log entry 30). -/
def answerFifo (cfg : Config.Params) (draws : Nat) (r : List Byte) : List Byte :=
  if r.length ≤ cfg.fifoCap then r else (Config.freeFifo draws).take cfg.fifoCap

/-- A pending transceive progresses at a read of REG_COMM_IRQ (R95). `draws` is the number of the draw that `answerFifo` may
need. For a pending `trx(d, Never)` with `d > 0` one clause of R95 counts `d` down and another changes nothing; the model's
choice is to count down, which no answer shows (log entry 33). -/
def SimChip.pollTransceive (cfg : Config.Params) (draws : Nat) (c : SimChip) : SimChip :=
  match c.pending with
  | .trx 0 (.answer r k e q) =>
    { c with fifo := answerFifo cfg draws r, lastBits := k, err := e, commIrq := c.commIrq ||| q, pending := .none }
  | .trx 0 (.silence q) => { c with err := 0, commIrq := c.commIrq ||| q, pending := .none }
  | .trx 0 .never => c
  | .trx (d + 1) resp => { c with pending := .trx d resp }
  | .crc _ => c
  | .none => c

/-- A pending calculate-CRC progresses at a read of REG_CRC_IRQ (R94). -/
def SimChip.pollCrc (cfg : Config.Params) (c : SimChip) : SimChip :=
  match c.pending with
  | .crc 0 => { c with divIrq := c.divIrq ||| cfg.crcDoneBit, pending := .none }
  | .crc (d + 1) => { c with pending := .crc d }
  | .trx _ _ => c
  | .none => c

/-- A read of the FIFO port: the oldest byte, removed; from an empty FIFO a free draw (R91). -/
def simReadFifo (c : SimChip) (s : State) : State :=
  match c.fifo with
  | v :: rest => receive v (setSim { c with fifo := rest } s)
  | [] => receiveFree s

/-- A read of the level register answers the length of the FIFO (R47, R92). Where it is more than a byte holds, the spec
gives no answer, and the model's choice is a free draw (log entry 29). -/
def simReadLevel (c : SimChip) (s : State) : State :=
  if c.fifo.length < 256 then receive (BitVec.ofNat 8 c.fifo.length) s else receiveFree s

/-- A read of REG_CONTROL: the bits of `LAST_BITS_MASK` are `S.lastBits`, the others a free draw (R93). Where the mask does not
cover `S.lastBits`, no byte is as R93 has it, and the model's choice is that the whole answer is a free draw (log entry
31). -/
def simReadControl (c : SimChip) (s : State) : State :=
  let t := receiveFree s
  if c.lastBits.setWidth 8 &&& ~~~ s.cfg.lastBitsMask = 0 then
    receive ((t.rx &&& ~~~ s.cfg.lastBitsMask) ||| c.lastBits.setWidth 8) t
  else t

/-- A poll read of REG_COMM_IRQ: the pending transceive progresses, then the flags are answered (R93, R95). -/
def simReadCommIrq (c : SimChip) (s : State) : State :=
  let c' := c.pollTransceive s.cfg s.draws
  receive c'.commIrq (setSim c' { s with draws := s.draws + 1 })

/-- A plain register answers what was stored, and before that its free initial byte (R89, R90). -/
def simReadPlain (a : RegAddr) (c : SimChip) (s : State) : State :=
  receive ((s.regByte a).getD (Config.simReg c.epoch a)) s

/-- SimChip's answer to a read exchange. -/
def simRead (a : RegAddr) (c : SimChip) (s : State) : State :=
  match simPort s.cfg a with
  | .fifoData => simReadFifo c s
  | .fifoLevel => simReadLevel c s
  | .commIrq => simReadCommIrq c s
  | .crcIrq => let c' := c.pollCrc s.cfg; receive c'.divIrq (setSim c' s)
  | .error => receive c.err s
  | .control => simReadControl c s
  | .crcLo => receive c.crcLo s
  | .crcHi => receive c.crcHi s
  | .command => simReadPlain a c s
  | .bitFraming => simReadPlain a c s
  | .plain => simReadPlain a c s

/-! ## Writes (R90 to R96)

`s.regs` already holds the written byte. -/

/-- A write of the FIFO port appends; SimChip has no step when its FIFO is full (R91). -/
def simWriteFifo (v : Byte) (c : SimChip) (s : State) : State :=
  if c.fifo.length < s.cfg.fifoCap then setSim { c with fifo := c.fifo ++ [v] } s
  else { s with chip := .stuck }

/-- Calculate-CRC consumes the FIFO, latches the pair and draws a delay, or never signals (R94). -/
def simCalcCrc (c : SimChip) (s : State) : State :=
  let p := c.crc16 s.cfg c.fifo
  setSim
    { c with
      crcLo := p.1
      crcHi := p.2
      fifo := []
      pending := if c.flagNeverComes s.draws then .none else .crc (c.delay s.draws)
      silent := c.silent.tail
      delays := if c.flagNeverComes s.draws then c.delays else c.delays.tail }
    { s with draws := s.draws + 1 }

/-- Every component of SimChip a fresh free draw, nothing pending: its start (R89) and its soft reset (R96). The tables and
scripts of R88 stay; `epoch` moves on, so that the plain registers are drawn afresh (log entry 19). -/
def simRedraw (c : SimChip) (s : State) : State :=
  let s1 := receiveFree s
  let s2 := receiveFree s1
  let s3 := receiveFree s2
  let s4 := receiveFree s3
  let s5 := receiveFree s4
  let s6 := receiveFree s5
  setSim
    { c with
      fifo := (Config.freeFifo s6.draws).take s.cfg.fifoCap
      commIrq := s1.rx
      divIrq := s2.rx
      err := s3.rx
      lastBits := s4.rx.setWidth 3
      crcLo := s5.rx
      crcHi := s6.rx
      pending := .none
      epoch := c.epoch + 1 }
    { s6 with rx := s.rx, draws := s6.draws + 1 }

/-- Soft reset (R96). -/
def simSoftReset (c : SimChip) (s : State) : State := simRedraw c s

/-- SimChip with the tables and scripts of `c` takes the place of the chip and starts (R88, R89): every component a free
draw, no register written, nothing pending. -/
def startSim (c : SimChip) (s : State) : State := simRedraw c { s with regs := [] }

/-- A write of the command register (R94 to R96): calculate-CRC and soft reset act at once, idle clears what is
pending, transceive arms by being the stored byte, any other byte is stored and does no more. No rule keeps the parameter
CMD_IDLE apart from 0x03, 0x0C and 0x0F (R10, R211); where it is one of them R94 to R96 give one byte two effects, and the
model's choice is that the named command has its effect and idle has none (log entry 32). -/
def simWriteCommand (v : Byte) (c : SimChip) (s : State) : State :=
  if v = Config.CMD_CALC_CRC then simCalcCrc c s
  else if v = Config.CMD_TRANSCEIVE then s
  else if v = Config.CMD_SOFT_RESET then simSoftReset c s
  else if v = s.cfg.cmdIdle then setSim { c with pending := .none } s
  else s

/-- A write of the bit-framing register with the start-send bit while the armed command is transceive: the FIFO
is the frame, and the tag's response becomes pending (R95). -/
def simWriteBitFraming (v : Byte) (c : SimChip) (s : State) : State :=
  if v &&& s.cfg.startSendBit ≠ 0 ∧ s.regByte (chipAddr Config.REG_COMMAND) = some Config.CMD_TRANSCEIVE then
    setSim
      { c with
        fifo := []
        pending := .trx (c.delay s.draws) (c.tagOracle c.fifo)
        delays := c.delays.tail }
      { s with draws := s.draws + 1 }
  else s

/-- A write of REG_COMM_IRQ: the marked bits are cleared or set as the top bit says (R93). -/
def SimChip.writeCommIrq (cfg : Config.Params) (v : Byte) (c : SimChip) : SimChip :=
  if v &&& cfg.irqPendingBit = 0 then { c with commIrq := c.commIrq &&& ~~~ v }
  else { c with commIrq := c.commIrq ||| v }

/-- SimChip takes a write exchange. -/
def simWrite (a : RegAddr) (v : Byte) (c : SimChip) (s : State) : State :=
  match simPort s.cfg a with
  | .fifoData => simWriteFifo v c s
  | .fifoLevel => if v &&& s.cfg.fifoFlushBit ≠ 0 then setSim { c with fifo := [] } s else s
  | .commIrq => setSim (c.writeCommIrq s.cfg v) s
  | .crcIrq => setSim { c with divIrq := v } s
  | .error => s
  | .control => s
  | .crcLo => s
  | .crcHi => s
  | .command => simWriteCommand v c s
  | .bitFraming => simWriteBitFraming v c s
  | .plain => s

/-! ## The chip's side of an exchange -/

/-- The chip answers a read exchange into `rx`: `ChipAnswer(a)` (R16, R64). The unconstrained chip answers any byte
(R80); a chip without a step answers any byte too, but the run has stopped (R91). -/
def chipRead (a : RegAddr) (s : State) : State :=
  match s.chip with
  | .unconstrained => receiveFree s
  | .sim c => simRead a c s
  | .stuck => receiveFree s

/-- What the engine knows of the chip registers after a write: the written byte, and nothing of any register after a
soft reset (R57, R214, R282; log entry 6). Over SimChip the same write redraws every component, whatever the parameters are
(`simPort`, log entry 34). -/
def recordWrite (a : RegAddr) (v : Byte) (s : State) : State :=
  if a = chipAddr Config.REG_COMMAND ∧ v = Config.CMD_SOFT_RESET then { s with regs := [] }
  else s.setRegByte a v

/-- The chip takes a write exchange (R63, R81). -/
def chipWrite (a : RegAddr) (v : Byte) (s : State) : State :=
  let t := recordWrite a v s
  match t.chip with
  | .unconstrained => t
  | .sim c => simWrite a v c t
  | .stuck => t

end Sys2Proof.Machine
end

