-- ==== Sys2Proof/Machine/Flags.lean ====
section
/-! DEFINITION. Everything that steers the block (R39): the exit tests of the two poll loops, the exhaustion test,
the error and timer tests with the status they give, the drain's count and bit length; and the labels of
sequencer positions. -/

namespace Sys2Proof.Machine

/-! ## Poll loops -/

/-- Exit test of the poll of `computeCRC` (R156): budget spent or CRC-done flag seen. -/
def crcPollDone (cfg : Config.Params) (budget : Nat) (irq : Byte) : Bool :=
  budget == 0 || irq &&& cfg.crcDoneBit != 0

/-- Whether an answer has a timer or a wait bit (R182). -/
def trxSignalled (cfg : Config.Params) (irq : Byte) : Bool :=
  irq &&& cfg.timerIrqBit != 0 || irq &&& cfg.waitIrqMask != 0

/-- Exit test of the poll of `toCard` (R182): budget spent, timer bit or wait bit. -/
def trxPollDone (cfg : Config.Params) (budget : Nat) (irq : Byte) : Bool :=
  budget == 0 || trxSignalled cfg irq

/-! ## Status (R185, R251 to R253, R260) -/

/-- Whether one of the framing, parity, buffer-overflow and collision bits is set (R45, R185). -/
def errorBits (err : Byte) : Bool := err &&& Config.ERR_MASK != 0

/-- The timer test of R185, on the last polled value and the enable mask of step 2. -/
def timerFired (cfg : Config.Params) (irq : Byte) : Bool :=
  irq &&& Config.IRQ_EN_MASK &&& cfg.timerIrqBit != 0

/-- The status after a poll that was not exhausted (R185): `before` while an error bit is set, else TIMEOUT if
the timer fired, else OK. -/
def statusAfter (cfg : Config.Params) (irq err : Byte) (before : Status) : Status :=
  if errorBits err then before else if timerFired cfg irq then .timeout else .ok

/-- Whether step 7 drains the FIFO (R186): for the transceive command only, and with an error bit set only if
`DRAIN_ON_ERROR`. -/
def drains (cfg : Config.Params) (command err : Byte) : Bool :=
  command == Config.CMD_TRANSCEIVE && (cfg.drainOnError || !errorBits err)

/-! ## The drain's arithmetic (R17, R186, R187, R194) -/

/-- `clamp(v, lo, hi)` of R17. -/
def clamp (v lo hi : Nat) : Nat := if v < lo then lo else if hi < v then hi else v

/-- The number of bytes the drain reads: the whole level byte, clamped to 1 to 16 (R186). -/
def drainCount (lvl : Byte) : Nat := clamp lvl.toNat 1 Config.DATA_MAX

/-- The formula of R187 on a count `m` of bytes. -/
def bitsOf (m : Nat) (lastBits : Byte) : Nat :=
  if lastBits = 0 then m * 8 else (m - 1) * 8 + lastBits.toNat

/-- Whether D13 leaves the bit length unspecified: the unclamped level enters the formula, it is 0, and the
count is not. -/
def bitLengthOpen (cfg : Config.Params) (lvl lastBits : Byte) : Bool :=
  !cfg.bitlenFromClamped && lvl == 0 && lastBits != 0

/-- The bit length of R187: from the clamped count, or from the level as read when `BITLEN_FROM_CLAMPED` is false
(D13). `free` is the value used where D13 leaves it unspecified (log entry 15). -/
def bitLengthOf (cfg : Config.Params) (n : Nat) (lvl lastBits : Byte) (free : Nat) : Nat :=
  if cfg.bitlenFromClamped then bitsOf n lastBits
  else if bitLengthOpen cfg lvl lastBits then free
  else bitsOf lvl.toNat lastBits

/-! ## Codes and labels -/

/-- The numeric codes of R30. -/
def Status.code : Status → BitVec 2
  | .ok => 0
  | .timeout => 1
  | .error => 2

/-- The step label of a position (R36): none at REST. -/
def Seq.label : Seq → Option StepLabel
  | .rest => none
  | .wr1 => some .WR1
  | .rd1 => some .RD1
  | .sb1 => some .SB1
  | .sb2 => some .SB2
  | .cb1 => some .CB1
  | .cb2 => some .CB2
  | .c1Read => some .C1
  | .c1Write => some .C1
  | .c2Read => some .C2
  | .c2Write => some .C2
  | .c3 _ => some .C3
  | .c4 => some .C4
  | .c5 => some .C5
  | .c6Lo => some .C6
  | .c6Hi => some .C6
  | .t2Enable => some .T2
  | .t2ClearRead => some .T2
  | .t2ClearWrite => some .T2
  | .t2FlushRead => some .T2
  | .t2FlushWrite => some .T2
  | .t2Idle => some .T2
  | .t3 _ => some .T3
  | .t4Issue => some .T4
  | .t4StartRead => some .T4
  | .t4StartWrite => some .T4
  | .t5 => some .T5
  | .t6Read => some .T6
  | .t6Write => some .T6
  | .t7Error => some .T7
  | .t7Level => some .T7
  | .t7Control => some .T7
  | .t7Data _ => some .T7

/-- The names of R37 as ranges of the `toCard` position: IDLE from the completion of step 2 to the first FIFO
write, LOADED from the completion of step 3 to the command write, EXECUTING from the completion of step 4 through
the poll loop, IRQ_SIGNALED after a poll loop that was not exhausted. The document names no state for the
exhausted path, nor for the middle of a step. Where there is nothing to load (`len(E.send) = 0`) steps 2 and 3 complete at once,
so R175 begins IDLE and R176 begins LOADED at one position, and no first FIFO write comes to end IDLE; the spec does not say which
label holds there, and the model's choice is LOADED alone (log entry 35). -/
def State.fsmLabel (s : State) : Option Fsm :=
  match s.seq with
  | .t3 0 => some .idle
  | .t4Issue => some .loaded
  | .t5 => some .executing
  | .t6Read => if s.budget = 0 then none else some .irqSignaled
  | .t6Write => if s.budget = 0 then none else some .irqSignaled
  | .t7Error => some .irqSignaled
  | .t7Level => some .irqSignaled
  | .t7Control => some .irqSignaled
  | .t7Data _ => some .irqSignaled
  | _ => none

/-- Whether an event is a bus exchange. -/
def Event.isExchange : Event → Bool
  | .request _ => false
  | .write _ _ => true
  | .read _ _ _ => true
  | .complete _ => false

/-- The bus exchanges of a history: the exchange trace (R86). -/
def exchanges (h : List Event) : List Event := h.filter Event.isExchange

/-- The result the host was handed last: that of the completion the history ends with (R105). A result register
is read by the host in no other way (R35). -/
def State.handedOver (s : State) : Option OpResult :=
  match s.history.getLast? with
  | some (.complete r) => some r
  | _ => none

end Sys2Proof.Machine
end

