-- ==== Sys2Proof/Machine/Ops.lean ====
section
/-! DEFINITION. The shared operations: bus transport, the two exchanges, the inlined bit operations, polling, and
completion. The block takes no exception and returns from none (R250, R261; log entry 24): what takes its place is
the status that `Flags.statusAfter` gives and the completion that hands it over. -/

namespace Sys2Proof.Machine

/-! ## Bus transport (R14, R61, R62) -/

/-- `BusSelect()` drives chip-select low. -/
def busSelect (s : State) : State := { s with cs := .low }

/-- `BusDeselect()` releases chip-select high. -/
def busDeselect (s : State) : State := { s with cs := .high }

/-- Append an event to the history (R86). -/
def record (e : Event) (s : State) : State := { s with history := s.history ++ [e] }

/-- One bus exchange that writes: two bytes inside one chip-select bracket, one atomic step (R62, R63). -/
def writeExchange (first second : Byte) (s : State) : State :=
  busDeselect (record (.write first second) (chipWrite (addressOnWire first) second (busSelect s)))

/-- One bus exchange that reads: the byte received in the second byte time is the answer, kept in `rx` (R62, R64). -/
def readExchange (first second : Byte) (s : State) : State :=
  let t := chipRead (addressOnWire first) (busSelect s)
  busDeselect (record (.read first second t.rx) t)

/-- `RegWrite(a, v)`, also `MemWrite(a, 1, v)` (R15, R63). -/
def regWrite (reg v : Byte) (s : State) : State := writeExchange (writeAddressByte reg) v s

/-- `RegRead(a)`, also `MemRead(a, 1)`; the value is `rx` (R15, R64). -/
def regRead (reg : Byte) (s : State) : State := readExchange (readAddressByte reg) s.cfg.readDummy s

/-! ## Inlined bit operations (R134, R136, R139) -/

/-- The read half of a read-modify-write: `E.tmp <- RegRead(reg)` (SB1, CB1). -/
def readTmp (reg : Byte) (s : State) : State :=
  let t := regRead reg s
  { t with tmp := t.rx }

/-- The write half of `setBits`: `RegWrite(reg, E.tmp | mask)` (SB2). -/
def writeTmpOr (reg mask : Byte) (s : State) : State := regWrite reg (s.tmp ||| mask) s

/-- The write half of `clearBits`: `RegWrite(reg, E.tmp & ~mask)` (CB2). -/
def writeTmpAndNot (reg mask : Byte) (s : State) : State := regWrite reg (s.tmp &&& ~~~ mask) s

/-- `setBits(reg, mask)` as a step of an operation (R134, R139). -/
def setBits (reg mask : Byte) (s : State) : State := writeTmpOr reg mask (readTmp reg s)

/-- `clearBits(reg, mask)` as a step of an operation (R136, R139). -/
def clearBits (reg mask : Byte) (s : State) : State := writeTmpAndNot reg mask (readTmp reg s)

/-! ## Idioms (R118) -/

/-- *flush* (R152, R175). -/
def flushFifo (s : State) : State := setBits Config.REG_FIFO_LEVEL s.cfg.fifoFlushBit s

/-- *load*: one write exchange of the FIFO port per byte, in order (R67, R153, R176). -/
def loadFifo : List Byte → State → State
  | [], s => s
  | b :: rest, s => loadFifo rest (regWrite Config.REG_FIFO_DATA b s)

/-- *issue c* (R154, R178, R210). -/
def issue (c : Byte) (s : State) : State := regWrite Config.REG_COMMAND c s

/-- *start-send* (R180). -/
def startSend (s : State) : State := setBits Config.REG_BIT_FRAMING s.cfg.startSendBit s

/-- *stop-send* (R189). -/
def stopSend (s : State) : State := clearBits Config.REG_BIT_FRAMING s.cfg.startSendBit s

/-! ## Polling (R156, R182) -/

/-- One iteration's read and countdown: `E.irq <- RegRead(reg)`, `E.budget <- E.budget - 1`. -/
def pollRead (reg : Byte) (s : State) : State :=
  let t := regRead reg s
  { t with irq := t.rx, budget := t.budget - 1 }

/-- `repeat` the read `until` the exit test holds. `more` iterations are left after the next one; the loop loads it
with the budget less one, so the body runs at least once and at most the budget (R83, R156, R182). -/
def pollLoop (done : Config.Params → Nat → Byte → Bool) (reg : Byte) : Nat → State → State
  | 0, s => pollRead reg s
  | more + 1, s =>
    let t := pollRead reg s
    if done t.cfg t.budget t.irq then t else pollLoop done reg more t

/-- The poll of `computeCRC` (R156). -/
def pollCrcDone (s : State) : State := pollLoop crcPollDone s.cfg.regCrcIrq (s.budget - 1) s

/-- The poll of `toCard` (R182). -/
def pollCommIrq (s : State) : State := pollLoop trxPollDone Config.REG_COMM_IRQ (s.budget - 1) s

/-! ## The drain (R186 to R188) -/

/-- `E.lvl <- RegRead(REG_FIFO_LEVEL)` and the clamped count (R186). -/
def readLevel (s : State) : State :=
  let t := regRead Config.REG_FIFO_LEVEL s
  { t with lvl := t.rx, n := drainCount t.rx }

/-- The last-bits count and the bit length (R187). Where D13 leaves the length unspecified it is a fresh free
value. -/
def readLastBits (s : State) : State :=
  let t := regRead Config.REG_CONTROL s
  let k := t.rx &&& t.cfg.lastBitsMask
  { t with
    lastBits := k
    bitLength := bitLengthOf t.cfg t.n t.lvl k (Config.freeBitLength t.draws)
    draws := if bitLengthOpen t.cfg t.lvl k then t.draws + 1 else t.draws }

/-- `E.data[i] <- RegRead(REG_FIFO_DATA)` (R188). -/
def readData (i : Nat) (s : State) : State :=
  let t := regRead Config.REG_FIFO_DATA s
  { t with data := t.data.setIfInBounds i t.rx }

/-- `count` reads of the FIFO port into `E.data` from index `i` (R188). -/
def drainBytes : Nat → Nat → State → State
  | 0, _, s => s
  | count + 1, i, s => drainBytes count (i + 1) (readData i s)

/-- `E.dataLen <- E.n` (R188). -/
def setDataLen (s : State) : State := { s with dataLen := s.n }

/-! ## Completion (R36, R105, R110) -/

/-- `seq <- REST`, and the result goes to the host as an event of its own. -/
def complete (r : OpResult) (s : State) : State := record (.complete r) { s with seq := .rest }

/-- The record `toCard` hands over (R190): the first `E.dataLen` bytes of `E.data` and no others (R31). -/
def resultRecord (s : State) : TransceiveResult where
  status := s.status
  data := s.data.toList.take s.dataLen
  bitLength := s.bitLength

/-- Completion of `readRegister` (R132). -/
def completeRead (s : State) : State :=
  let t := { s with rdata := s.rx }
  complete (.byte t.rdata) t

/-- The two result reads of `computeCRC`, low byte first (R158). -/
def readCrcLo (s : State) : State :=
  let t := regRead s.cfg.regCrcResultLo s
  { t with crcLo := t.rx }

/-- See `readCrcLo`. -/
def readCrcHi (s : State) : State :=
  let t := regRead s.cfg.regCrcResultHi s
  { t with crcHi := t.rx }

/-- Completion of `computeCRC` (R158). -/
def completeCrc (s : State) : State := complete (.pair s.crcLo s.crcHi) s

/-- Completion of `toCard`, step 8 (R190). -/
def completeCard (s : State) : State := complete (.card (resultRecord s)) s

/-! ## Outcomes -/

/-- The outcome of exchanges that led from `s` to `t`: the next state, but for a SimChip that has no step
(R91, log entry 18). With the unconstrained chip nothing can stop (R61). -/
def outcome (s t : State) : Host.Outcome State Fault Refusal :=
  match s.chip with
  | .unconstrained => .next t
  | .sim _ => if t.chip = .stuck then .fault .simFifoFull else .next t
  | .stuck => .fault .simFifoFull

/-- An operation or exchange starts at REST only; at any other position the request, or the other bus master, is
refused (R78, R110, R286, U6). -/
def atRest (s t : State) : Host.Outcome State Fault Refusal :=
  match s.seq with
  | .rest => outcome s t
  | _ => .refused .notAtRest

end Sys2Proof.Machine
end

