-- ==== Sys2Proof/Machine/BusFrames.lean ====
section
/-! DEFINITION. The two bus frames on their own (R100, R101): one exchange, performed at REST (log entry 9). -/

namespace Sys2Proof.Machine

/-- BUS_WR: one write exchange; the chip takes the byte (R63, R100). -/
def execBusWr (a : RegAddr) (v : Byte) (s : State) : Host.Outcome State Fault Refusal :=
  atRest s (writeExchange (writeFrameByte a) v s)

/-- BUS_RD: one read exchange; the chip's answer is received in `rx` (R64, R101). -/
def execBusRd (a : RegAddr) (d : Byte) (s : State) : Host.Outcome State Fault Refusal :=
  atRest s (readExchange (readFrameByte a) d s)

end Sys2Proof.Machine
end

