-- ==== Sys2Proof/Machine/ChipCommands.lean ====
section
/-! DEFINITION. Chip commands, each one write exchange of the command register (R210), and the tag-facing opcodes,
each a payload byte on its way into the FIFO (R216, R217). -/

namespace Sys2Proof.Machine

/-- CMD_IDLE: `W(REG_COMMAND, CMD_IDLE)`, the value a parameter (R211; log entry 10). -/
def execCmdIdle (s : State) : Host.Outcome State Fault Refusal := atRest s (issue s.cfg.cmdIdle s)

/-- CMD_CALC_CRC: `W(REG_COMMAND, 0x03)` (R212). -/
def execCmdCalcCrc (s : State) : Host.Outcome State Fault Refusal := atRest s (issue Config.CMD_CALC_CRC s)

/-- CMD_TRANSCEIVE: `W(REG_COMMAND, 0x0C)`; nothing is sent until start-send (R213). -/
def execCmdTransceive (s : State) : Host.Outcome State Fault Refusal := atRest s (issue Config.CMD_TRANSCEIVE s)

/-- CMD_SOFT_RESET: `W(REG_COMMAND, 0x0F)`; no engine register is reset by it (R214). -/
def execCmdSoftReset (s : State) : Host.Outcome State Fault Refusal := atRest s (issue Config.CMD_SOFT_RESET s)

/-- TAG_READ: "reaches the chip only as a byte written to `REG_FIFO_DATA`" (R216; log entry 11). -/
def execTagRead (s : State) : Host.Outcome State Fault Refusal :=
  atRest s (regWrite Config.REG_FIFO_DATA Config.TAG_READ s)

/-- TAG_WRITE: opaque to the block in the same way (R217; log entry 11). -/
def execTagWrite (s : State) : Host.Outcome State Fault Refusal :=
  atRest s (regWrite Config.REG_FIFO_DATA Config.TAG_WRITE s)

end Sys2Proof.Machine
end

