-- ==== Sys2Proof/Machine/CrcDriver.lean ====
section
/-! DEFINITION. The CRC coprocessor driver CRC (41_crc_driver.md). -/

namespace Sys2Proof.Machine

/-- Step C1: "clear the CRC-done interrupt flag" (R151). -/
def clearCrcDone (s : State) : State := clearBits s.cfg.regCrcIrq s.cfg.crcDoneBit s

/-- The head of step C5: `E.budget <- POLL_BUDGET_CRC` (R150, R156). -/
def loadCrcBudget (s : State) : State := { s with budget := s.cfg.pollBudgetCrc }

/-- Steps C1 to C4: clear the flag, flush, load, issue calculate-CRC (R151 to R154). -/
def startCrc (data : List Byte) (s : State) : State :=
  issue Config.CMD_CALC_CRC (loadFifo data (flushFifo (clearCrcDone s)))

/-- Steps C1 to C6. Whether the poll ended on the flag or on the budget makes no difference to what follows (R157,
R159). -/
def computeCrc (data : List Byte) (s : State) : State :=
  readCrcHi (readCrcLo (pollCrcDone (loadCrcBudget (startCrc data s))))

/-- CRC, `computeCRC(data) -> (byte, byte)` (R150). -/
def execCrc (data : List Byte) (s : State) : Host.Outcome State Fault Refusal :=
  atRest s (completeCrc (computeCrc data (acceptCrc data s)))

end Sys2Proof.Machine
end

