-- ==== Sys2Proof/Machine/RegisterAccess.lean ====
section
/-! DEFINITION. The register access primitives WR, RD, SETB, CLRB (40_register_access.md). -/

namespace Sys2Proof.Machine

/-- WR, `writeRegister(reg, value)`: one write exchange; no result (R130). -/
def execWr (reg value : Byte) (s : State) : Host.Outcome State Fault Refusal :=
  atRest s (complete .nothing (regWrite reg value (acceptWr reg value s)))

/-- RD, `readRegister(reg) -> byte`: one read exchange, its answer the result (R132). -/
def execRd (reg : Byte) (s : State) : Host.Outcome State Fault Refusal :=
  atRest s (completeRead (regRead reg (acceptRd reg s)))

/-- SETB, `setBits(reg, mask)`: a read exchange, then a write exchange of the answer OR the mask, always performed
(R134). -/
def execSetb (reg mask : Byte) (s : State) : Host.Outcome State Fault Refusal :=
  atRest s (complete .nothing (setBits reg mask (acceptSetb reg mask s)))

/-- CLRB, `clearBits(reg, mask)`: a read exchange, then a write exchange of the answer AND the mask's complement,
always performed (R136). -/
def execClrb (reg mask : Byte) (s : State) : Host.Outcome State Fault Refusal :=
  atRest s (complete .nothing (clearBits reg mask (acceptClrb reg mask s)))

end Sys2Proof.Machine
end

