-- ==== Sys2Proof/Machine/Transceive.lean ====
section
/-! DEFINITION. The transceive operation TOCARD (42_transceive.md). Step 1 is part of `acceptTocard`. -/

namespace Sys2Proof.Machine

/-- Step 2, first exchange: the full mask with the global-enable bit (R173). -/
def enableIrqs (s : State) : State :=
  regWrite Config.REG_COMM_IEN (Config.IRQ_EN_MASK ||| s.cfg.globalIenBit) s

/-- Step 2, second and third exchanges: clear the prior IRQ-pending bit (R174). -/
def clearPending (s : State) : State := clearBits Config.REG_COMM_IRQ s.cfg.irqPendingBit s

/-- Step 2: enable, clear, flush, idle; six exchanges (R173 to R175). -/
def prepareChip (s : State) : State :=
  let t := flushFifo (clearPending (enableIrqs s))
  issue t.cfg.cmdIdle t

/-- Step 4: issue `command`; for the transceive command, start-send (R178, R180). -/
def issueCommand (command : Byte) (s : State) : State :=
  let t := issue command s
  if command = Config.CMD_TRANSCEIVE then startSend t else t

/-- Step 7, error read and status (R184, R185). -/
def readError (s : State) : State :=
  let t := regRead Config.REG_ERROR s
  { t with err := t.rx, status := statusAfter t.cfg t.irq t.rx t.status }

/-- Step 7, drain: level, last-bits count, data (R186 to R188). -/
def drainResponse (s : State) : State :=
  let t := readLastBits (readLevel s)
  setDataLen (drainBytes t.n 0 t)

/-- Step 7: nothing at all after an exhausted poll (R183, R184). -/
def evaluate (command : Byte) (s : State) : State :=
  if s.budget = 0 then s
  else
    let t := readError s
    if drains t.cfg command t.err then drainResponse t else t

/-- Steps 2 to 7 (R170). -/
def toCard (command : Byte) (sendData : List Byte) (s : State) : State :=
  evaluate command (stopSend (pollCommIrq (issueCommand command (loadFifo sendData (prepareChip s)))))

/-- TOCARD, `toCard(command, sendData) -> TransceiveResult` (R170). -/
def execTocard (command : Byte) (sendData : List Byte) (s : State) : Host.Outcome State Fault Refusal :=
  atRest s (completeCard (toCard command sendData (acceptTocard command sendData s)))

end Sys2Proof.Machine
end

