-- ==== Sys2Proof/Machine/Dispatch.lean ====
section
/-! DEFINITION. One arm for each constructor of Instr. -/

namespace Sys2Proof.Machine

def exec (i : Instr) (s : State) : Host.Outcome State Fault Refusal :=
  match i with
  -- bus frames
  | .busWr a v => Sys2Proof.Machine.execBusWr a v s
  | .busRd a d => Sys2Proof.Machine.execBusRd a d s
  -- operations of the block
  | .wr reg value => Sys2Proof.Machine.execWr reg value s
  | .rd reg => Sys2Proof.Machine.execRd reg s
  | .setb reg mask => Sys2Proof.Machine.execSetb reg mask s
  | .clrb reg mask => Sys2Proof.Machine.execClrb reg mask s
  | .crc data => Sys2Proof.Machine.execCrc data s
  | .tocard command sendData => Sys2Proof.Machine.execTocard command sendData s
  -- chip commands
  | .cmdIdle => Sys2Proof.Machine.execCmdIdle s
  | .cmdCalcCrc => Sys2Proof.Machine.execCmdCalcCrc s
  | .cmdTransceive => Sys2Proof.Machine.execCmdTransceive s
  | .cmdSoftReset => Sys2Proof.Machine.execCmdSoftReset s
  -- tag-facing opcodes
  | .tagRead => Sys2Proof.Machine.execTagRead s
  | .tagWrite => Sys2Proof.Machine.execTagWrite s

end Sys2Proof.Machine
end

