-- ==== Sys2Proof/Machine/Sequencer.lean ====
section
/-! DEFINITION. The sequencer at the grain of one bus exchange (R36, R62): `advance` performs the exchange the
position names and moves to the next. Between two exchanges the chip may act (R79); what it does shows only in its
later answers. -/

namespace Sys2Proof.Machine

/-- `seq <- P` (R13). -/
def goto (p : Seq) (s : State) : State := { s with seq := p }

/-- The host's request event on its own (R110): latch the operands, take the first position. The rows that are no
operation of the block (R3) have no request event. -/
def acceptOperation (i : Instr) (s : State) : State :=
  match i with
  | .wr reg value => acceptWr reg value s
  | .rd reg => acceptRd reg s
  | .setb reg mask => acceptSetb reg mask s
  | .clrb reg mask => acceptClrb reg mask s
  | .crc data => acceptCrc data s
  | .tocard command sendData => acceptTocard command sendData s
  | .busWr _ _ => s
  | .busRd _ _ => s
  | .cmdIdle => s
  | .cmdCalcCrc => s
  | .cmdTransceive => s
  | .cmdSoftReset => s
  | .tagRead => s
  | .tagWrite => s

/-- The six operations the block offers its host (R3). -/
def isOperation (i : Instr) : Bool := i.format == .hostRequest

/-! ## Branches (R193) -/

/-- Where loading starts, and where it goes after byte `i`: the per-byte repeat while bytes remain. -/
def loadFrom (i len : Nat) (more : Nat → Seq) (after : Seq) : Seq := if i < len then more i else after

/-- After step C2, and after each byte of C3. -/
def crcLoadPosition (i : Nat) (s : State) : Seq := loadFrom i s.send.length .c3 .c4

/-- After step T2, and after each byte of T3. -/
def cardLoadPosition (i : Nat) (s : State) : Seq := loadFrom i s.send.length .t3 .t4Issue

/-- After the command write of T4: start-send for the transceive command only (R180). -/
def afterIssue (s : State) : Seq := if s.command = Config.CMD_TRANSCEIVE then .t4StartRead else .t5

/-- After step T6: step 7 unless the poll was exhausted (R184). -/
def afterStop (s : State) : State := if s.budget = 0 then completeCard s else goto .t7Error s

/-- After the error read: the drain or the end (R186). -/
def afterError (s : State) : State :=
  if drains s.cfg s.command s.err then goto .t7Level s else completeCard s

/-- After byte `i` of the drain: the next, or the end (R188). -/
def afterData (i : Nat) (s : State) : State :=
  if i + 1 < s.n then goto (.t7Data (i + 1)) s else completeCard (setDataLen s)

/-- Byte `i` of a load, and the position after it. A position past the last byte performs no exchange. -/
def loadByte (i : Nat) (next : Nat → State → Seq) (s : State) : State :=
  match s.send[i]? with
  | some b => let t := regWrite Config.REG_FIFO_DATA b s; goto (next (i + 1) t) t
  | none => goto (next i s) s

/-! ## One exchange -/

/-- The exchange of the current position and the move to the next (R36, R130 to R136, R150, R170). -/
def advance (s : State) : State :=
  match s.seq with
  | .rest => s
  | .wr1 => complete .nothing (regWrite s.reg s.val s)
  | .rd1 => completeRead (regRead s.reg s)
  | .sb1 => goto .sb2 (readTmp s.reg s)
  | .sb2 => complete .nothing (writeTmpOr s.reg s.val s)
  | .cb1 => goto .cb2 (readTmp s.reg s)
  | .cb2 => complete .nothing (writeTmpAndNot s.reg s.val s)
  | .c1Read => goto .c1Write (readTmp s.cfg.regCrcIrq s)
  | .c1Write => goto .c2Read (writeTmpAndNot s.cfg.regCrcIrq s.cfg.crcDoneBit s)
  | .c2Read => goto .c2Write (readTmp Config.REG_FIFO_LEVEL s)
  | .c2Write =>
    let t := writeTmpOr Config.REG_FIFO_LEVEL s.cfg.fifoFlushBit s
    goto (crcLoadPosition 0 t) t
  | .c3 i => loadByte i crcLoadPosition s
  | .c4 => goto .c5 (loadCrcBudget (issue Config.CMD_CALC_CRC s))
  | .c5 =>
    let t := pollRead s.cfg.regCrcIrq s
    goto (if crcPollDone t.cfg t.budget t.irq then .c6Lo else .c5) t
  | .c6Lo => goto .c6Hi (readCrcLo s)
  | .c6Hi => completeCrc (readCrcHi s)
  | .t2Enable => goto .t2ClearRead (enableIrqs s)
  | .t2ClearRead => goto .t2ClearWrite (readTmp Config.REG_COMM_IRQ s)
  | .t2ClearWrite => goto .t2FlushRead (writeTmpAndNot Config.REG_COMM_IRQ s.cfg.irqPendingBit s)
  | .t2FlushRead => goto .t2FlushWrite (readTmp Config.REG_FIFO_LEVEL s)
  | .t2FlushWrite => goto .t2Idle (writeTmpOr Config.REG_FIFO_LEVEL s.cfg.fifoFlushBit s)
  | .t2Idle => let t := issue s.cfg.cmdIdle s; goto (cardLoadPosition 0 t) t
  | .t3 i => loadByte i cardLoadPosition s
  | .t4Issue => let t := issue s.command s; goto (afterIssue t) t
  | .t4StartRead => goto .t4StartWrite (readTmp Config.REG_BIT_FRAMING s)
  | .t4StartWrite => goto .t5 (writeTmpOr Config.REG_BIT_FRAMING s.cfg.startSendBit s)
  | .t5 =>
    let t := pollRead Config.REG_COMM_IRQ s
    goto (if trxPollDone t.cfg t.budget t.irq then .t6Read else .t5) t
  | .t6Read => goto .t6Write (readTmp Config.REG_BIT_FRAMING s)
  | .t6Write => afterStop (writeTmpAndNot Config.REG_BIT_FRAMING s.cfg.startSendBit s)
  | .t7Error => afterError (readError s)
  | .t7Level => goto .t7Control (readLevel s)
  | .t7Control => goto (.t7Data 0) (readLastBits s)
  | .t7Data i => afterData i (readData i s)

/-- One step in the middle of an operation: one bus exchange. -/
def stepExchange (s : State) : Host.Outcome State Fault Refusal := outcome s (advance s)

/-- The request at the head of the queue is read in its format (R110, R113). -/
def fetch (r : Request) : Option Instr := decode r.format r.bytes

end Sys2Proof.Machine
end

