-- ==== Sys2Proof/Machine/Step.lean ====
section
/-! DEFINITION. One step. At REST the next request is fetched: by its grain, its operation runs to its end in this
step, or it is accepted and runs one bus exchange a step (log entry 1). With no request the engine rests and keeps
all its registers (R266). -/

namespace Sys2Proof.Machine

/-- A fetched instruction starts. At the grain of exchanges an operation is accepted, which is an event of its own
(R110); the rows that are no operation are one exchange at either grain. -/
def start (g : Grain) (i : Instr) (s : State) : Host.Outcome State Fault Refusal :=
  match g with
  | .operation => exec i s
  | .exchange => if isOperation i then .next (acceptOperation i s) else exec i s

/-- The step. -/
def step (s : State) : Host.Outcome State Fault Refusal :=
  match s.seq with
  | .rest =>
    match s.requests with
    | [] => .next s
    | r :: rest =>
      match fetch r with
      | none => .refused .noOperation
      | some i => start r.grain i { s with requests := rest }
  | _ => stepExchange s

/-- `s` with a table word at the head of the requests and the engine at REST, so that the next step runs it. -/
def State.withFetchWord (s : State) (nbits w : Nat) : State :=
  { s with
    seq := .rest
    requests := { format := tableFormat nbits w, bytes := tableBytes nbits w, grain := .operation } :: s.requests }

end Sys2Proof.Machine
end

