-- ==== Sys2Proof/Machine/HostSequences.lean ====
section
/-! DEFINITION. The host sequences above the block: Block I/O and Session API (44_host_sequences.md). They are not part
of the block (R6 d) and no step performs them; they are what the document's software does with the six operations
(log entry 21). -/

namespace Sys2Proof.Machine

/-- The four diagnostic lines (R6 g): an external logging sink. -/
inductive LogLine where
  | readError | writeRequestFailed | writeError | dataWritten
  deriving DecidableEq, Repr

/-- What a host sequence leaves: the machine, its value and its log lines. -/
structure HostRun (α : Type) where
  state : State
  value : α
  log : List LogLine

/-- Outcomes of host sequences: an operation that stops, stops the sequence. -/
abbrev HostOutcome (α : Type) := Host.Outcome (HostRun α) Fault Refusal

/-- One operation, then the rest of the sequence. -/
def andThen {α : Type} (o : Host.Outcome State Fault Refusal) (f : State → HostOutcome α) : HostOutcome α :=
  match o with
  | .next t => f t
  | .fault r => .fault r
  | .refused r => .refused r

/-- One host sequence, then another; log lines in order. -/
def thenRun {α β : Type} (o : HostOutcome α) (f : α → State → HostOutcome β) : HostOutcome β :=
  match o with
  | .next a =>
    match f a.value a.state with
    | .next b => .next { b with log := a.log ++ b.log }
    | .fault r => .fault r
    | .refused r => .refused r
  | .fault r => .fault r
  | .refused r => .refused r

/-! ## Block I/O -/

/-- Append the CRC16 of the payload, low byte first, and transceive (R68, R230, R291). The host reads the pair and the
record that the two completions hand over; they are the result registers at that moment (R158, R190). -/
def transceiveWithCrc (payload : List Byte) (s : State) : HostOutcome TransceiveResult :=
  andThen (exec (.crc payload) s) fun t =>
    andThen (exec (.tocard Config.CMD_TRANSCEIVE (payload ++ [t.crcLo, t.crcHi])) t) fun u =>
      .next { state := u, value := resultRecord u, log := [] }

/-- `readBlock` accepts status OK and exactly 16 bytes; the bit length is not examined (R230). -/
def readAccepted (r : TransceiveResult) : Bool := r.status == .ok && r.data.length == Config.BLOCK_LEN

/-- `readBlock(blockAddress)` (R230). -/
def readBlock (a : Byte) (s : State) : HostOutcome (Option (List Byte)) :=
  thenRun (transceiveWithCrc [Config.TAG_READ, a] s) fun r t =>
    if readAccepted r then .next { state := t, value := some r.data, log := [] }
    else .next { state := t, value := none, log := [.readError] }

/-- How a block write ended (R232, R233). -/
inductive WriteVerdict where
  | requestFailed | dataFailed | written
  deriving DecidableEq, Repr

/-- Phase 1 passes on status OK and the single byte 0x0A (R232, D29). -/
def requestAcknowledged (r : TransceiveResult) : Bool := r.status == .ok && r.data == [Config.ACK]

/-- Phase 2 passes on status OK and a first byte 0x0A (R233, D29). -/
def dataAcknowledged (r : TransceiveResult) : Bool := r.status == .ok && r.data.head? == some Config.ACK

/-- "Truncate/pad `data` to exactly 16 bytes" (R233). -/
def padBlock (pad : Byte) (data : List Byte) : List Byte :=
  (data ++ List.replicate Config.BLOCK_LEN pad).take Config.BLOCK_LEN

/-- Phase 2 of `writeBlock` (R233). -/
def writeData (data : List Byte) (s : State) : HostOutcome WriteVerdict :=
  thenRun (transceiveWithCrc (padBlock s.cfg.padByte data) s) fun r t =>
    if dataAcknowledged r then .next { state := t, value := .written, log := [.dataWritten] }
    else .next { state := t, value := .dataFailed, log := [.writeError] }

/-- `writeBlock(blockAddress, data)`: both phases in sequence, no retry and no rollback (R232 to R234). -/
def writeBlock (a : Byte) (data : List Byte) (s : State) : HostOutcome WriteVerdict :=
  thenRun (transceiveWithCrc [Config.TAG_WRITE, a] s) fun r t =>
    if requestAcknowledged r then writeData data t
    else .next { state := t, value := .requestFailed, log := [.writeRequestFailed] }

/-! ## Session API -/

/-- `init` writes each initialization-only register once, in the document's order; the values are not given (R235,
log entry 20). -/
def initWrites : List Byte → State → HostOutcome Unit
  | [], s => .next { state := s, value := (), log := [] }
  | reg :: rest, s => andThen (exec (.wr reg (Config.initVal reg)) s) (initWrites rest)

/-- The antenna step: set both TX-enable bits unless both are set (R236, D28). -/
def antennaStep (s : State) : HostOutcome Unit :=
  andThen (exec (.rd Config.REG_TX_CONTROL) s) fun t =>
    if t.rdata &&& Config.TX_EN_BITS = Config.TX_EN_BITS then .next { state := t, value := (), log := [] }
    else
      andThen (exec (.setb Config.REG_TX_CONTROL Config.TX_EN_BITS) t) fun u =>
        .next { state := u, value := (), log := [] }

/-- `init()`: chip-select idle-high, soft reset, the six configuration writes, the antenna step (R235, R284). The bus
configuration is the transport's. -/
def initSession (s : State) : HostOutcome Unit :=
  andThen (exec (.wr Config.REG_COMMAND Config.CMD_SOFT_RESET) { s with cs := .high }) fun t =>
    thenRun (initWrites Config.INIT_ONLY_REGS t) fun _ u => antennaStep u

/-- The ASCII space `writeText` pads with (R237). -/
abbrev space : Byte := 0x20

/-- The text padded with spaces to exactly 48 bytes, cut at 48 (R237). -/
def padText (text : List Byte) : List Byte := (text ++ List.replicate 48 space).take 48

/-- One block write for each block address, each with the next 16 bytes (R237). A chunk's verdict is not
aggregated. -/
def writeChunks : List Byte → List Byte → State → HostOutcome Unit
  | [], _, s => .next { state := s, value := (), log := [] }
  | a :: rest, text, s =>
    thenRun (writeBlock a (text.take Config.BLOCK_LEN) s) fun _ t =>
      writeChunks rest (text.drop Config.BLOCK_LEN) t

/-- `writeText(text)`, the text as its bytes (R237). -/
def writeText (text : List Byte) (s : State) : HostOutcome Unit :=
  writeChunks Config.BLOCKS (padText text) s

/-- The blocks read in order, failed ones skipped (R238). -/
def readChunks : List Byte → State → HostOutcome (List Byte)
  | [], s => .next { state := s, value := [], log := [] }
  | a :: rest, s =>
    thenRun (readBlock a s) fun v t =>
      thenRun (readChunks rest t) fun more u =>
        .next { state := u, value := v.getD [] ++ more, log := [] }

/-- White space of `readText`: the ASCII space and the ASCII controls tab to carriage return (PRESUMED; log entry
21). -/
def isWhiteSpace (b : Byte) : Bool := b == space || (0x09 ≤ b && b ≤ 0x0D)

/-- Trim trailing white space (R238). -/
def trimEnd (text : List Byte) : List Byte := (text.reverse.dropWhile isWhiteSpace).reverse

/-- `readText()`, the text as its bytes (R238). -/
def readText (s : State) : HostOutcome (List Byte) :=
  thenRun (readChunks Config.BLOCKS s) fun text t =>
    .next { state := t, value := trimEnd text, log := [] }

end Sys2Proof.Machine
end

