-- ==== Sys2Proof/Safety.lean ====
section
/-! DEFINITION. What counts as a safe run, and the words claims are stated in: the answers the unconstrained chip
will give, the invariant of the machine, and what an operation may touch. -/

namespace Sys2Proof.Machine

/-! ## The unconstrained chip's answers (R16, R80) -/

/-- The answer the unconstrained chip gives to read number `k` from here, counting from 0: the supplied one, or a
free value. -/
def State.answer (s : State) (k : Nat) : Byte :=
  s.oracle[k]?.getD (Config.freeByte (s.draws + (k - s.oracle.length)))

/-- The first `k` answers. -/
def State.answers (s : State) (k : Nat) : List Byte := (List.range k).map s.answer

/-- The state after `k` answers were taken, all else as it was. -/
def State.took (k : Nat) (s : State) : State :=
  { s with oracle := s.oracle.drop k, draws := s.draws + (k - s.oracle.length) }

/-- `count` read exchanges of a register, answered from answer number `k` on. -/
def State.reads (s : State) (reg : Byte) (k count : Nat) : List Event :=
  (List.range count).map fun j => Event.R s.cfg reg (s.answer (k + j))

/-- `p` is the number of reads of a poll loop whose first read gets answer number `k`: the index of the first answer
that hits, or the budget when none of the first `budget` answers does (R156, R182). -/
structure PollReads (hit : Byte → Bool) (s : State) (k budget p : Nat) : Prop where
  atLeastOne : 1 ≤ p
  atMostBudget : p ≤ budget
  noneBefore : ∀ j, j + 1 < p → hit (s.answer (k + j)) = false
  ends : p = budget ∨ hit (s.answer (k + p - 1)) = true

/-! ## Chip registers after exchanges (R63, R57) -/

/-- One event's effect on what is known of the chip registers: a write exchange stores its byte, and a soft reset
leaves nothing known. -/
def Memory.afterEvent (m : Memory) : Event → Memory
  | .request _ => m
  | .write first v =>
    if addressOnWire first = chipAddr Config.REG_COMMAND ∧ v = Config.CMD_SOFT_RESET then []
    else Memory.write m (addressOnWire first).toNat v
  | .read _ _ _ => m
  | .complete _ => m

/-- The effect of events in order. -/
def Memory.after (m : Memory) (h : List Event) : Memory := h.foldl Memory.afterEvent m

/-- What is known of chip register `a` once `v` was stored at `b`: the byte there, every other register as before, and
nothing of any register after a soft reset (R57). -/
def State.afterStore (s : State) (b : RegAddr) (v : Byte) (a : RegAddr) : Option Byte :=
  if b = chipAddr Config.REG_COMMAND ∧ v = Config.CMD_SOFT_RESET then none
  else if a = b then some v else s.regByte a

/-! ## The invariant -/

/-- Where a per-byte position stands: inside the bytes it counts (R36); and step 7 runs only after a poll that was
not exhausted (R184). -/
def positionInside (s : State) : Bool :=
  match s.seq with
  | .c3 i => i < s.send.length
  | .t3 i => i < s.send.length
  | .t7Error => s.budget != 0
  | .t7Level => s.budget != 0
  | .t7Control => s.budget != 0
  | .t7Data i => s.budget != 0 && i < s.n
  | _ => true

/-- Whether SimChip's FIFO keeps the bound of R89; no other chip has one. -/
def Chip.fits (cap : Nat) : Chip → Bool
  | .unconstrained => true
  | .sim c => c.fifo.length ≤ cap
  | .stuck => true

/-- The invariant of the machine: the chip register space in canonical form; chip-select high between steps (R33,
R62); `E.n` 1 to 16 (R25), `E.dataLen` 0 to 16 (R31); `E.lastBits` inside its mask (R26); the bit length at most 128
where the parameters bound it (R32); the budget in 16 bits where the parameters fit (R27); the position inside
its step (R36); SimChip's FIFO inside its capacity (R89). -/
structure State.Inv (s : State) : Prop where
  regs : Memory.wf s.regs = true
  cs : s.cs = .high
  nLow : 1 ≤ s.n
  nHigh : s.n ≤ 16
  dataLen : s.dataLen ≤ 16
  lastBits : s.lastBits &&& ~~~ s.cfg.lastBitsMask = 0
  bitLength : s.cfg.lastBitsFit → s.cfg.bitlenFromClamped = true → s.bitLength ≤ 128
  budget : s.cfg.wf → s.budget < 2 ^ 16
  position : positionInside s = true
  fifo : s.chip.fits s.cfg.fifoCap = true

/-! ## Safe runs -/

/-- A step is safe when it goes on: no fault, no refusal. -/
def goesOn (o : Host.Outcome State Fault Refusal) : Bool :=
  match o with
  | .next _ => true
  | .fault _ => false
  | .refused _ => false

/-! ## Traces of the two long operations, as the pseudocode of R150 and R170 lists them -/

/-- Step 2 of `toCard` with the answers `irq` and `level` of its two reads (R173 to R175). -/
def cardPrepareTrace (cfg : Config.Params) (irq level : Byte) : List Event :=
  [Event.W Config.REG_COMM_IEN (Config.IRQ_EN_MASK ||| cfg.globalIenBit),
    Event.R cfg Config.REG_COMM_IRQ irq, Event.W Config.REG_COMM_IRQ (irq &&& ~~~ cfg.irqPendingBit),
    Event.R cfg Config.REG_FIFO_LEVEL level, Event.W Config.REG_FIFO_LEVEL (level ||| cfg.fifoFlushBit),
    Event.W Config.REG_COMMAND cfg.cmdIdle]

/-- Step 4 of `toCard` with the answer of its read, if it has one (R178, R180). -/
def cardIssueTrace (cfg : Config.Params) (command framing : Byte) : List Event :=
  Event.W Config.REG_COMMAND command ::
    if command = Config.CMD_TRANSCEIVE then
      [Event.R cfg Config.REG_BIT_FRAMING framing, Event.W Config.REG_BIT_FRAMING (framing ||| cfg.startSendBit)]
    else []

/-- Step 6 of `toCard` (R189). -/
def cardStopTrace (cfg : Config.Params) (framing : Byte) : List Event :=
  [Event.R cfg Config.REG_BIT_FRAMING framing, Event.W Config.REG_BIT_FRAMING (framing &&& ~~~ cfg.startSendBit)]

/-- How many reads `toCard` performs before its poll: two in step 2, one more for the transceive command. -/
def readsBeforePoll (command : Byte) : Nat := if command = Config.CMD_TRANSCEIVE then 3 else 2

/-- Steps 2 to 6 of `toCard` with `p` poll reads. -/
def cardTrace (s : State) (command : Byte) (sendData : List Byte) (p : Nat) : List Event :=
  cardPrepareTrace s.cfg (s.answer 0) (s.answer 1) ++ sendData.map (Event.W Config.REG_FIFO_DATA) ++
    cardIssueTrace s.cfg command (s.answer 2) ++ s.reads Config.REG_COMM_IRQ (readsBeforePoll command) p ++
    cardStopTrace s.cfg (s.answer (readsBeforePoll command + p))

/-- The exchanges of `computeCRC` with `p` poll reads (R150 to R158). -/
def crcTrace (s : State) (data : List Byte) (p : Nat) : List Event :=
  [Event.R s.cfg s.cfg.regCrcIrq (s.answer 0), Event.W s.cfg.regCrcIrq (s.answer 0 &&& ~~~ s.cfg.crcDoneBit),
    Event.R s.cfg Config.REG_FIFO_LEVEL (s.answer 1),
    Event.W Config.REG_FIFO_LEVEL (s.answer 1 ||| s.cfg.fifoFlushBit)] ++
    data.map (Event.W Config.REG_FIFO_DATA) ++ [Event.W Config.REG_COMMAND Config.CMD_CALC_CRC] ++
    s.reads s.cfg.regCrcIrq 2 p ++
    [Event.R s.cfg s.cfg.regCrcResultLo (s.answer (p + 2)), Event.R s.cfg s.cfg.regCrcResultHi (s.answer (p + 3))]

end Sys2Proof.Machine
end

