-- ==== Sys2Proof/Certificates/Slice0/Obligations.lean ====
section
/-! DEFINITION. The statements for the provers. A statement over the unconstrained chip holds for every sequence of
answers: `s.answer k` is the k-th answer the chip gives from `s`, whatever it is (R80, log entry 3). -/

open Sys2Proof Sys2Proof.Machine

/-! ## Encoding -/

/-- Words written out bit by bit from R100, R101, R111, R106 and R112 decode to what they stand for. That a request is laid out
as bytes, and that a word is read in its format, is the model's choice (log entries 7 and 8). -/
def Obligations.WrittenOutWordsDecode : Prop :=
  decode .busFrame [0b00010010, 0b11111111] = some (.busWr 0x09 0xFF) ∧
  decode .busFrame [0b10001100, 0b00000000] = some (.busRd 0x06 0x00) ∧
  decode .hostRequest [0b00000000, 0x01, 0x0C, 0x00] = some (.wr 0x01 0x0C) ∧
  decode .hostRequest [0b00000011, 0x0D, 0x80, 0x00] = some (.clrb 0x0D 0x80) ∧
  decode .hostRequest [0b00000101, 0x0C, 0x00, 0x02, 0x30, 0x04] = some (.tocard 0x0C [0x30, 0x04]) ∧
  decode .chipCommand [0b00001100] = some .cmdTransceive ∧
  decode .tagOpcode [0b10100000] = some .tagWrite

/-- Decoding an encoded well-formed instruction, in its format, gives it back (the formats and the byte layout of a request
are the model's choice, log entries 7 and 8). -/
def Obligations.DecodeOfEncodeIsTheInstruction : Prop :=
  ∀ i : Instr, i.wellFormed = true → decode i.format (encode i) = some i

/-- Whatever the bytes, a decoded instruction is well-formed and belongs to the format it was read in. -/
def Obligations.DecodedInstructionIsWellFormed : Prop :=
  ∀ (f : Format) (bytes : List Byte) (i : Instr), decode f bytes = some i → i.wellFormed = true ∧ i.format = f

/-- R113: op-select 6 and 7 name no operation; the step refuses such a request at either grain. -/
def Obligations.ReservedOpSelectIsRefused : Prop :=
  ∀ (s : State) (op a b len : Byte) (payload : List Byte) (g : Grain) (rest : List Request),
    op = 6 ∨ op = 7 → s.seq = .rest → s.requests = ⟨.hostRequest, op :: a :: b :: len :: payload, g⟩ :: rest →
    step s = .refused .noOperation

/-- R100: a write frame is the byte `(reg << 1) & 0x7E`, bit 7 clear, bits 6 to 1 `reg[5:0]`, bit 0 clear, and then the value;
both as the row BUS_WR encodes it and as WR puts it on the wire. -/
def Obligations.WriteFrameLaysOutTheAddressBits : Prop :=
  ∀ (reg v : Byte),
    encode (.busWr (chipAddr reg) v) = [(reg <<< 1) &&& 0x7E, v] ∧ Event.W reg v = .write ((reg <<< 1) &&& 0x7E) v ∧
    ((reg <<< 1) &&& 0x7E).getLsbD 7 = false ∧ ((reg <<< 1) &&& 0x7E).getLsbD 0 = false ∧
    ∀ i, i < 6 → ((reg <<< 1) &&& 0x7E).getLsbD (i + 1) = reg.getLsbD i

/-- R102, R70: `reg` and `reg & 0x3F` give the same address byte, bit 0 is always 0, bit 7 is the read flag, and the
chip sees `reg[5:0]`. -/
def Obligations.AddressByteKeepsSixBits : Prop :=
  ∀ reg : Byte,
    writeAddressByte reg = writeAddressByte (reg &&& 0x3F) ∧ readAddressByte reg = readAddressByte (reg &&& 0x3F) ∧
    (writeAddressByte reg).getLsbD 0 = false ∧ (readAddressByte reg).getLsbD 0 = false ∧
    (writeAddressByte reg).getLsbD 7 = false ∧ (readAddressByte reg).getLsbD 7 = true ∧
    addressOnWire (writeAddressByte reg) = chipAddr reg ∧ addressOnWire (readAddressByte reg) = chipAddr reg

/-! ## The step -/

/-- At REST a request at the grain of operations is decoded, taken off the queue, and executed. That an operation can be one
step, where R62 makes the exchange the step, and that requests wait in a queue, is the model's choice (log entries 1 and 7). -/
def Obligations.StepRunsTheDecodedInstruction : Prop :=
  ∀ (s : State) (f : Format) (bytes : List Byte) (rest : List Request) (i : Instr),
    s.seq = .rest → s.requests = ⟨f, bytes, .operation⟩ :: rest → decode f bytes = some i →
    step s = exec i { s with requests := rest }

/-- At REST a request of an operation at the grain of exchanges is decoded, taken off the queue, and accepted: an event of
its own (R110), with no exchange yet, which latches the operands that the operation's signature names (R21). The grain and the
queue are the model's choice (log entries 1 and 7). -/
def Obligations.StepAcceptsAtTheGrainOfExchanges : Prop :=
  ∀ (s : State) (f : Format) (bytes : List Byte) (rest : List Request) (i : Instr),
    s.seq = .rest → s.requests = ⟨f, bytes, .exchange⟩ :: rest → decode f bytes = some i → isOperation i = true →
    step s = .next (acceptOperation i { s with requests := rest }) ∧
    (acceptOperation i { s with requests := rest }).seq ≠ .rest ∧
    (acceptOperation i { s with requests := rest }).history = s.history ++ [.request i] ∧
    (acceptOperation i { s with requests := rest }).regs = s.regs ∧
    ∀ t, step s = .next t →
      (∀ reg value, i = .wr reg value → t.op = .wr ∧ t.reg = reg ∧ t.val = value) ∧
      (∀ reg, i = .rd reg → t.op = .rd ∧ t.reg = reg) ∧
      (∀ reg mask, i = .setb reg mask → t.op = .setb ∧ t.reg = reg ∧ t.val = mask) ∧
      (∀ reg mask, i = .clrb reg mask → t.op = .clrb ∧ t.reg = reg ∧ t.val = mask) ∧
      (∀ data, i = .crc data → t.op = .crc ∧ t.send = data) ∧
      (∀ command sendData, i = .tocard command sendData →
        t.op = .tocard ∧ t.command = command ∧ t.send = sendData)

/-- A table word that the decoder reads as `i`, placed where the step fetches, runs `i` in the next step (the queue of
requests and the format of a table word are the model's choice, log entries 7 and 8). -/
def Obligations.FetchWordRunsTheTableWord : Prop :=
  ∀ (s : State) (nbits w : Nat) (i : Instr), decodeTableWord nbits w = some i →
    step (s.withFetchWord nbits w) = exec i { s with seq := .rest }

/-- R266: at REST with no request the engine keeps all its registers (that the step then leaves the whole state as it is, is
the model's choice, log entry 7). -/
def Obligations.RestingEngineKeepsItsState : Prop :=
  ∀ s : State, s.seq = .rest → s.requests = [] → step s = .next s

/-- R78, R286: in the middle of an operation every request and every other bus master is refused. -/
def Obligations.BusyEngineRefusesEveryInstruction : Prop :=
  ∀ (i : Instr) (s : State), s.seq ≠ .rest → exec i s = .refused .notAtRest

/-- R62, R77: inside an operation a step that goes on performs exactly one bus exchange, appended to the history; after it
the history has at most the completion of the operation. -/
def Obligations.MidOperationStepIsOneExchange : Prop :=
  ∀ s t : State, s.Inv → s.seq ≠ .rest → step s = .next t →
    ∃ e more, e.isExchange = true ∧ (more = [] ∨ ∃ r, more = [.complete r]) ∧ t.history = s.history ++ e :: more

/-- R62, R118: from the state after acceptance, some number of steps reaches exactly the outcome the operation has as a whole,
whichever chip answers: the same next state, or SimChip's stop. The two grains that it compares are the model's choice (log
entry 1). (That each of these steps is one exchange is
`MidOperationStepIsOneExchange`.) -/
def Obligations.ExchangeStepsRunTheWholeOperation : Prop :=
  ∀ (i : Instr) (s : State), isOperation i = true → s.seq = .rest →
    ∃ k, Host.Core.run Sys2Proof.core k (acceptOperation i s) = exec i s

/-- R21, R84: inside an operation the operand latches keep their values, whatever happens. -/
def Obligations.LatchesKeepTheirValuesInsideAnOperation : Prop :=
  ∀ s t : State, s.seq ≠ .rest → step s = .next t →
    t.op = s.op ∧ t.reg = s.reg ∧ t.val = s.val ∧ t.command = s.command ∧ t.send = s.send ∧
      t.requests = s.requests

/-! ## Reset and invariant -/

/-- R56, R280: after reset the engine is at REST; R80: every answer is unconstrained. That chip-select is high is a launch
premise only (R56; log entry 5), and that the register space starts with nothing listed is how the model holds that R57 gives no
chip register a value (log entry 6). -/
def Obligations.ResetRestsWithChipSelectHigh : Prop :=
  State.reset.seq = .rest ∧ State.reset.cs = .high ∧ State.reset.chip = .unconstrained ∧
    ∀ a : RegAddr, State.reset.regByte a = none

/-- The invariant holds after reset. The values of `E.n`, `E.dataLen`, `E.lastBits`, `E.bitLength` and `E.budget` at reset are
the model's choice (log entry 4), and chip-select high is a launch premise (log entry 5): R56 gives the registers no value. -/
def Obligations.ResetMeetsTheInvariant : Prop := State.reset.Inv

/-- Every step keeps the invariant, whichever chip answers. -/
def Obligations.StepKeepsTheInvariant : Prop :=
  ∀ s t : State, s.Inv → step s = .next t → t.Inv

/-- R20: the parameters are no state; no step changes them. -/
def Obligations.StepKeepsTheParameters : Prop :=
  ∀ s t : State, step s = .next t → t.cfg = s.cfg

/-- R77, R86: the event history only grows; nothing performed is reordered or lost. -/
def Obligations.HistoryOnlyGrows : Prop :=
  ∀ s t : State, step s = .next t → s.history <+: t.history

/-- R61, R250: with the unconstrained chip no step faults, and the chip stays unconstrained. -/
def Obligations.UnconstrainedChipNeverFaults : Prop :=
  ∀ s : State, s.chip = .unconstrained →
    (∀ r, step s ≠ .fault r) ∧ ∀ t, step s = .next t → t.chip = .unconstrained

/-! ## Register access -/

/-- WR (R130): its request row, its one step label, its wire bytes, and the whole next state: one write exchange, and
nothing else of the engine changes but the latches. The chip register written holds the byte and every other is as before; a
soft reset leaves none known (R57). The model's choice are the bytes of the request row (log entry 7), what is known of chip
registers (log entry 6), and that `E.command` and `E.send`, which the signature does not name, stay (log entry 26). -/
def Obligations.WrPerformsOneWriteExchange : Prop :=
  ∀ (reg value : Byte) (s : State), s.seq = .rest → s.chip = .unconstrained →
    decode .hostRequest [0, reg, value, 0] = some (.wr reg value) ∧
    (acceptOperation (.wr reg value) s).seq.label = some .WR1 ∧
    Event.W reg value = .write ((reg <<< 1) &&& 0x7E) value ∧
    exec (.wr reg value) s = .next
      { s with
        op := .wr
        reg := reg
        val := value
        seq := .rest
        cs := .high
        regs := Memory.after s.regs [Event.W reg value]
        history := s.history ++ [.request (.wr reg value), Event.W reg value, .complete .nothing] }

/-- RD (R132): its request row, its one step label, its wire bytes, and the whole next state: one read exchange; the answer is
in `E.rdata` and is the result. The model's choice are the bytes of the request row (log entry 7), the latch `rx` (log entry 9),
and that `E.val`, `E.command` and `E.send`, which the signature does not name, stay (log entry 26). -/
def Obligations.RdReturnsTheAnswer : Prop :=
  ∀ (reg : Byte) (s : State), s.seq = .rest → s.chip = .unconstrained →
    decode .hostRequest [1, reg, 0, 0] = some (.rd reg) ∧
    (acceptOperation (.rd reg) s).seq.label = some .RD1 ∧
    Event.R s.cfg reg (s.answer 0) = .read ((reg <<< 1) &&& 0x7E ||| 0x80) s.cfg.readDummy (s.answer 0) ∧
    exec (.rd reg) s = .next
      { s.took 1 with
        op := .rd
        reg := reg
        rdata := s.answer 0
        rx := s.answer 0
        seq := .rest
        cs := .high
        history := s.history ++
          [.request (.rd reg), Event.R s.cfg reg (s.answer 0), .complete (.byte (s.answer 0))] }

/-- SETB (R134): its request row, its two step labels, and the whole next state: a read exchange, then always a write exchange
of the answer OR the mask. The model's choice are the bytes of the request row (log entry 7), what is known of chip registers (log entry
6), the latch `rx` (log entry 9), and that `E.command` and `E.send`, which the signature does not name, stay (log entry 26). -/
def Obligations.SetbWritesTheAnswerOrMask : Prop :=
  ∀ (reg mask : Byte) (s : State), s.seq = .rest → s.chip = .unconstrained →
    decode .hostRequest [2, reg, mask, 0] = some (.setb reg mask) ∧
    (acceptOperation (.setb reg mask) s).seq.label = some .SB1 ∧
    (∃ u, step (acceptOperation (.setb reg mask) s) = .next u ∧ u.seq.label = some .SB2) ∧
    exec (.setb reg mask) s = .next
      { s.took 1 with
        op := .setb
        reg := reg
        val := mask
        tmp := s.answer 0
        rx := s.answer 0
        seq := .rest
        cs := .high
        regs := Memory.after s.regs [Event.W reg (s.answer 0 ||| mask)]
        history := s.history ++
          [.request (.setb reg mask), Event.R s.cfg reg (s.answer 0), Event.W reg (s.answer 0 ||| mask),
            .complete .nothing] }

/-- CLRB (R136): its request row, its two step labels, and the whole next state: a read exchange, then always a write exchange
of the answer AND the mask's complement. The model's choice are the bytes of the request row (log entry 7), what is known of chip registers (log entry
6), the latch `rx` (log entry 9), and that `E.command` and `E.send`, which the signature does not name, stay (log entry 26). -/
def Obligations.ClrbWritesTheAnswerAndNotMask : Prop :=
  ∀ (reg mask : Byte) (s : State), s.seq = .rest → s.chip = .unconstrained →
    decode .hostRequest [3, reg, mask, 0] = some (.clrb reg mask) ∧
    (acceptOperation (.clrb reg mask) s).seq.label = some .CB1 ∧
    (∃ u, step (acceptOperation (.clrb reg mask) s) = .next u ∧ u.seq.label = some .CB2) ∧
    exec (.clrb reg mask) s = .next
      { s.took 1 with
        op := .clrb
        reg := reg
        val := mask
        tmp := s.answer 0
        rx := s.answer 0
        seq := .rest
        cs := .high
        regs := Memory.after s.regs [Event.W reg (s.answer 0 &&& ~~~ mask)]
        history := s.history ++
          [.request (.clrb reg mask), Event.R s.cfg reg (s.answer 0), Event.W reg (s.answer 0 &&& ~~~ mask),
            .complete .nothing] }

/-! ## Bus frames, chip commands, tag opcodes -/

/-- BUS_WR and BUS_RD (R100, R101, R63, R64): one exchange with the frame's own bytes; a read receives the answer. That
a frame is an instruction of its own, and the latch `rx`, are the model's choice (log entry 9), and so is what is known of chip
registers (log entry 6). -/
def Obligations.BusFramesPerformOneExchange : Prop :=
  ∀ (a : RegAddr) (b : Byte) (s : State), s.seq = .rest → s.chip = .unconstrained →
    exec (.busWr a b) s = .next
      { s with
        cs := .high
        regs := Memory.after s.regs [.write (writeFrameByte a) b]
        history := s.history ++ [.write (writeFrameByte a) b] } ∧
    exec (.busRd a b) s = .next
      { s.took 1 with
        cs := .high
        rx := s.answer 0
        history := s.history ++ [.read (readFrameByte a) b (s.answer 0)] }

/-- CMD_IDLE, CMD_CALC_CRC, CMD_TRANSCEIVE, CMD_SOFT_RESET (R210 to R214): each is the one write exchange
`W(REG_COMMAND, c)`, and changes no engine register. That a command is an instruction of its own is the model's choice
(log entry 10), and so is what is known of chip registers, emptied by a soft reset (log entry 6). -/
def Obligations.ChipCommandsWriteTheCommandRegister : Prop :=
  ∀ (i : Instr) (c : Byte) (s : State), s.seq = .rest → s.chip = .unconstrained →
    (i, c) ∈ [(Instr.cmdIdle, s.cfg.cmdIdle), (.cmdCalcCrc, 0x03), (.cmdTransceive, 0x0C), (.cmdSoftReset, 0x0F)] →
    exec i s = .next
      { s with
        cs := .high
        regs := Memory.after s.regs [Event.W 0x01 c]
        history := s.history ++ [Event.W 0x01 c] }

/-- TAG_READ, TAG_WRITE (R216, R217): a payload byte written to REG_FIFO_DATA. That the row is this exchange is the
model's reading (log entry 11), and what is known of chip registers is its choice (log entry 6). -/
def Obligations.TagOpcodesEnterTheFifo : Prop :=
  ∀ (i : Instr) (c : Byte) (s : State), s.seq = .rest → s.chip = .unconstrained →
    (i, c) ∈ [(Instr.tagRead, (0x30 : Byte)), (.tagWrite, 0xA0)] →
    exec i s = .next
      { s with
        cs := .high
        regs := Memory.after s.regs [Event.W 0x09 c]
        history := s.history ++ [Event.W 0x09 c] }

/-! ## computeCRC -/

/-- CRC (R150 to R158): the six steps with `p` poll reads, the whole next state. C1 and C2 as read and write, and the loop's
shape, are the spec's own decisions (D5, D10; log entry 14). The model's choice are that `E.reg`, `E.val` and `E.command` stay
(log entry 26), what is known of chip registers (log entry 6), and the latch `rx` (log entry 9). -/
def Obligations.CrcRunsItsSixSteps : Prop :=
  ∀ (data : List Byte) (s : State) (p : Nat), s.seq = .rest → s.chip = .unconstrained →
    PollReads (fun v => v &&& s.cfg.crcDoneBit != 0) s 2 s.cfg.pollBudgetCrc p →
    exec (.crc data) s = .next
      { s.took (p + 4) with
        op := .crc
        send := data
        tmp := s.answer 1
        irq := s.answer (p + 1)
        budget := s.cfg.pollBudgetCrc - p
        crcLo := s.answer (p + 2)
        crcHi := s.answer (p + 3)
        rx := s.answer (p + 3)
        seq := .rest
        cs := .high
        regs := Memory.after s.regs (crcTrace s data p)
        history := s.history ++ [.request (.crc data)] ++ crcTrace s data p ++
          [.complete (.pair (s.answer (p + 2)) (s.answer (p + 3)))] }

/-- CRC completes whatever the chip answers, after `L + p + 7` exchanges with `1 ≤ p ≤ POLL_BUDGET_CRC` (R150, R156,
R157). -/
def Obligations.CrcAlwaysCompletes : Prop :=
  ∀ (data : List Byte) (s : State), s.seq = .rest → s.chip = .unconstrained → s.cfg.wf →
    ∃ p t, 1 ≤ p ∧ p ≤ s.cfg.pollBudgetCrc ∧ exec (.crc data) s = .next t ∧ t.seq = .rest ∧
      (exchanges t.history).length = (exchanges s.history).length + data.length + p + 7

/-! ## toCard -/

/-- TOCARD, step 1 (R172): at acceptance the operands are latched, the status is ERROR, the data empty, the bit length 0
and the budget full; no exchange is performed and nothing else changes. That step 1 resets exactly these four is the spec's own
reading (D15; log entry 14); that `E.reg`, `E.val` and the data bytes stay is the model's choice (log entries 26 and 25). -/
def Obligations.AcceptingTocardResetsTheResult : Prop :=
  ∀ (command : Byte) (sendData : List Byte) (s : State),
    acceptOperation (.tocard command sendData) s =
      { s with
        op := .tocard
        command := command
        send := sendData
        status := .error
        dataLen := 0
        bitLength := 0
        budget := s.cfg.pollBudgetTrx
        seq := .t2Enable
        history := s.history ++ [.request (.tocard command sendData)] }

/-- TOCARD, exhausted poll (R183, R184, R189, R190): the first timer or wait bit comes on the last permitted read or not
at all; start-send is cleared, nothing more is read, and the result is ERROR with empty data and length 0. That a flag on the last
permitted read counts as exhausted is the spec's own decision (D10; log entry 14). The model's choice are that
`E.reg`, `E.val` and the data bytes above the drain stay (log entries 26 and 25), what is known of chip registers (log entry 6),
and the latch `rx` (log entry 9). -/
def Obligations.TocardExhaustedReturnsError : Prop :=
  ∀ (command : Byte) (sendData : List Byte) (s : State) (k p : Nat), s.seq = .rest → s.chip = .unconstrained →
    k = readsBeforePoll command → PollReads (trxSignalled s.cfg) s k s.cfg.pollBudgetTrx p →
    p = s.cfg.pollBudgetTrx →
    exec (.tocard command sendData) s = .next
      { s.took (k + p + 1) with
        op := .tocard
        command := command
        send := sendData
        tmp := s.answer (k + p)
        irq := s.answer (k + p - 1)
        budget := 0
        rx := s.answer (k + p)
        status := .error
        dataLen := 0
        bitLength := 0
        seq := .rest
        cs := .high
        regs := Memory.after s.regs (cardTrace s command sendData p)
        history := s.history ++ [.request (.tocard command sendData)] ++ cardTrace s command sendData p ++
          [.complete (.card ⟨.error, [], 0⟩)] }

/-- TOCARD, signalled poll without a drain (R184, R185, R186): a command other than transceive, or an error with
DRAIN_ON_ERROR false. The error register is read once and decides the status with the last polled value, which is the spec's own
decision (D11; log entry 14). The model's choice are that
`E.reg`, `E.val` and the data bytes above the drain stay (log entries 26 and 25), what is known of chip registers (log entry 6),
and the latch `rx` (log entry 9). -/
def Obligations.TocardSignalledWithoutDrain : Prop :=
  ∀ (command : Byte) (sendData : List Byte) (s : State) (k p : Nat) (status : Status),
    s.seq = .rest → s.chip = .unconstrained →
    k = readsBeforePoll command → PollReads (trxSignalled s.cfg) s k s.cfg.pollBudgetTrx p →
    p < s.cfg.pollBudgetTrx →
    (command ≠ 0x0C ∨ s.cfg.drainOnError = false ∧ s.answer (k + p + 1) &&& 0x1B ≠ 0) →
    status = (if s.answer (k + p + 1) &&& 0x1B ≠ 0 then .error
      else if s.answer (k + p - 1) &&& 0x77 &&& s.cfg.timerIrqBit ≠ 0 then .timeout else .ok) →
    exec (.tocard command sendData) s = .next
      { s.took (k + p + 2) with
        op := .tocard
        command := command
        send := sendData
        tmp := s.answer (k + p)
        irq := s.answer (k + p - 1)
        err := s.answer (k + p + 1)
        budget := s.cfg.pollBudgetTrx - p
        rx := s.answer (k + p + 1)
        status := status
        dataLen := 0
        bitLength := 0
        seq := .rest
        cs := .high
        regs := Memory.after s.regs (cardTrace s command sendData p)
        history := s.history ++ [.request (.tocard command sendData)] ++ cardTrace s command sendData p ++
          [Event.R s.cfg 0x06 (s.answer (k + p + 1)), .complete (.card ⟨status, [], 0⟩)] }

/-- TOCARD, signalled poll with a drain (R184 to R188, R190, R192): the transceive command with no error bit, or with
DRAIN_ON_ERROR. `n` bytes are read, `n` the level clamped to 1 to 16, after the level and the control register; under
BITLEN_FROM_CLAMPED the bit length is `(n-1)*8 + count`, or `n*8` for a count of 0. The whole level byte as the count and the last polled value in the status are the
spec's own decisions (D14, D11; log entry 14). The model's choice are that
`E.reg`, `E.val` and the data bytes above the drain stay (log entries 26 and 25), what is known of chip registers (log entry 6),
and the latch `rx` (log entry 9). -/
def Obligations.TocardSignalledWithDrain : Prop :=
  ∀ (sendData : List Byte) (s : State) (p n count : Nat) (status : Status),
    s.seq = .rest → s.chip = .unconstrained →
    PollReads (trxSignalled s.cfg) s 3 s.cfg.pollBudgetTrx p → p < s.cfg.pollBudgetTrx →
    (s.cfg.drainOnError = true ∨ s.answer (p + 4) &&& 0x1B = 0) → s.cfg.bitlenFromClamped = true →
    n = max 1 (min 16 (s.answer (p + 5)).toNat) →
    count = (s.answer (p + 6) &&& s.cfg.lastBitsMask).toNat →
    status = (if s.answer (p + 4) &&& 0x1B ≠ 0 then .error
      else if s.answer (p + 2) &&& 0x77 &&& s.cfg.timerIrqBit ≠ 0 then .timeout else .ok) →
    ∃ data : Vector Byte 16,
      (∀ j (h : j < 16), data[j] = if j < n then s.answer (p + 7 + j) else s.data[j]) ∧
      exec (.tocard 0x0C sendData) s = .next
        { s.took (p + 7 + n) with
          op := .tocard
          command := 0x0C
          send := sendData
          tmp := s.answer (p + 3)
          irq := s.answer (p + 2)
          err := s.answer (p + 4)
          lvl := s.answer (p + 5)
          n := n
          lastBits := s.answer (p + 6) &&& s.cfg.lastBitsMask
          budget := s.cfg.pollBudgetTrx - p
          rx := s.answer (p + 6 + n)
          status := status
          data := data
          dataLen := n
          bitLength := if count = 0 then n * 8 else (n - 1) * 8 + count
          seq := .rest
          cs := .high
          regs := Memory.after s.regs (cardTrace s 0x0C sendData p)
          history := s.history ++ [.request (.tocard 0x0C sendData)] ++ cardTrace s 0x0C sendData p ++
            [Event.R s.cfg 0x06 (s.answer (p + 4)), Event.R s.cfg 0x0A (s.answer (p + 5)),
              Event.R s.cfg 0x0C (s.answer (p + 6))] ++ s.reads 0x09 (p + 7) n ++
            [.complete (.card ⟨status, (List.range n).map fun j => s.answer (p + 7 + j),
              if count = 0 then n * 8 else (n - 1) * 8 + count⟩)] }

/-- D13 with BITLEN_FROM_CLAMPED false: the unclamped level enters the formula; with level 0 and a nonzero count the spec
states no length, and TOCARD completes all the same, with a free value in its place (log entry 15): no clause here says what
the length is then. -/
def Obligations.TocardUnclampedBitLength : Prop :=
  ∀ (sendData : List Byte) (s : State) (p lvl count : Nat), s.seq = .rest → s.chip = .unconstrained →
    PollReads (trxSignalled s.cfg) s 3 s.cfg.pollBudgetTrx p → p < s.cfg.pollBudgetTrx →
    (s.cfg.drainOnError = true ∨ s.answer (p + 4) &&& 0x1B = 0) → s.cfg.bitlenFromClamped = false →
    lvl = (s.answer (p + 5)).toNat → count = (s.answer (p + 6) &&& s.cfg.lastBitsMask).toNat →
    ∃ t, exec (.tocard 0x0C sendData) s = .next t ∧ t.dataLen = max 1 (min 16 lvl) ∧
      (count = 0 → t.bitLength = lvl * 8) ∧ (count ≠ 0 → lvl ≠ 0 → t.bitLength = (lvl - 1) * 8 + count) ∧
      t.handedOver = some (.card ⟨t.status, t.data.toList.take t.dataLen, t.bitLength⟩)

/-- TOCARD completes whatever the chip answers, for every command and frame, after at most
`L + POLL_BUDGET_TRX + 30` exchanges (R193). -/
def Obligations.TocardAlwaysCompletes : Prop :=
  ∀ (command : Byte) (sendData : List Byte) (s : State), s.seq = .rest → s.chip = .unconstrained → s.cfg.wf →
    ∃ t, exec (.tocard command sendData) s = .next t ∧ t.seq = .rest ∧
      (exchanges t.history).length ≤ (exchanges s.history).length + sendData.length + s.cfg.pollBudgetTrx + 30

/-- R260: of the conditions of one `toCard`, exhaustion is highest, then an error bit, then the timer bit, then OK;
read off the registers at the end. That exhaustion is a spent budget and the timer test takes the last polled value are the
spec's own decisions (D10, D11; log entry 14). -/
def Obligations.StatusPriority : Prop :=
  ∀ (command : Byte) (sendData : List Byte) (s t : State), s.seq = .rest → s.chip = .unconstrained →
    exec (.tocard command sendData) s = .next t →
    t.status =
      (if t.budget = 0 then .error
        else if t.err &&& 0x1B ≠ 0 then .error
        else if t.irq &&& 0x77 &&& t.cfg.timerIrqBit ≠ 0 then .timeout
        else .ok)

/-! ## Frames, whichever chip answers -/

/-- Frame of the register operations, bus frames, chip commands and tag opcodes: the registers of `computeCRC` and
`toCard` stay, RD alone writes `E.rdata`, SETB and CLRB alone write `E.tmp`, the register operations alone write their
latches (a latch that an operation's signature does not name stays: the model's choice, log entry 26). -/
def Obligations.ShortInstructionsFrame : Prop :=
  ∀ (i : Instr) (s t : State), exec i s = .next t → (∀ d, i ≠ .crc d) → (∀ c d, i ≠ .tocard c d) →
    t.cfg = s.cfg ∧ t.command = s.command ∧ t.send = s.send ∧ t.irq = s.irq ∧ t.err = s.err ∧ t.lvl = s.lvl ∧
    t.n = s.n ∧ t.lastBits = s.lastBits ∧ t.budget = s.budget ∧ t.crcLo = s.crcLo ∧ t.crcHi = s.crcHi ∧
    t.status = s.status ∧ t.data = s.data ∧ t.dataLen = s.dataLen ∧ t.bitLength = s.bitLength ∧
    t.requests = s.requests ∧ t.seq = s.seq ∧
    (isOperation i = false → t.op = s.op ∧ t.reg = s.reg ∧ t.val = s.val) ∧
    (∀ r, i = .rd r → t.val = s.val) ∧
    ((∀ r, i ≠ .rd r) → t.rdata = s.rdata) ∧
    ((∀ r m, i ≠ .setb r m) → (∀ r m, i ≠ .clrb r m) → t.tmp = s.tmp)

/-- Memory frame of the same instructions: the two that only read change no chip register; each other stores one byte at
the register its address byte selects and changes no other, but that a soft reset leaves none known (R57; what is known of chip registers is the model's choice, log entry 6). -/
def Obligations.ShortInstructionsMemoryFrame : Prop :=
  ∀ (s t : State) (a : RegAddr),
    (∀ r, exec (.rd r) s = .next t → t.regByte a = s.regByte a) ∧
    (∀ b d, exec (.busRd b d) s = .next t → t.regByte a = s.regByte a) ∧
    (∀ b v, exec (.busWr b v) s = .next t → t.regByte a = s.afterStore b v a) ∧
    (∀ r v, exec (.wr r v) s = .next t → t.regByte a = s.afterStore (chipAddr r) v a) ∧
    (∀ r m, exec (.setb r m) s = .next t → t.regByte a = s.afterStore (chipAddr r) (t.tmp ||| m) a) ∧
    (∀ r m, exec (.clrb r m) s = .next t → t.regByte a = s.afterStore (chipAddr r) (t.tmp &&& ~~~ m) a) ∧
    (exec .cmdIdle s = .next t → t.regByte a = s.afterStore 0x01 s.cfg.cmdIdle a) ∧
    (exec .cmdCalcCrc s = .next t → t.regByte a = s.afterStore 0x01 0x03 a) ∧
    (exec .cmdTransceive s = .next t → t.regByte a = s.afterStore 0x01 0x0C a) ∧
    (exec .cmdSoftReset s = .next t → t.regByte a = none) ∧
    (exec .tagRead s = .next t → t.regByte a = s.afterStore 0x09 0x30 a) ∧
    (exec .tagWrite s = .next t → t.regByte a = s.afterStore 0x09 0xA0 a)

/-- Frame of CRC: it writes `E.tmp`, `E.irq`, `E.budget`, `E.crcLo`, `E.crcHi` and its latches, and no other engine
register (R150); of the chip registers only REG_CRC_IRQ, REG_FIFO_LEVEL, REG_FIFO_DATA and REG_COMMAND. Were the parameter
REG_CRC_IRQ the command register, step C1 could write a soft reset there. That the latches its signature does not name stay is the model's choice (log entry
26); what is known of chip registers too (log entry 6). -/
def Obligations.CrcFrame : Prop :=
  ∀ (data : List Byte) (s t : State), exec (.crc data) s = .next t →
    (t.cfg = s.cfg ∧ t.reg = s.reg ∧ t.val = s.val ∧ t.command = s.command ∧ t.err = s.err ∧ t.lvl = s.lvl ∧
      t.n = s.n ∧ t.lastBits = s.lastBits ∧ t.rdata = s.rdata ∧ t.status = s.status ∧ t.data = s.data ∧
      t.dataLen = s.dataLen ∧ t.bitLength = s.bitLength ∧ t.requests = s.requests ∧ t.seq = s.seq) ∧
    ∀ a : RegAddr, a ∉ [chipAddr s.cfg.regCrcIrq, 0x0A, 0x09, 0x01] →
      t.regByte a = s.regByte a ∨ chipAddr s.cfg.regCrcIrq = 0x01 ∧ t.regByte a = none

/-- Frame of TOCARD: `E.rdata`, `E.crcLo`, `E.crcHi`, `E.reg`, `E.val` and the bytes of `E.data` from `E.dataLen` on stay
(R29, R170); of the chip registers only REG_COMM_IEN, REG_COMM_IRQ, REG_FIFO_LEVEL, REG_COMMAND, REG_FIFO_DATA and
REG_BIT_FRAMING change, but that a soft reset issued as `command` (or as a parameter CMD_IDLE of that value) leaves none
of the others known. That the data bytes above, and the latches that the signature does not name, stay is the model's choice
(log entries 25 and 26); what is known of chip registers too (log entry 6). -/
def Obligations.TocardFrame : Prop :=
  ∀ (command : Byte) (sendData : List Byte) (s t : State), exec (.tocard command sendData) s = .next t →
    (t.cfg = s.cfg ∧ t.reg = s.reg ∧ t.val = s.val ∧ t.rdata = s.rdata ∧ t.crcLo = s.crcLo ∧ t.crcHi = s.crcHi ∧
      t.requests = s.requests ∧ t.seq = s.seq) ∧
    (∀ j (h : j < 16), t.dataLen ≤ j → t.data[j] = s.data[j]) ∧
    ∀ a : RegAddr, a ∉ [(0x02 : RegAddr), 0x04, 0x0A, 0x01, 0x09, 0x0D] →
      t.regByte a = s.regByte a ∨ (command = 0x0F ∨ s.cfg.cmdIdle = 0x0F) ∧ t.regByte a = none

/-- R294: the byte that the engine last wrote to the command register is CMD_CALC_CRC after CRC and `command` after TOCARD; no
idle command follows. After a soft reset issued as `command` the model knows no byte of it (R57). What is known of chip registers
is the model's choice (log entry 6): it is what the engine wrote, not what the chip would answer. -/
def Obligations.CommandRegisterIsNotReturnedToIdle : Prop :=
  ∀ (s t : State),
    (∀ data, exec (.crc data) s = .next t → t.regByte 0x01 = some 0x03) ∧
    (∀ command sendData, exec (.tocard command sendData) s = .next t →
      t.regByte 0x01 = if command = 0x0F then none else some command)

/-- R33, R139: after every instruction that completes, chip-select is high and the engine is at REST. -/
def Obligations.InstructionsEndAtRestWithChipSelectHigh : Prop :=
  ∀ (i : Instr) (s t : State), exec i s = .next t → t.cs = .high ∧ t.seq = .rest

/-- R86, R281: the exchanges and the result of an operation depend on its operands, the parameters and the chip's
answers alone; nothing an earlier operation left in the engine shows in them. -/
def Obligations.OutcomeDependsOnlyOnOperandsAndAnswers : Prop :=
  ∀ (i : Instr) (s₁ s₂ : State), s₁.seq = .rest → s₂.seq = .rest → s₁.chip = .unconstrained →
    s₂.chip = .unconstrained → s₁.cfg = s₂.cfg → s₁.cfg.wf → s₁.oracle = s₂.oracle → s₁.draws = s₂.draws →
    ∃ t₁ t₂ events, exec i s₁ = .next t₁ ∧ exec i s₂ = .next t₂ ∧
      t₁.history = s₁.history ++ events ∧ t₂.history = s₂.history ++ events

/-! ## Labels of the sequencer -/

/-- R37: one poll exchange leaves EXECUTING for IRQ_SIGNALED exactly when a timer or wait bit ends the loop before the
budget is spent; the exhausted path has no name. That a flag on the last permitted read leads there, and not to IRQ_SIGNALED, is
R183, the spec's own decision (D10; log entry 14). -/
def Obligations.PollLeavesExecutingAsLabelled : Prop :=
  ∀ s t : State, s.seq = .t5 → s.chip = .unconstrained → 1 ≤ s.budget → step s = .next t →
    s.fsmLabel = some .executing ∧
    t.fsmLabel =
      (if s.budget = 1 then none
        else if trxSignalled s.cfg (s.answer 0) = true then some .irqSignaled else some .executing)

/-- R184: with a budget left after the poll, step 7 reads the error register into `E.err`, one exchange; with the budget spent,
step 6 is the last exchange of the operation and nothing is read in step 7. -/
def Obligations.ErrorReadOnlyAfterAPollThatWasNotExhausted : Prop :=
  ∀ s : State, s.chip = .unconstrained →
    (s.seq = .t6Write → ∃ t, step s = .next t ∧
      exchanges t.history = exchanges s.history ++ [Event.W 0x0D (s.tmp &&& ~~~ s.cfg.startSendBit)] ∧
      t.seq = (if s.budget = 0 then .rest else .t7Error)) ∧
    (s.seq = .t7Error → ∃ t, step s = .next t ∧
      exchanges t.history = exchanges s.history ++ [Event.R s.cfg 0x06 (s.answer 0)] ∧ t.err = s.answer 0)

/-! ## SimChip, the reference environment (no claim about the block) -/

/-- R91: a write to SimChip's full FIFO has no step; the run stops by name. R91 says that the run is refused; that the stop is
the fault `simFifoFull` is the model's (log entry 18). That 0x09 stays the FIFO port where a parameter names it too is the
model's choice (log entry 34). -/
def Obligations.SimChipStopsOnFullFifo : Prop :=
  ∀ (reg value : Byte) (s : State) (c : SimChip), s.seq = .rest → s.chip = .sim c → chipAddr reg = 0x09 →
    s.cfg.fifoCap ≤ c.fifo.length → exec (.wr reg value) s = .fault .simFifoFull

/-- R91: SimChip's FIFO takes a load in order, after what it held, as long as it has room; and a read of the FIFO port answers
its oldest byte and removes it. That 0x09 stays the FIFO port, and no more than that, where a parameter names it too is the
model's choice (log entry 34). -/
def Obligations.SimChipFifoIsAQueue : Prop :=
  (∀ (bytes : List Byte) (s : State) (c : SimChip), s.chip = .sim c →
    c.fifo.length + bytes.length ≤ s.cfg.fifoCap →
    (loadFifo bytes s).chip = .sim { c with fifo := c.fifo ++ bytes }) ∧
  ∀ (reg oldest : Byte) (rest : List Byte) (s : State) (c : SimChip), s.seq = .rest → s.chip = .sim c →
    chipAddr reg = 0x09 → c.fifo = oldest :: rest →
    ∃ t, exec (.rd reg) s = .next t ∧ t.rdata = oldest ∧ t.chip = .sim { c with fifo := rest }

/-- R94: calculate-CRC consumes SimChip's FIFO and latches the pair of its bytes; the flag comes after a drawn delay, or
never. That 0x01 stays the command register where a parameter names it too is the model's choice (log entry 34), and so are
the tables tried before the function that the parameter Crc16 names (log entries 17 and 22). Where CMD_IDLE is 0x03 too, R96 gives
the byte a second effect, and that calculate-CRC alone has its effect is the model's choice (log entry 32). -/
def Obligations.SimChipLatchesTheCrcOfItsFifo : Prop :=
  ∀ (s : State) (c : SimChip), s.seq = .rest → s.chip = .sim c →
    ∃ t c', exec .cmdCalcCrc s = .next t ∧ t.chip = .sim c' ∧ (c'.crcLo, c'.crcHi) = c.crc16 s.cfg c.fifo ∧
      c'.fifo = [] ∧ (c'.pending = .none ∨ ∃ d, c'.pending = .crc d)

/-- R95: start-send with the transceive command armed takes SimChip's FIFO as the frame; the tag's response is pending
and replaces whatever was. That 0x01 and 0x0D stay the command and bit-framing registers where a parameter names them too is
the model's choice (log entry 34), and so are the tables tried before the uninterpreted TagOracle (log entry 17).
Where CMD_IDLE is 0x0C too, R96 has the byte disarm, and that it arms is the model's choice (log entry 32). -/
def Obligations.SimChipStartSendTakesTheFifoAsTheFrame : Prop :=
  ∀ (v : Byte) (s : State) (c : SimChip), s.seq = .rest → s.chip = .sim c →
    s.regByte 0x01 = some 0x0C → v &&& s.cfg.startSendBit ≠ 0 →
    ∃ t c' d, exec (.wr 0x0D v) s = .next t ∧ t.chip = .sim c' ∧ c'.fifo = [] ∧
      c'.pending = .trx d (c.tagOracle c.fifo)

/-- R95: a poll read of REG_COMM_IRQ with the delay run out brings the pending answer into the FIFO, its bit count and
error bits into SimChip, and its flags into the byte read. An answer longer than the FIFO (R89) leaves contents of which only
the bound is stated (the model's choice, log entry 30). That 0x04 stays the communication flags' register, and no more than
that, where a parameter names it too is the model's choice (log entry 34). -/
def Obligations.SimChipPollDeliversTheAnswer : Prop :=
  ∀ (s : State) (c : SimChip) (r : List Byte) (k : BitVec 3) (e q : Byte), s.seq = .rest → s.chip = .sim c →
    c.pending = .trx 0 (.answer r k e q) →
    ∃ t f, exec (.rd 0x04) s = .next t ∧ t.rdata = (c.commIrq ||| q) ∧
      t.chip = .sim { c with fifo := f, lastBits := k, err := e, commIrq := c.commIrq ||| q, pending := .none } ∧
      f.length ≤ s.cfg.fifoCap ∧ (r.length ≤ s.cfg.fifoCap → f = r)

/-! ## Host sequences above the block -/

/-- R235, R236: `init` is the soft reset, the six configuration writes in the document's order, and the antenna step, which
writes exactly when one of the two TX-enable bits reads clear. That it writes at 0x01 and 0x02, and the order of the six writes,
are the spec's own decisions (D28, D32; log entry 14); the values written are free (log entry 20). -/
def Obligations.InitPerformsItsWritesAndTheAntennaStep : Prop :=
  ∀ s : State, s.seq = .rest → s.chip = .unconstrained →
    ∃ r, initSession s = .next r ∧ r.state.seq = .rest ∧
      exchanges r.state.history = exchanges s.history ++
        [Event.W 0x01 0x0F, Event.W 0x2A (Config.initVal 0x2A), Event.W 0x2B (Config.initVal 0x2B),
          Event.W 0x2D (Config.initVal 0x2D), Event.W 0x2E (Config.initVal 0x2E), Event.W 0x15 (Config.initVal 0x15),
          Event.W 0x11 (Config.initVal 0x11), Event.R s.cfg 0x14 (s.answer 0)] ++
        (if s.answer 0 &&& 0x03 = 0x03 then []
          else [Event.R s.cfg 0x14 (s.answer 1), Event.W 0x14 (s.answer 1 ||| 0x03)])

/-- R230: `readBlock` computes the CRC16 of {0x30, address}, transceives the four bytes, and returns the 16 bytes exactly when
the status is OK and 16 bytes came; on any deviation it returns nothing usable and logs "Read error". The bit length is not
examined. -/
def Obligations.ReadBlockReturnsSixteenBytesOrFails : Prop :=
  ∀ (a : Byte) (s : State), s.seq = .rest → s.chip = .unconstrained → s.cfg.wf →
    ∃ t u r, exec (.crc [0x30, a]) s = .next t ∧ exec (.tocard 0x0C [0x30, a, t.crcLo, t.crcHi]) t = .next u ∧
      readBlock a s = .next r ∧ r.state = u ∧
      (u.status = .ok ∧ u.dataLen = 16 → r.value = some u.data.toList ∧ r.log = []) ∧
      (¬ (u.status = .ok ∧ u.dataLen = 16) → r.value = none ∧ r.log = [.readError])

/-- R232 to R234: `writeBlock` transceives {0xA0, address} with the CRC pair of these two bytes, low byte first; only if the
status is OK and the answer is the single byte 0x0A does it transceive the data, cut or padded to 16 bytes, with their CRC pair;
otherwise nothing more is exchanged. The second phase passes on a first byte 0x0A, and there is no retry. What the two
acknowledgment tests compare, and the pad byte as a parameter, are the spec's own decisions (D29; log entry 14). -/
def Obligations.WriteBlockSendsDataOnlyAfterTheAcknowledgment : Prop :=
  ∀ (a : Byte) (data : List Byte) (s : State), s.seq = .rest → s.chip = .unconstrained → s.cfg.wf →
    ∃ t u, exec (.crc [0xA0, a]) s = .next t ∧ exec (.tocard 0x0C [0xA0, a, t.crcLo, t.crcHi]) t = .next u ∧
      (¬ (u.status = .ok ∧ u.dataLen = 1 ∧ u.data[0] = 0x0A) →
        writeBlock a data s = .next ⟨u, .requestFailed, [.writeRequestFailed]⟩) ∧
      (u.status = .ok ∧ u.dataLen = 1 ∧ u.data[0] = 0x0A →
        ∃ d v w, d = (data ++ List.replicate 16 s.cfg.padByte).take 16 ∧ exec (.crc d) u = .next v ∧
          exec (.tocard 0x0C (d ++ [v.crcLo, v.crcHi])) v = .next w ∧
          writeBlock a data s = .next
            (if w.status = .ok ∧ 1 ≤ w.dataLen ∧ w.data[0] = 0x0A then ⟨w, .written, [.dataWritten]⟩
              else ⟨w, .dataFailed, [.writeError]⟩))

/-! ## SimChip's start, level and last-bits count (no claim about the block) -/

/-- R89: SimChip starts with nothing pending and its FIFO inside its capacity, and no engine register changes: not a latch, a
working register, a result, the position, chip-select, the history or the queue of requests. That a start is an operation of
its own, with no register of S.reg written, is the model's (log entries 19 and 6), and so are the tables and scripts, which
stay as given (log entry 17), and the byte `rx` of the last read exchange (log entry 9). -/
def Obligations.SimChipStartsWithNothingPending : Prop :=
  ∀ (c : SimChip) (s : State), ∃ t c', startSim c s = t ∧ t.chip = .sim c' ∧
    c'.pending = .none ∧ c'.fifo.length ≤ s.cfg.fifoCap ∧
    c'.tags = c.tags ∧ c'.crcs = c.crcs ∧ c'.delays = c.delays ∧ c'.silent = c.silent ∧
    (∀ a, t.regByte a = none) ∧ t.cfg = s.cfg ∧
    t.op = s.op ∧ t.reg = s.reg ∧ t.val = s.val ∧ t.command = s.command ∧ t.send = s.send ∧
    t.tmp = s.tmp ∧ t.irq = s.irq ∧ t.err = s.err ∧ t.lvl = s.lvl ∧ t.n = s.n ∧ t.lastBits = s.lastBits ∧
    t.budget = s.budget ∧ t.rdata = s.rdata ∧ t.crcLo = s.crcLo ∧ t.crcHi = s.crcHi ∧
    t.status = s.status ∧ t.data = s.data ∧ t.dataLen = s.dataLen ∧ t.bitLength = s.bitLength ∧
    t.seq = s.seq ∧ t.cs = s.cs ∧ t.rx = s.rx ∧ t.history = s.history ∧ t.requests = s.requests

/-- R92, R93: over SimChip the level register answers the number of bytes in the FIFO, and the control register a byte whose
bits of LAST_BITS_MASK are SimChip's bit count, wherever a byte can say so; where none can (a level above 255, a mask that does
not cover the count) the read completes and nothing is stated of the byte (the model's choice, log entries 29 and 31). That
0x0A and 0x0C stay the level and control registers where a parameter names them too is the model's choice (log entry 34). -/
def Obligations.SimChipAnswersLevelAndLastBits : Prop :=
  ∀ (s : State) (c : SimChip), s.seq = .rest → s.chip = .sim c →
    (∃ t, exec (.rd 0x0A) s = .next t ∧ t.chip = .sim c ∧ (c.fifo.length ≤ 255 → t.rdata.toNat = c.fifo.length)) ∧
    (∃ t, exec (.rd 0x0C) s = .next t ∧ t.chip = .sim c ∧
      (c.lastBits.setWidth 8 &&& ~~~ s.cfg.lastBitsMask = 0 → t.rdata &&& s.cfg.lastBitsMask = c.lastBits.setWidth 8))
end

