-- ==== Sys2Proof/Laws/Memory.lean ====
section
/-! SUPPORT. The chip register space: read after write, and the canonical form kept by every write. -/

namespace Sys2Proof.Machine

@[simp] theorem Memory.read_write_same (m : Memory) (a : Nat) (v : Byte) :
    Memory.read (Memory.write m a v) a = some v := by
  induction m with
  | nil => simp [Memory.write, Memory.read]
  | cons c rest ih =>
    obtain ⟨b, w⟩ := c
    unfold Memory.write
    split
    · simp [Memory.read]
    · split
      · simp [Memory.read]
      · next hne =>
        have hba : b ≠ a := fun e => hne e.symm
        simp [Memory.read, hba, ih]

theorem Memory.read_write_other (m : Memory) {a b : Nat} (v : Byte) (h : b ≠ a) :
    Memory.read (Memory.write m a v) b = Memory.read m b := by
  have h' : a ≠ b := fun e => h e.symm
  induction m with
  | nil => simp [Memory.write, Memory.read, h']
  | cons c rest ih =>
    obtain ⟨b', w⟩ := c
    unfold Memory.write
    split
    · simp [Memory.read, h']
    · split
      · next e => subst e; simp [Memory.read, h']
      · simp [Memory.read, ih]

theorem Memory.risesFrom_write (m : Memory) {c a : Nat} (v : Byte) (hm : Memory.risesFrom c m = true) (h : c < a) :
    Memory.risesFrom c (Memory.write m a v) = true := by
  induction m generalizing c with
  | nil => simpa [Memory.write, Memory.risesFrom] using h
  | cons d rest ih =>
    obtain ⟨b, w⟩ := d
    simp only [Memory.risesFrom, Bool.and_eq_true, decide_eq_true_eq] at hm
    unfold Memory.write
    split
    · next hab => simp [Memory.risesFrom, h, hab, hm.2]
    · split
      · next e => subst e; simp [Memory.risesFrom, h, hm.2]
      · next h1 h2 => simp [Memory.risesFrom, hm.1, ih hm.2 (by omega)]

theorem Memory.all_write (m : Memory) {a : Nat} (v : Byte) (hm : m.all (fun c => inChip c.1) = true)
    (h : inChip a = true) : (Memory.write m a v).all (fun c => inChip c.1) = true := by
  induction m with
  | nil => simpa [Memory.write] using h
  | cons d rest ih =>
    obtain ⟨b, w⟩ := d
    simp only [List.all_cons, Bool.and_eq_true] at hm
    unfold Memory.write
    split
    · simp only [List.all_cons, Bool.and_eq_true]; exact ⟨h, hm.1, hm.2⟩
    · split
      · simp only [List.all_cons, Bool.and_eq_true]; exact ⟨h, hm.2⟩
      · simp only [List.all_cons, Bool.and_eq_true]; exact ⟨hm.1, ih hm.2⟩

/-- Every write keeps the canonical form. -/
theorem Memory.wf_write (m : Memory) {a : Nat} (v : Byte) (hm : Memory.wf m = true) (h : inChip a = true) :
    Memory.wf (Memory.write m a v) = true := by
  cases m with
  | nil => simpa [Memory.write, Memory.wf, Memory.risesFrom] using h
  | cons d rest =>
    obtain ⟨b, w⟩ := d
    simp only [Memory.wf, Bool.and_eq_true] at hm
    have hall := Memory.all_write ((b, w) :: rest) v hm.1 h
    revert hall
    unfold Memory.write
    split
    · next hab => intro hall; simp only [Memory.wf, hall, Memory.risesFrom, hm.2, hab]; simp
    · split
      · next e => intro hall; subst e; simp only [Memory.wf, hall, hm.2]; simp
      · intro hall
        simp only [Memory.wf, hall, Memory.risesFrom_write rest v hm.2 (show b < a by omega)]; simp

theorem inChip_toNat (a : RegAddr) : inChip a.toNat = true := by
  simpa [inChip] using a.isLt

/-- The state's own read and write of a chip register. -/
@[simp] theorem regByte_setRegByte_same (s : State) (a : RegAddr) (v : Byte) :
    (s.setRegByte a v).regByte a = some v := by
  simp [State.regByte, State.setRegByte]

theorem regByte_setRegByte_other (s : State) {a b : RegAddr} (v : Byte) (h : b ≠ a) :
    (s.setRegByte a v).regByte b = s.regByte b := by
  simp only [State.regByte, State.setRegByte]
  exact Memory.read_write_other _ _ (fun e => h (BitVec.eq_of_toNat_eq e))

end Sys2Proof.Machine
end

