-- ==== Sys2Proof/Laws/State.lean ====
section
/-! SUPPORT. One lemma per field and record update, so that no proof unfolds an update. -/

namespace Sys2Proof.Machine

variable (s : State)

/-! ## busSelect -/

@[simp] theorem busSelect_cfg : (busSelect s).cfg = s.cfg := rfl
@[simp] theorem busSelect_op : (busSelect s).op = s.op := rfl
@[simp] theorem busSelect_reg : (busSelect s).reg = s.reg := rfl
@[simp] theorem busSelect_val : (busSelect s).val = s.val := rfl
@[simp] theorem busSelect_command : (busSelect s).command = s.command := rfl
@[simp] theorem busSelect_send : (busSelect s).send = s.send := rfl
@[simp] theorem busSelect_tmp : (busSelect s).tmp = s.tmp := rfl
@[simp] theorem busSelect_irq : (busSelect s).irq = s.irq := rfl
@[simp] theorem busSelect_err : (busSelect s).err = s.err := rfl
@[simp] theorem busSelect_lvl : (busSelect s).lvl = s.lvl := rfl
@[simp] theorem busSelect_n : (busSelect s).n = s.n := rfl
@[simp] theorem busSelect_lastBits : (busSelect s).lastBits = s.lastBits := rfl
@[simp] theorem busSelect_budget : (busSelect s).budget = s.budget := rfl
@[simp] theorem busSelect_rdata : (busSelect s).rdata = s.rdata := rfl
@[simp] theorem busSelect_crcLo : (busSelect s).crcLo = s.crcLo := rfl
@[simp] theorem busSelect_crcHi : (busSelect s).crcHi = s.crcHi := rfl
@[simp] theorem busSelect_status : (busSelect s).status = s.status := rfl
@[simp] theorem busSelect_data : (busSelect s).data = s.data := rfl
@[simp] theorem busSelect_dataLen : (busSelect s).dataLen = s.dataLen := rfl
@[simp] theorem busSelect_bitLength : (busSelect s).bitLength = s.bitLength := rfl
@[simp] theorem busSelect_seq : (busSelect s).seq = s.seq := rfl
@[simp] theorem busSelect_cs : (busSelect s).cs = .low := rfl
@[simp] theorem busSelect_rx : (busSelect s).rx = s.rx := rfl
@[simp] theorem busSelect_regs : (busSelect s).regs = s.regs := rfl
@[simp] theorem busSelect_chip : (busSelect s).chip = s.chip := rfl
@[simp] theorem busSelect_oracle : (busSelect s).oracle = s.oracle := rfl
@[simp] theorem busSelect_draws : (busSelect s).draws = s.draws := rfl
@[simp] theorem busSelect_history : (busSelect s).history = s.history := rfl
@[simp] theorem busSelect_requests : (busSelect s).requests = s.requests := rfl

/-! ## busDeselect -/

@[simp] theorem busDeselect_cfg : (busDeselect s).cfg = s.cfg := rfl
@[simp] theorem busDeselect_op : (busDeselect s).op = s.op := rfl
@[simp] theorem busDeselect_reg : (busDeselect s).reg = s.reg := rfl
@[simp] theorem busDeselect_val : (busDeselect s).val = s.val := rfl
@[simp] theorem busDeselect_command : (busDeselect s).command = s.command := rfl
@[simp] theorem busDeselect_send : (busDeselect s).send = s.send := rfl
@[simp] theorem busDeselect_tmp : (busDeselect s).tmp = s.tmp := rfl
@[simp] theorem busDeselect_irq : (busDeselect s).irq = s.irq := rfl
@[simp] theorem busDeselect_err : (busDeselect s).err = s.err := rfl
@[simp] theorem busDeselect_lvl : (busDeselect s).lvl = s.lvl := rfl
@[simp] theorem busDeselect_n : (busDeselect s).n = s.n := rfl
@[simp] theorem busDeselect_lastBits : (busDeselect s).lastBits = s.lastBits := rfl
@[simp] theorem busDeselect_budget : (busDeselect s).budget = s.budget := rfl
@[simp] theorem busDeselect_rdata : (busDeselect s).rdata = s.rdata := rfl
@[simp] theorem busDeselect_crcLo : (busDeselect s).crcLo = s.crcLo := rfl
@[simp] theorem busDeselect_crcHi : (busDeselect s).crcHi = s.crcHi := rfl
@[simp] theorem busDeselect_status : (busDeselect s).status = s.status := rfl
@[simp] theorem busDeselect_data : (busDeselect s).data = s.data := rfl
@[simp] theorem busDeselect_dataLen : (busDeselect s).dataLen = s.dataLen := rfl
@[simp] theorem busDeselect_bitLength : (busDeselect s).bitLength = s.bitLength := rfl
@[simp] theorem busDeselect_seq : (busDeselect s).seq = s.seq := rfl
@[simp] theorem busDeselect_cs : (busDeselect s).cs = .high := rfl
@[simp] theorem busDeselect_rx : (busDeselect s).rx = s.rx := rfl
@[simp] theorem busDeselect_regs : (busDeselect s).regs = s.regs := rfl
@[simp] theorem busDeselect_chip : (busDeselect s).chip = s.chip := rfl
@[simp] theorem busDeselect_oracle : (busDeselect s).oracle = s.oracle := rfl
@[simp] theorem busDeselect_draws : (busDeselect s).draws = s.draws := rfl
@[simp] theorem busDeselect_history : (busDeselect s).history = s.history := rfl
@[simp] theorem busDeselect_requests : (busDeselect s).requests = s.requests := rfl

/-! ## record -/

@[simp] theorem record_cfg (e : Event) : (record e s).cfg = s.cfg := rfl
@[simp] theorem record_op (e : Event) : (record e s).op = s.op := rfl
@[simp] theorem record_reg (e : Event) : (record e s).reg = s.reg := rfl
@[simp] theorem record_val (e : Event) : (record e s).val = s.val := rfl
@[simp] theorem record_command (e : Event) : (record e s).command = s.command := rfl
@[simp] theorem record_send (e : Event) : (record e s).send = s.send := rfl
@[simp] theorem record_tmp (e : Event) : (record e s).tmp = s.tmp := rfl
@[simp] theorem record_irq (e : Event) : (record e s).irq = s.irq := rfl
@[simp] theorem record_err (e : Event) : (record e s).err = s.err := rfl
@[simp] theorem record_lvl (e : Event) : (record e s).lvl = s.lvl := rfl
@[simp] theorem record_n (e : Event) : (record e s).n = s.n := rfl
@[simp] theorem record_lastBits (e : Event) : (record e s).lastBits = s.lastBits := rfl
@[simp] theorem record_budget (e : Event) : (record e s).budget = s.budget := rfl
@[simp] theorem record_rdata (e : Event) : (record e s).rdata = s.rdata := rfl
@[simp] theorem record_crcLo (e : Event) : (record e s).crcLo = s.crcLo := rfl
@[simp] theorem record_crcHi (e : Event) : (record e s).crcHi = s.crcHi := rfl
@[simp] theorem record_status (e : Event) : (record e s).status = s.status := rfl
@[simp] theorem record_data (e : Event) : (record e s).data = s.data := rfl
@[simp] theorem record_dataLen (e : Event) : (record e s).dataLen = s.dataLen := rfl
@[simp] theorem record_bitLength (e : Event) : (record e s).bitLength = s.bitLength := rfl
@[simp] theorem record_seq (e : Event) : (record e s).seq = s.seq := rfl
@[simp] theorem record_cs (e : Event) : (record e s).cs = s.cs := rfl
@[simp] theorem record_rx (e : Event) : (record e s).rx = s.rx := rfl
@[simp] theorem record_regs (e : Event) : (record e s).regs = s.regs := rfl
@[simp] theorem record_chip (e : Event) : (record e s).chip = s.chip := rfl
@[simp] theorem record_oracle (e : Event) : (record e s).oracle = s.oracle := rfl
@[simp] theorem record_draws (e : Event) : (record e s).draws = s.draws := rfl
@[simp] theorem record_history (e : Event) : (record e s).history = s.history ++ [e] := rfl
@[simp] theorem record_requests (e : Event) : (record e s).requests = s.requests := rfl

/-! ## goto -/

@[simp] theorem goto_cfg (p : Seq) : (goto p s).cfg = s.cfg := rfl
@[simp] theorem goto_op (p : Seq) : (goto p s).op = s.op := rfl
@[simp] theorem goto_reg (p : Seq) : (goto p s).reg = s.reg := rfl
@[simp] theorem goto_val (p : Seq) : (goto p s).val = s.val := rfl
@[simp] theorem goto_command (p : Seq) : (goto p s).command = s.command := rfl
@[simp] theorem goto_send (p : Seq) : (goto p s).send = s.send := rfl
@[simp] theorem goto_tmp (p : Seq) : (goto p s).tmp = s.tmp := rfl
@[simp] theorem goto_irq (p : Seq) : (goto p s).irq = s.irq := rfl
@[simp] theorem goto_err (p : Seq) : (goto p s).err = s.err := rfl
@[simp] theorem goto_lvl (p : Seq) : (goto p s).lvl = s.lvl := rfl
@[simp] theorem goto_n (p : Seq) : (goto p s).n = s.n := rfl
@[simp] theorem goto_lastBits (p : Seq) : (goto p s).lastBits = s.lastBits := rfl
@[simp] theorem goto_budget (p : Seq) : (goto p s).budget = s.budget := rfl
@[simp] theorem goto_rdata (p : Seq) : (goto p s).rdata = s.rdata := rfl
@[simp] theorem goto_crcLo (p : Seq) : (goto p s).crcLo = s.crcLo := rfl
@[simp] theorem goto_crcHi (p : Seq) : (goto p s).crcHi = s.crcHi := rfl
@[simp] theorem goto_status (p : Seq) : (goto p s).status = s.status := rfl
@[simp] theorem goto_data (p : Seq) : (goto p s).data = s.data := rfl
@[simp] theorem goto_dataLen (p : Seq) : (goto p s).dataLen = s.dataLen := rfl
@[simp] theorem goto_bitLength (p : Seq) : (goto p s).bitLength = s.bitLength := rfl
@[simp] theorem goto_seq (p : Seq) : (goto p s).seq = p := rfl
@[simp] theorem goto_cs (p : Seq) : (goto p s).cs = s.cs := rfl
@[simp] theorem goto_rx (p : Seq) : (goto p s).rx = s.rx := rfl
@[simp] theorem goto_regs (p : Seq) : (goto p s).regs = s.regs := rfl
@[simp] theorem goto_chip (p : Seq) : (goto p s).chip = s.chip := rfl
@[simp] theorem goto_oracle (p : Seq) : (goto p s).oracle = s.oracle := rfl
@[simp] theorem goto_draws (p : Seq) : (goto p s).draws = s.draws := rfl
@[simp] theorem goto_history (p : Seq) : (goto p s).history = s.history := rfl
@[simp] theorem goto_requests (p : Seq) : (goto p s).requests = s.requests := rfl

/-! ## receive -/

@[simp] theorem receive_cfg (v : Byte) : (receive v s).cfg = s.cfg := rfl
@[simp] theorem receive_op (v : Byte) : (receive v s).op = s.op := rfl
@[simp] theorem receive_reg (v : Byte) : (receive v s).reg = s.reg := rfl
@[simp] theorem receive_val (v : Byte) : (receive v s).val = s.val := rfl
@[simp] theorem receive_command (v : Byte) : (receive v s).command = s.command := rfl
@[simp] theorem receive_send (v : Byte) : (receive v s).send = s.send := rfl
@[simp] theorem receive_tmp (v : Byte) : (receive v s).tmp = s.tmp := rfl
@[simp] theorem receive_irq (v : Byte) : (receive v s).irq = s.irq := rfl
@[simp] theorem receive_err (v : Byte) : (receive v s).err = s.err := rfl
@[simp] theorem receive_lvl (v : Byte) : (receive v s).lvl = s.lvl := rfl
@[simp] theorem receive_n (v : Byte) : (receive v s).n = s.n := rfl
@[simp] theorem receive_lastBits (v : Byte) : (receive v s).lastBits = s.lastBits := rfl
@[simp] theorem receive_budget (v : Byte) : (receive v s).budget = s.budget := rfl
@[simp] theorem receive_rdata (v : Byte) : (receive v s).rdata = s.rdata := rfl
@[simp] theorem receive_crcLo (v : Byte) : (receive v s).crcLo = s.crcLo := rfl
@[simp] theorem receive_crcHi (v : Byte) : (receive v s).crcHi = s.crcHi := rfl
@[simp] theorem receive_status (v : Byte) : (receive v s).status = s.status := rfl
@[simp] theorem receive_data (v : Byte) : (receive v s).data = s.data := rfl
@[simp] theorem receive_dataLen (v : Byte) : (receive v s).dataLen = s.dataLen := rfl
@[simp] theorem receive_bitLength (v : Byte) : (receive v s).bitLength = s.bitLength := rfl
@[simp] theorem receive_seq (v : Byte) : (receive v s).seq = s.seq := rfl
@[simp] theorem receive_cs (v : Byte) : (receive v s).cs = s.cs := rfl
@[simp] theorem receive_rx (v : Byte) : (receive v s).rx = v := rfl
@[simp] theorem receive_regs (v : Byte) : (receive v s).regs = s.regs := rfl
@[simp] theorem receive_chip (v : Byte) : (receive v s).chip = s.chip := rfl
@[simp] theorem receive_oracle (v : Byte) : (receive v s).oracle = s.oracle := rfl
@[simp] theorem receive_draws (v : Byte) : (receive v s).draws = s.draws := rfl
@[simp] theorem receive_history (v : Byte) : (receive v s).history = s.history := rfl
@[simp] theorem receive_requests (v : Byte) : (receive v s).requests = s.requests := rfl

/-! ## setSim -/

@[simp] theorem setSim_cfg (c : SimChip) : (setSim c s).cfg = s.cfg := rfl
@[simp] theorem setSim_op (c : SimChip) : (setSim c s).op = s.op := rfl
@[simp] theorem setSim_reg (c : SimChip) : (setSim c s).reg = s.reg := rfl
@[simp] theorem setSim_val (c : SimChip) : (setSim c s).val = s.val := rfl
@[simp] theorem setSim_command (c : SimChip) : (setSim c s).command = s.command := rfl
@[simp] theorem setSim_send (c : SimChip) : (setSim c s).send = s.send := rfl
@[simp] theorem setSim_tmp (c : SimChip) : (setSim c s).tmp = s.tmp := rfl
@[simp] theorem setSim_irq (c : SimChip) : (setSim c s).irq = s.irq := rfl
@[simp] theorem setSim_err (c : SimChip) : (setSim c s).err = s.err := rfl
@[simp] theorem setSim_lvl (c : SimChip) : (setSim c s).lvl = s.lvl := rfl
@[simp] theorem setSim_n (c : SimChip) : (setSim c s).n = s.n := rfl
@[simp] theorem setSim_lastBits (c : SimChip) : (setSim c s).lastBits = s.lastBits := rfl
@[simp] theorem setSim_budget (c : SimChip) : (setSim c s).budget = s.budget := rfl
@[simp] theorem setSim_rdata (c : SimChip) : (setSim c s).rdata = s.rdata := rfl
@[simp] theorem setSim_crcLo (c : SimChip) : (setSim c s).crcLo = s.crcLo := rfl
@[simp] theorem setSim_crcHi (c : SimChip) : (setSim c s).crcHi = s.crcHi := rfl
@[simp] theorem setSim_status (c : SimChip) : (setSim c s).status = s.status := rfl
@[simp] theorem setSim_data (c : SimChip) : (setSim c s).data = s.data := rfl
@[simp] theorem setSim_dataLen (c : SimChip) : (setSim c s).dataLen = s.dataLen := rfl
@[simp] theorem setSim_bitLength (c : SimChip) : (setSim c s).bitLength = s.bitLength := rfl
@[simp] theorem setSim_seq (c : SimChip) : (setSim c s).seq = s.seq := rfl
@[simp] theorem setSim_cs (c : SimChip) : (setSim c s).cs = s.cs := rfl
@[simp] theorem setSim_rx (c : SimChip) : (setSim c s).rx = s.rx := rfl
@[simp] theorem setSim_regs (c : SimChip) : (setSim c s).regs = s.regs := rfl
@[simp] theorem setSim_chip (c : SimChip) : (setSim c s).chip = .sim c := rfl
@[simp] theorem setSim_oracle (c : SimChip) : (setSim c s).oracle = s.oracle := rfl
@[simp] theorem setSim_draws (c : SimChip) : (setSim c s).draws = s.draws := rfl
@[simp] theorem setSim_history (c : SimChip) : (setSim c s).history = s.history := rfl
@[simp] theorem setSim_requests (c : SimChip) : (setSim c s).requests = s.requests := rfl

/-! ## setDataLen -/

@[simp] theorem setDataLen_cfg : (setDataLen s).cfg = s.cfg := rfl
@[simp] theorem setDataLen_op : (setDataLen s).op = s.op := rfl
@[simp] theorem setDataLen_reg : (setDataLen s).reg = s.reg := rfl
@[simp] theorem setDataLen_val : (setDataLen s).val = s.val := rfl
@[simp] theorem setDataLen_command : (setDataLen s).command = s.command := rfl
@[simp] theorem setDataLen_send : (setDataLen s).send = s.send := rfl
@[simp] theorem setDataLen_tmp : (setDataLen s).tmp = s.tmp := rfl
@[simp] theorem setDataLen_irq : (setDataLen s).irq = s.irq := rfl
@[simp] theorem setDataLen_err : (setDataLen s).err = s.err := rfl
@[simp] theorem setDataLen_lvl : (setDataLen s).lvl = s.lvl := rfl
@[simp] theorem setDataLen_n : (setDataLen s).n = s.n := rfl
@[simp] theorem setDataLen_lastBits : (setDataLen s).lastBits = s.lastBits := rfl
@[simp] theorem setDataLen_budget : (setDataLen s).budget = s.budget := rfl
@[simp] theorem setDataLen_rdata : (setDataLen s).rdata = s.rdata := rfl
@[simp] theorem setDataLen_crcLo : (setDataLen s).crcLo = s.crcLo := rfl
@[simp] theorem setDataLen_crcHi : (setDataLen s).crcHi = s.crcHi := rfl
@[simp] theorem setDataLen_status : (setDataLen s).status = s.status := rfl
@[simp] theorem setDataLen_data : (setDataLen s).data = s.data := rfl
@[simp] theorem setDataLen_dataLen : (setDataLen s).dataLen = s.n := rfl
@[simp] theorem setDataLen_bitLength : (setDataLen s).bitLength = s.bitLength := rfl
@[simp] theorem setDataLen_seq : (setDataLen s).seq = s.seq := rfl
@[simp] theorem setDataLen_cs : (setDataLen s).cs = s.cs := rfl
@[simp] theorem setDataLen_rx : (setDataLen s).rx = s.rx := rfl
@[simp] theorem setDataLen_regs : (setDataLen s).regs = s.regs := rfl
@[simp] theorem setDataLen_chip : (setDataLen s).chip = s.chip := rfl
@[simp] theorem setDataLen_oracle : (setDataLen s).oracle = s.oracle := rfl
@[simp] theorem setDataLen_draws : (setDataLen s).draws = s.draws := rfl
@[simp] theorem setDataLen_history : (setDataLen s).history = s.history := rfl
@[simp] theorem setDataLen_requests : (setDataLen s).requests = s.requests := rfl

/-! ## loadCrcBudget -/

@[simp] theorem loadCrcBudget_cfg : (loadCrcBudget s).cfg = s.cfg := rfl
@[simp] theorem loadCrcBudget_op : (loadCrcBudget s).op = s.op := rfl
@[simp] theorem loadCrcBudget_reg : (loadCrcBudget s).reg = s.reg := rfl
@[simp] theorem loadCrcBudget_val : (loadCrcBudget s).val = s.val := rfl
@[simp] theorem loadCrcBudget_command : (loadCrcBudget s).command = s.command := rfl
@[simp] theorem loadCrcBudget_send : (loadCrcBudget s).send = s.send := rfl
@[simp] theorem loadCrcBudget_tmp : (loadCrcBudget s).tmp = s.tmp := rfl
@[simp] theorem loadCrcBudget_irq : (loadCrcBudget s).irq = s.irq := rfl
@[simp] theorem loadCrcBudget_err : (loadCrcBudget s).err = s.err := rfl
@[simp] theorem loadCrcBudget_lvl : (loadCrcBudget s).lvl = s.lvl := rfl
@[simp] theorem loadCrcBudget_n : (loadCrcBudget s).n = s.n := rfl
@[simp] theorem loadCrcBudget_lastBits : (loadCrcBudget s).lastBits = s.lastBits := rfl
@[simp] theorem loadCrcBudget_budget : (loadCrcBudget s).budget = s.cfg.pollBudgetCrc := rfl
@[simp] theorem loadCrcBudget_rdata : (loadCrcBudget s).rdata = s.rdata := rfl
@[simp] theorem loadCrcBudget_crcLo : (loadCrcBudget s).crcLo = s.crcLo := rfl
@[simp] theorem loadCrcBudget_crcHi : (loadCrcBudget s).crcHi = s.crcHi := rfl
@[simp] theorem loadCrcBudget_status : (loadCrcBudget s).status = s.status := rfl
@[simp] theorem loadCrcBudget_data : (loadCrcBudget s).data = s.data := rfl
@[simp] theorem loadCrcBudget_dataLen : (loadCrcBudget s).dataLen = s.dataLen := rfl
@[simp] theorem loadCrcBudget_bitLength : (loadCrcBudget s).bitLength = s.bitLength := rfl
@[simp] theorem loadCrcBudget_seq : (loadCrcBudget s).seq = s.seq := rfl
@[simp] theorem loadCrcBudget_cs : (loadCrcBudget s).cs = s.cs := rfl
@[simp] theorem loadCrcBudget_rx : (loadCrcBudget s).rx = s.rx := rfl
@[simp] theorem loadCrcBudget_regs : (loadCrcBudget s).regs = s.regs := rfl
@[simp] theorem loadCrcBudget_chip : (loadCrcBudget s).chip = s.chip := rfl
@[simp] theorem loadCrcBudget_oracle : (loadCrcBudget s).oracle = s.oracle := rfl
@[simp] theorem loadCrcBudget_draws : (loadCrcBudget s).draws = s.draws := rfl
@[simp] theorem loadCrcBudget_history : (loadCrcBudget s).history = s.history := rfl
@[simp] theorem loadCrcBudget_requests : (loadCrcBudget s).requests = s.requests := rfl

/-! ## complete -/

@[simp] theorem complete_cfg (r : OpResult) : (complete r s).cfg = s.cfg := rfl
@[simp] theorem complete_op (r : OpResult) : (complete r s).op = s.op := rfl
@[simp] theorem complete_reg (r : OpResult) : (complete r s).reg = s.reg := rfl
@[simp] theorem complete_val (r : OpResult) : (complete r s).val = s.val := rfl
@[simp] theorem complete_command (r : OpResult) : (complete r s).command = s.command := rfl
@[simp] theorem complete_send (r : OpResult) : (complete r s).send = s.send := rfl
@[simp] theorem complete_tmp (r : OpResult) : (complete r s).tmp = s.tmp := rfl
@[simp] theorem complete_irq (r : OpResult) : (complete r s).irq = s.irq := rfl
@[simp] theorem complete_err (r : OpResult) : (complete r s).err = s.err := rfl
@[simp] theorem complete_lvl (r : OpResult) : (complete r s).lvl = s.lvl := rfl
@[simp] theorem complete_n (r : OpResult) : (complete r s).n = s.n := rfl
@[simp] theorem complete_lastBits (r : OpResult) : (complete r s).lastBits = s.lastBits := rfl
@[simp] theorem complete_budget (r : OpResult) : (complete r s).budget = s.budget := rfl
@[simp] theorem complete_rdata (r : OpResult) : (complete r s).rdata = s.rdata := rfl
@[simp] theorem complete_crcLo (r : OpResult) : (complete r s).crcLo = s.crcLo := rfl
@[simp] theorem complete_crcHi (r : OpResult) : (complete r s).crcHi = s.crcHi := rfl
@[simp] theorem complete_status (r : OpResult) : (complete r s).status = s.status := rfl
@[simp] theorem complete_data (r : OpResult) : (complete r s).data = s.data := rfl
@[simp] theorem complete_dataLen (r : OpResult) : (complete r s).dataLen = s.dataLen := rfl
@[simp] theorem complete_bitLength (r : OpResult) : (complete r s).bitLength = s.bitLength := rfl
@[simp] theorem complete_seq (r : OpResult) : (complete r s).seq = .rest := rfl
@[simp] theorem complete_cs (r : OpResult) : (complete r s).cs = s.cs := rfl
@[simp] theorem complete_rx (r : OpResult) : (complete r s).rx = s.rx := rfl
@[simp] theorem complete_regs (r : OpResult) : (complete r s).regs = s.regs := rfl
@[simp] theorem complete_chip (r : OpResult) : (complete r s).chip = s.chip := rfl
@[simp] theorem complete_oracle (r : OpResult) : (complete r s).oracle = s.oracle := rfl
@[simp] theorem complete_draws (r : OpResult) : (complete r s).draws = s.draws := rfl
@[simp] theorem complete_history (r : OpResult) : (complete r s).history = s.history ++ [.complete r] := rfl
@[simp] theorem complete_requests (r : OpResult) : (complete r s).requests = s.requests := rfl

/-! ## acceptWr -/

@[simp] theorem acceptWr_cfg (reg value : Byte) : (acceptWr reg value s).cfg = s.cfg := rfl
@[simp] theorem acceptWr_op (reg value : Byte) : (acceptWr reg value s).op = .wr := rfl
@[simp] theorem acceptWr_reg (reg value : Byte) : (acceptWr reg value s).reg = reg := rfl
@[simp] theorem acceptWr_val (reg value : Byte) : (acceptWr reg value s).val = value := rfl
@[simp] theorem acceptWr_command (reg value : Byte) : (acceptWr reg value s).command = s.command := rfl
@[simp] theorem acceptWr_send (reg value : Byte) : (acceptWr reg value s).send = s.send := rfl
@[simp] theorem acceptWr_tmp (reg value : Byte) : (acceptWr reg value s).tmp = s.tmp := rfl
@[simp] theorem acceptWr_irq (reg value : Byte) : (acceptWr reg value s).irq = s.irq := rfl
@[simp] theorem acceptWr_err (reg value : Byte) : (acceptWr reg value s).err = s.err := rfl
@[simp] theorem acceptWr_lvl (reg value : Byte) : (acceptWr reg value s).lvl = s.lvl := rfl
@[simp] theorem acceptWr_n (reg value : Byte) : (acceptWr reg value s).n = s.n := rfl
@[simp] theorem acceptWr_lastBits (reg value : Byte) : (acceptWr reg value s).lastBits = s.lastBits := rfl
@[simp] theorem acceptWr_budget (reg value : Byte) : (acceptWr reg value s).budget = s.budget := rfl
@[simp] theorem acceptWr_rdata (reg value : Byte) : (acceptWr reg value s).rdata = s.rdata := rfl
@[simp] theorem acceptWr_crcLo (reg value : Byte) : (acceptWr reg value s).crcLo = s.crcLo := rfl
@[simp] theorem acceptWr_crcHi (reg value : Byte) : (acceptWr reg value s).crcHi = s.crcHi := rfl
@[simp] theorem acceptWr_status (reg value : Byte) : (acceptWr reg value s).status = s.status := rfl
@[simp] theorem acceptWr_data (reg value : Byte) : (acceptWr reg value s).data = s.data := rfl
@[simp] theorem acceptWr_dataLen (reg value : Byte) : (acceptWr reg value s).dataLen = s.dataLen := rfl
@[simp] theorem acceptWr_bitLength (reg value : Byte) : (acceptWr reg value s).bitLength = s.bitLength := rfl
@[simp] theorem acceptWr_seq (reg value : Byte) : (acceptWr reg value s).seq = .wr1 := rfl
@[simp] theorem acceptWr_cs (reg value : Byte) : (acceptWr reg value s).cs = s.cs := rfl
@[simp] theorem acceptWr_rx (reg value : Byte) : (acceptWr reg value s).rx = s.rx := rfl
@[simp] theorem acceptWr_regs (reg value : Byte) : (acceptWr reg value s).regs = s.regs := rfl
@[simp] theorem acceptWr_chip (reg value : Byte) : (acceptWr reg value s).chip = s.chip := rfl
@[simp] theorem acceptWr_oracle (reg value : Byte) : (acceptWr reg value s).oracle = s.oracle := rfl
@[simp] theorem acceptWr_draws (reg value : Byte) : (acceptWr reg value s).draws = s.draws := rfl
@[simp] theorem acceptWr_history (reg value : Byte) : (acceptWr reg value s).history = s.history ++ [.request (.wr reg value)] := rfl
@[simp] theorem acceptWr_requests (reg value : Byte) : (acceptWr reg value s).requests = s.requests := rfl

/-! ## acceptRd -/

@[simp] theorem acceptRd_cfg (reg : Byte) : (acceptRd reg s).cfg = s.cfg := rfl
@[simp] theorem acceptRd_op (reg : Byte) : (acceptRd reg s).op = .rd := rfl
@[simp] theorem acceptRd_reg (reg : Byte) : (acceptRd reg s).reg = reg := rfl
@[simp] theorem acceptRd_val (reg : Byte) : (acceptRd reg s).val = s.val := rfl
@[simp] theorem acceptRd_command (reg : Byte) : (acceptRd reg s).command = s.command := rfl
@[simp] theorem acceptRd_send (reg : Byte) : (acceptRd reg s).send = s.send := rfl
@[simp] theorem acceptRd_tmp (reg : Byte) : (acceptRd reg s).tmp = s.tmp := rfl
@[simp] theorem acceptRd_irq (reg : Byte) : (acceptRd reg s).irq = s.irq := rfl
@[simp] theorem acceptRd_err (reg : Byte) : (acceptRd reg s).err = s.err := rfl
@[simp] theorem acceptRd_lvl (reg : Byte) : (acceptRd reg s).lvl = s.lvl := rfl
@[simp] theorem acceptRd_n (reg : Byte) : (acceptRd reg s).n = s.n := rfl
@[simp] theorem acceptRd_lastBits (reg : Byte) : (acceptRd reg s).lastBits = s.lastBits := rfl
@[simp] theorem acceptRd_budget (reg : Byte) : (acceptRd reg s).budget = s.budget := rfl
@[simp] theorem acceptRd_rdata (reg : Byte) : (acceptRd reg s).rdata = s.rdata := rfl
@[simp] theorem acceptRd_crcLo (reg : Byte) : (acceptRd reg s).crcLo = s.crcLo := rfl
@[simp] theorem acceptRd_crcHi (reg : Byte) : (acceptRd reg s).crcHi = s.crcHi := rfl
@[simp] theorem acceptRd_status (reg : Byte) : (acceptRd reg s).status = s.status := rfl
@[simp] theorem acceptRd_data (reg : Byte) : (acceptRd reg s).data = s.data := rfl
@[simp] theorem acceptRd_dataLen (reg : Byte) : (acceptRd reg s).dataLen = s.dataLen := rfl
@[simp] theorem acceptRd_bitLength (reg : Byte) : (acceptRd reg s).bitLength = s.bitLength := rfl
@[simp] theorem acceptRd_seq (reg : Byte) : (acceptRd reg s).seq = .rd1 := rfl
@[simp] theorem acceptRd_cs (reg : Byte) : (acceptRd reg s).cs = s.cs := rfl
@[simp] theorem acceptRd_rx (reg : Byte) : (acceptRd reg s).rx = s.rx := rfl
@[simp] theorem acceptRd_regs (reg : Byte) : (acceptRd reg s).regs = s.regs := rfl
@[simp] theorem acceptRd_chip (reg : Byte) : (acceptRd reg s).chip = s.chip := rfl
@[simp] theorem acceptRd_oracle (reg : Byte) : (acceptRd reg s).oracle = s.oracle := rfl
@[simp] theorem acceptRd_draws (reg : Byte) : (acceptRd reg s).draws = s.draws := rfl
@[simp] theorem acceptRd_history (reg : Byte) : (acceptRd reg s).history = s.history ++ [.request (.rd reg)] := rfl
@[simp] theorem acceptRd_requests (reg : Byte) : (acceptRd reg s).requests = s.requests := rfl

/-! ## acceptSetb -/

@[simp] theorem acceptSetb_cfg (reg mask : Byte) : (acceptSetb reg mask s).cfg = s.cfg := rfl
@[simp] theorem acceptSetb_op (reg mask : Byte) : (acceptSetb reg mask s).op = .setb := rfl
@[simp] theorem acceptSetb_reg (reg mask : Byte) : (acceptSetb reg mask s).reg = reg := rfl
@[simp] theorem acceptSetb_val (reg mask : Byte) : (acceptSetb reg mask s).val = mask := rfl
@[simp] theorem acceptSetb_command (reg mask : Byte) : (acceptSetb reg mask s).command = s.command := rfl
@[simp] theorem acceptSetb_send (reg mask : Byte) : (acceptSetb reg mask s).send = s.send := rfl
@[simp] theorem acceptSetb_tmp (reg mask : Byte) : (acceptSetb reg mask s).tmp = s.tmp := rfl
@[simp] theorem acceptSetb_irq (reg mask : Byte) : (acceptSetb reg mask s).irq = s.irq := rfl
@[simp] theorem acceptSetb_err (reg mask : Byte) : (acceptSetb reg mask s).err = s.err := rfl
@[simp] theorem acceptSetb_lvl (reg mask : Byte) : (acceptSetb reg mask s).lvl = s.lvl := rfl
@[simp] theorem acceptSetb_n (reg mask : Byte) : (acceptSetb reg mask s).n = s.n := rfl
@[simp] theorem acceptSetb_lastBits (reg mask : Byte) : (acceptSetb reg mask s).lastBits = s.lastBits := rfl
@[simp] theorem acceptSetb_budget (reg mask : Byte) : (acceptSetb reg mask s).budget = s.budget := rfl
@[simp] theorem acceptSetb_rdata (reg mask : Byte) : (acceptSetb reg mask s).rdata = s.rdata := rfl
@[simp] theorem acceptSetb_crcLo (reg mask : Byte) : (acceptSetb reg mask s).crcLo = s.crcLo := rfl
@[simp] theorem acceptSetb_crcHi (reg mask : Byte) : (acceptSetb reg mask s).crcHi = s.crcHi := rfl
@[simp] theorem acceptSetb_status (reg mask : Byte) : (acceptSetb reg mask s).status = s.status := rfl
@[simp] theorem acceptSetb_data (reg mask : Byte) : (acceptSetb reg mask s).data = s.data := rfl
@[simp] theorem acceptSetb_dataLen (reg mask : Byte) : (acceptSetb reg mask s).dataLen = s.dataLen := rfl
@[simp] theorem acceptSetb_bitLength (reg mask : Byte) : (acceptSetb reg mask s).bitLength = s.bitLength := rfl
@[simp] theorem acceptSetb_seq (reg mask : Byte) : (acceptSetb reg mask s).seq = .sb1 := rfl
@[simp] theorem acceptSetb_cs (reg mask : Byte) : (acceptSetb reg mask s).cs = s.cs := rfl
@[simp] theorem acceptSetb_rx (reg mask : Byte) : (acceptSetb reg mask s).rx = s.rx := rfl
@[simp] theorem acceptSetb_regs (reg mask : Byte) : (acceptSetb reg mask s).regs = s.regs := rfl
@[simp] theorem acceptSetb_chip (reg mask : Byte) : (acceptSetb reg mask s).chip = s.chip := rfl
@[simp] theorem acceptSetb_oracle (reg mask : Byte) : (acceptSetb reg mask s).oracle = s.oracle := rfl
@[simp] theorem acceptSetb_draws (reg mask : Byte) : (acceptSetb reg mask s).draws = s.draws := rfl
@[simp] theorem acceptSetb_history (reg mask : Byte) : (acceptSetb reg mask s).history = s.history ++ [.request (.setb reg mask)] := rfl
@[simp] theorem acceptSetb_requests (reg mask : Byte) : (acceptSetb reg mask s).requests = s.requests := rfl

/-! ## acceptClrb -/

@[simp] theorem acceptClrb_cfg (reg mask : Byte) : (acceptClrb reg mask s).cfg = s.cfg := rfl
@[simp] theorem acceptClrb_op (reg mask : Byte) : (acceptClrb reg mask s).op = .clrb := rfl
@[simp] theorem acceptClrb_reg (reg mask : Byte) : (acceptClrb reg mask s).reg = reg := rfl
@[simp] theorem acceptClrb_val (reg mask : Byte) : (acceptClrb reg mask s).val = mask := rfl
@[simp] theorem acceptClrb_command (reg mask : Byte) : (acceptClrb reg mask s).command = s.command := rfl
@[simp] theorem acceptClrb_send (reg mask : Byte) : (acceptClrb reg mask s).send = s.send := rfl
@[simp] theorem acceptClrb_tmp (reg mask : Byte) : (acceptClrb reg mask s).tmp = s.tmp := rfl
@[simp] theorem acceptClrb_irq (reg mask : Byte) : (acceptClrb reg mask s).irq = s.irq := rfl
@[simp] theorem acceptClrb_err (reg mask : Byte) : (acceptClrb reg mask s).err = s.err := rfl
@[simp] theorem acceptClrb_lvl (reg mask : Byte) : (acceptClrb reg mask s).lvl = s.lvl := rfl
@[simp] theorem acceptClrb_n (reg mask : Byte) : (acceptClrb reg mask s).n = s.n := rfl
@[simp] theorem acceptClrb_lastBits (reg mask : Byte) : (acceptClrb reg mask s).lastBits = s.lastBits := rfl
@[simp] theorem acceptClrb_budget (reg mask : Byte) : (acceptClrb reg mask s).budget = s.budget := rfl
@[simp] theorem acceptClrb_rdata (reg mask : Byte) : (acceptClrb reg mask s).rdata = s.rdata := rfl
@[simp] theorem acceptClrb_crcLo (reg mask : Byte) : (acceptClrb reg mask s).crcLo = s.crcLo := rfl
@[simp] theorem acceptClrb_crcHi (reg mask : Byte) : (acceptClrb reg mask s).crcHi = s.crcHi := rfl
@[simp] theorem acceptClrb_status (reg mask : Byte) : (acceptClrb reg mask s).status = s.status := rfl
@[simp] theorem acceptClrb_data (reg mask : Byte) : (acceptClrb reg mask s).data = s.data := rfl
@[simp] theorem acceptClrb_dataLen (reg mask : Byte) : (acceptClrb reg mask s).dataLen = s.dataLen := rfl
@[simp] theorem acceptClrb_bitLength (reg mask : Byte) : (acceptClrb reg mask s).bitLength = s.bitLength := rfl
@[simp] theorem acceptClrb_seq (reg mask : Byte) : (acceptClrb reg mask s).seq = .cb1 := rfl
@[simp] theorem acceptClrb_cs (reg mask : Byte) : (acceptClrb reg mask s).cs = s.cs := rfl
@[simp] theorem acceptClrb_rx (reg mask : Byte) : (acceptClrb reg mask s).rx = s.rx := rfl
@[simp] theorem acceptClrb_regs (reg mask : Byte) : (acceptClrb reg mask s).regs = s.regs := rfl
@[simp] theorem acceptClrb_chip (reg mask : Byte) : (acceptClrb reg mask s).chip = s.chip := rfl
@[simp] theorem acceptClrb_oracle (reg mask : Byte) : (acceptClrb reg mask s).oracle = s.oracle := rfl
@[simp] theorem acceptClrb_draws (reg mask : Byte) : (acceptClrb reg mask s).draws = s.draws := rfl
@[simp] theorem acceptClrb_history (reg mask : Byte) : (acceptClrb reg mask s).history = s.history ++ [.request (.clrb reg mask)] := rfl
@[simp] theorem acceptClrb_requests (reg mask : Byte) : (acceptClrb reg mask s).requests = s.requests := rfl

/-! ## acceptCrc -/

@[simp] theorem acceptCrc_cfg (data : List Byte) : (acceptCrc data s).cfg = s.cfg := rfl
@[simp] theorem acceptCrc_op (data : List Byte) : (acceptCrc data s).op = .crc := rfl
@[simp] theorem acceptCrc_reg (data : List Byte) : (acceptCrc data s).reg = s.reg := rfl
@[simp] theorem acceptCrc_val (data : List Byte) : (acceptCrc data s).val = s.val := rfl
@[simp] theorem acceptCrc_command (data : List Byte) : (acceptCrc data s).command = s.command := rfl
@[simp] theorem acceptCrc_send (data : List Byte) : (acceptCrc data s).send = data := rfl
@[simp] theorem acceptCrc_tmp (data : List Byte) : (acceptCrc data s).tmp = s.tmp := rfl
@[simp] theorem acceptCrc_irq (data : List Byte) : (acceptCrc data s).irq = s.irq := rfl
@[simp] theorem acceptCrc_err (data : List Byte) : (acceptCrc data s).err = s.err := rfl
@[simp] theorem acceptCrc_lvl (data : List Byte) : (acceptCrc data s).lvl = s.lvl := rfl
@[simp] theorem acceptCrc_n (data : List Byte) : (acceptCrc data s).n = s.n := rfl
@[simp] theorem acceptCrc_lastBits (data : List Byte) : (acceptCrc data s).lastBits = s.lastBits := rfl
@[simp] theorem acceptCrc_budget (data : List Byte) : (acceptCrc data s).budget = s.budget := rfl
@[simp] theorem acceptCrc_rdata (data : List Byte) : (acceptCrc data s).rdata = s.rdata := rfl
@[simp] theorem acceptCrc_crcLo (data : List Byte) : (acceptCrc data s).crcLo = s.crcLo := rfl
@[simp] theorem acceptCrc_crcHi (data : List Byte) : (acceptCrc data s).crcHi = s.crcHi := rfl
@[simp] theorem acceptCrc_status (data : List Byte) : (acceptCrc data s).status = s.status := rfl
@[simp] theorem acceptCrc_data (data : List Byte) : (acceptCrc data s).data = s.data := rfl
@[simp] theorem acceptCrc_dataLen (data : List Byte) : (acceptCrc data s).dataLen = s.dataLen := rfl
@[simp] theorem acceptCrc_bitLength (data : List Byte) : (acceptCrc data s).bitLength = s.bitLength := rfl
@[simp] theorem acceptCrc_seq (data : List Byte) : (acceptCrc data s).seq = .c1Read := rfl
@[simp] theorem acceptCrc_cs (data : List Byte) : (acceptCrc data s).cs = s.cs := rfl
@[simp] theorem acceptCrc_rx (data : List Byte) : (acceptCrc data s).rx = s.rx := rfl
@[simp] theorem acceptCrc_regs (data : List Byte) : (acceptCrc data s).regs = s.regs := rfl
@[simp] theorem acceptCrc_chip (data : List Byte) : (acceptCrc data s).chip = s.chip := rfl
@[simp] theorem acceptCrc_oracle (data : List Byte) : (acceptCrc data s).oracle = s.oracle := rfl
@[simp] theorem acceptCrc_draws (data : List Byte) : (acceptCrc data s).draws = s.draws := rfl
@[simp] theorem acceptCrc_history (data : List Byte) : (acceptCrc data s).history = s.history ++ [.request (.crc data)] := rfl
@[simp] theorem acceptCrc_requests (data : List Byte) : (acceptCrc data s).requests = s.requests := rfl

/-! ## acceptTocard -/

@[simp] theorem acceptTocard_cfg (command : Byte) (sendData : List Byte) : (acceptTocard command sendData s).cfg = s.cfg := rfl
@[simp] theorem acceptTocard_op (command : Byte) (sendData : List Byte) : (acceptTocard command sendData s).op = .tocard := rfl
@[simp] theorem acceptTocard_reg (command : Byte) (sendData : List Byte) : (acceptTocard command sendData s).reg = s.reg := rfl
@[simp] theorem acceptTocard_val (command : Byte) (sendData : List Byte) : (acceptTocard command sendData s).val = s.val := rfl
@[simp] theorem acceptTocard_command (command : Byte) (sendData : List Byte) : (acceptTocard command sendData s).command = command := rfl
@[simp] theorem acceptTocard_send (command : Byte) (sendData : List Byte) : (acceptTocard command sendData s).send = sendData := rfl
@[simp] theorem acceptTocard_tmp (command : Byte) (sendData : List Byte) : (acceptTocard command sendData s).tmp = s.tmp := rfl
@[simp] theorem acceptTocard_irq (command : Byte) (sendData : List Byte) : (acceptTocard command sendData s).irq = s.irq := rfl
@[simp] theorem acceptTocard_err (command : Byte) (sendData : List Byte) : (acceptTocard command sendData s).err = s.err := rfl
@[simp] theorem acceptTocard_lvl (command : Byte) (sendData : List Byte) : (acceptTocard command sendData s).lvl = s.lvl := rfl
@[simp] theorem acceptTocard_n (command : Byte) (sendData : List Byte) : (acceptTocard command sendData s).n = s.n := rfl
@[simp] theorem acceptTocard_lastBits (command : Byte) (sendData : List Byte) : (acceptTocard command sendData s).lastBits = s.lastBits := rfl
@[simp] theorem acceptTocard_budget (command : Byte) (sendData : List Byte) : (acceptTocard command sendData s).budget = s.cfg.pollBudgetTrx := rfl
@[simp] theorem acceptTocard_rdata (command : Byte) (sendData : List Byte) : (acceptTocard command sendData s).rdata = s.rdata := rfl
@[simp] theorem acceptTocard_crcLo (command : Byte) (sendData : List Byte) : (acceptTocard command sendData s).crcLo = s.crcLo := rfl
@[simp] theorem acceptTocard_crcHi (command : Byte) (sendData : List Byte) : (acceptTocard command sendData s).crcHi = s.crcHi := rfl
@[simp] theorem acceptTocard_status (command : Byte) (sendData : List Byte) : (acceptTocard command sendData s).status = .error := rfl
@[simp] theorem acceptTocard_data (command : Byte) (sendData : List Byte) : (acceptTocard command sendData s).data = s.data := rfl
@[simp] theorem acceptTocard_dataLen (command : Byte) (sendData : List Byte) : (acceptTocard command sendData s).dataLen = 0 := rfl
@[simp] theorem acceptTocard_bitLength (command : Byte) (sendData : List Byte) : (acceptTocard command sendData s).bitLength = 0 := rfl
@[simp] theorem acceptTocard_seq (command : Byte) (sendData : List Byte) : (acceptTocard command sendData s).seq = .t2Enable := rfl
@[simp] theorem acceptTocard_cs (command : Byte) (sendData : List Byte) : (acceptTocard command sendData s).cs = s.cs := rfl
@[simp] theorem acceptTocard_rx (command : Byte) (sendData : List Byte) : (acceptTocard command sendData s).rx = s.rx := rfl
@[simp] theorem acceptTocard_regs (command : Byte) (sendData : List Byte) : (acceptTocard command sendData s).regs = s.regs := rfl
@[simp] theorem acceptTocard_chip (command : Byte) (sendData : List Byte) : (acceptTocard command sendData s).chip = s.chip := rfl
@[simp] theorem acceptTocard_oracle (command : Byte) (sendData : List Byte) : (acceptTocard command sendData s).oracle = s.oracle := rfl
@[simp] theorem acceptTocard_draws (command : Byte) (sendData : List Byte) : (acceptTocard command sendData s).draws = s.draws := rfl
@[simp] theorem acceptTocard_history (command : Byte) (sendData : List Byte) : (acceptTocard command sendData s).history = s.history ++ [.request (.tocard command sendData)] := rfl
@[simp] theorem acceptTocard_requests (command : Byte) (sendData : List Byte) : (acceptTocard command sendData s).requests = s.requests := rfl

end Sys2Proof.Machine
end

