-- ==== Sys2Proof/Laws/Exchange.lean ====
section
/-! SUPPORT. What the chip's side of an exchange, and the exchange itself, can do: the engine's own registers stay,
the chip-select line ends high, one event is appended, and the unconstrained chip's answer is the next one. -/

namespace Sys2Proof.Machine

/-! ## The engine's own fields -/

/-- The engine's registers, position, parameters and queue are the same in both states. -/
structure SameEngine (s t : State) : Prop where
  cfg : t.cfg = s.cfg
  op : t.op = s.op
  reg : t.reg = s.reg
  val : t.val = s.val
  command : t.command = s.command
  send : t.send = s.send
  tmp : t.tmp = s.tmp
  irq : t.irq = s.irq
  err : t.err = s.err
  lvl : t.lvl = s.lvl
  n : t.n = s.n
  lastBits : t.lastBits = s.lastBits
  budget : t.budget = s.budget
  rdata : t.rdata = s.rdata
  crcLo : t.crcLo = s.crcLo
  crcHi : t.crcHi = s.crcHi
  status : t.status = s.status
  data : t.data = s.data
  dataLen : t.dataLen = s.dataLen
  bitLength : t.bitLength = s.bitLength
  seq : t.seq = s.seq
  requests : t.requests = s.requests

theorem SameEngine.refl (s : State) : SameEngine s s := by constructor <;> rfl

theorem SameEngine.trans {s t u : State} (h : SameEngine s t) (k : SameEngine t u) : SameEngine s u where
  cfg := k.cfg.trans h.cfg
  op := k.op.trans h.op
  reg := k.reg.trans h.reg
  val := k.val.trans h.val
  command := k.command.trans h.command
  send := k.send.trans h.send
  tmp := k.tmp.trans h.tmp
  irq := k.irq.trans h.irq
  err := k.err.trans h.err
  lvl := k.lvl.trans h.lvl
  n := k.n.trans h.n
  lastBits := k.lastBits.trans h.lastBits
  budget := k.budget.trans h.budget
  rdata := k.rdata.trans h.rdata
  crcLo := k.crcLo.trans h.crcLo
  crcHi := k.crcHi.trans h.crcHi
  status := k.status.trans h.status
  data := k.data.trans h.data
  dataLen := k.dataLen.trans h.dataLen
  bitLength := k.bitLength.trans h.bitLength
  seq := k.seq.trans h.seq
  requests := k.requests.trans h.requests

theorem busSelect_same (s : State) : SameEngine s (busSelect s) := by constructor <;> rfl
theorem busDeselect_same (s : State) : SameEngine s (busDeselect s) := by constructor <;> rfl
theorem record_same (e : Event) (s : State) : SameEngine s (record e s) := by constructor <;> rfl
theorem receive_same (v : Byte) (s : State) : SameEngine s (receive v s) := by constructor <;> rfl
theorem setSim_same (c : SimChip) (s : State) : SameEngine s (setSim c s) := by constructor <;> rfl
theorem setRegByte_same (a : RegAddr) (v : Byte) (s : State) : SameEngine s (s.setRegByte a v) := by
  constructor <;> rfl

theorem receiveFree_same (s : State) : SameEngine s (receiveFree s) := by
  unfold receiveFree; split <;> constructor <;> rfl

theorem simReadFifo_same (c : SimChip) (s : State) : SameEngine s (simReadFifo c s) := by
  unfold simReadFifo
  split
  · exact (setSim_same _ _).trans (receive_same _ _)
  · exact receiveFree_same _

theorem simReadLevel_same (c : SimChip) (s : State) : SameEngine s (simReadLevel c s) := by
  unfold simReadLevel
  split
  · exact receive_same _ _
  · exact receiveFree_same _

theorem simReadControl_same (c : SimChip) (s : State) : SameEngine s (simReadControl c s) := by
  unfold simReadControl
  simp only
  split
  · exact (receiveFree_same s).trans (receive_same _ _)
  · exact receiveFree_same s

theorem simReadCommIrq_same (c : SimChip) (s : State) : SameEngine s (simReadCommIrq c s) := by
  constructor <;> rfl

theorem simRead_same (a : RegAddr) (c : SimChip) (s : State) : SameEngine s (simRead a c s) := by
  unfold simRead
  split
  all_goals first
    | exact simReadFifo_same _ _
    | exact simReadLevel_same _ _
    | exact simReadControl_same _ _
    | exact simReadCommIrq_same _ _
    | exact receive_same _ _
    | exact (setSim_same _ _).trans (receive_same _ _)

theorem chipRead_same (a : RegAddr) (s : State) : SameEngine s (chipRead a s) := by
  unfold chipRead
  split
  · exact receiveFree_same _
  · exact simRead_same _ _ _
  · exact receiveFree_same _

theorem simWriteFifo_same (v : Byte) (c : SimChip) (s : State) : SameEngine s (simWriteFifo v c s) := by
  unfold simWriteFifo; split <;> constructor <;> rfl

theorem simCalcCrc_same (c : SimChip) (s : State) : SameEngine s (simCalcCrc c s) := by
  constructor <;> rfl

theorem simRedraw_same (c : SimChip) (s : State) : SameEngine s (simRedraw c s) := by
  have h := ((((((receiveFree_same s).trans (receiveFree_same _)).trans (receiveFree_same _)).trans
    (receiveFree_same _)).trans (receiveFree_same _)).trans (receiveFree_same _))
  refine h.trans ?_
  constructor <;> rfl

/-! A register with an address of its own keeps it under every choice of the parameters (log entry 34). -/

@[simp] theorem simPort_fifoData (cfg : Config.Params) : simPort cfg 0x09 = .fifoData := rfl
@[simp] theorem simPort_fifoLevel (cfg : Config.Params) : simPort cfg 0x0A = .fifoLevel := rfl
@[simp] theorem simPort_commIrq (cfg : Config.Params) : simPort cfg 0x04 = .commIrq := rfl
@[simp] theorem simPort_error (cfg : Config.Params) : simPort cfg 0x06 = .error := rfl
@[simp] theorem simPort_control (cfg : Config.Params) : simPort cfg 0x0C = .control := rfl
@[simp] theorem simPort_command (cfg : Config.Params) : simPort cfg 0x01 = .command := rfl
@[simp] theorem simPort_bitFraming (cfg : Config.Params) : simPort cfg 0x0D = .bitFraming := rfl

/-- A start of SimChip changes no engine register. -/
theorem startSim_same (c : SimChip) (s : State) : SameEngine s (startSim c s) :=
  SameEngine.trans (t := { s with regs := [] }) (by constructor <;> rfl) (simRedraw_same c _)

theorem simWriteCommand_same (v : Byte) (c : SimChip) (s : State) : SameEngine s (simWriteCommand v c s) := by
  unfold simWriteCommand
  split
  · exact simCalcCrc_same _ _
  · split
    · exact SameEngine.refl _
    · split
      · exact simRedraw_same _ _
      · split
        · exact setSim_same _ _
        · exact SameEngine.refl _

theorem simWriteBitFraming_same (v : Byte) (c : SimChip) (s : State) :
    SameEngine s (simWriteBitFraming v c s) := by
  unfold simWriteBitFraming; split <;> constructor <;> rfl

theorem simWrite_same (a : RegAddr) (v : Byte) (c : SimChip) (s : State) : SameEngine s (simWrite a v c s) := by
  unfold simWrite
  split
  all_goals first
    | exact simWriteFifo_same _ _ _
    | exact simWriteCommand_same _ _ _
    | exact simWriteBitFraming_same _ _ _
    | exact setSim_same _ _
    | exact SameEngine.refl _
    | (split <;> first | exact setSim_same _ _ | exact SameEngine.refl _)

theorem recordWrite_same (a : RegAddr) (v : Byte) (s : State) : SameEngine s (recordWrite a v s) := by
  unfold recordWrite
  split
  · constructor <;> rfl
  · exact setRegByte_same _ _ _

theorem chipWrite_same (a : RegAddr) (v : Byte) (s : State) : SameEngine s (chipWrite a v s) := by
  unfold chipWrite
  simp only
  split
  · exact recordWrite_same _ _ _
  · exact (recordWrite_same _ _ _).trans (simWrite_same _ _ _ _)
  · exact recordWrite_same _ _ _

theorem writeExchange_same (first second : Byte) (s : State) : SameEngine s (writeExchange first second s) :=
  (((busSelect_same s).trans (chipWrite_same _ _ _)).trans (record_same _ _)).trans (busDeselect_same _)

theorem readExchange_same (first second : Byte) (s : State) : SameEngine s (readExchange first second s) :=
  (((busSelect_same s).trans (chipRead_same _ _)).trans (record_same _ _)).trans (busDeselect_same _)

@[simp] theorem writeExchange_cfg (first second : Byte) (s : State) : (writeExchange first second s).cfg = s.cfg :=
  (writeExchange_same first second s).cfg
@[simp] theorem writeExchange_op (first second : Byte) (s : State) : (writeExchange first second s).op = s.op :=
  (writeExchange_same first second s).op
@[simp] theorem writeExchange_reg (first second : Byte) (s : State) : (writeExchange first second s).reg = s.reg :=
  (writeExchange_same first second s).reg
@[simp] theorem writeExchange_val (first second : Byte) (s : State) : (writeExchange first second s).val = s.val :=
  (writeExchange_same first second s).val
@[simp] theorem writeExchange_command (first second : Byte) (s : State) : (writeExchange first second s).command = s.command :=
  (writeExchange_same first second s).command
@[simp] theorem writeExchange_send (first second : Byte) (s : State) : (writeExchange first second s).send = s.send :=
  (writeExchange_same first second s).send
@[simp] theorem writeExchange_tmp (first second : Byte) (s : State) : (writeExchange first second s).tmp = s.tmp :=
  (writeExchange_same first second s).tmp
@[simp] theorem writeExchange_irq (first second : Byte) (s : State) : (writeExchange first second s).irq = s.irq :=
  (writeExchange_same first second s).irq
@[simp] theorem writeExchange_err (first second : Byte) (s : State) : (writeExchange first second s).err = s.err :=
  (writeExchange_same first second s).err
@[simp] theorem writeExchange_lvl (first second : Byte) (s : State) : (writeExchange first second s).lvl = s.lvl :=
  (writeExchange_same first second s).lvl
@[simp] theorem writeExchange_n (first second : Byte) (s : State) : (writeExchange first second s).n = s.n :=
  (writeExchange_same first second s).n
@[simp] theorem writeExchange_lastBits (first second : Byte) (s : State) : (writeExchange first second s).lastBits = s.lastBits :=
  (writeExchange_same first second s).lastBits
@[simp] theorem writeExchange_budget (first second : Byte) (s : State) : (writeExchange first second s).budget = s.budget :=
  (writeExchange_same first second s).budget
@[simp] theorem writeExchange_rdata (first second : Byte) (s : State) : (writeExchange first second s).rdata = s.rdata :=
  (writeExchange_same first second s).rdata
@[simp] theorem writeExchange_crcLo (first second : Byte) (s : State) : (writeExchange first second s).crcLo = s.crcLo :=
  (writeExchange_same first second s).crcLo
@[simp] theorem writeExchange_crcHi (first second : Byte) (s : State) : (writeExchange first second s).crcHi = s.crcHi :=
  (writeExchange_same first second s).crcHi
@[simp] theorem writeExchange_status (first second : Byte) (s : State) : (writeExchange first second s).status = s.status :=
  (writeExchange_same first second s).status
@[simp] theorem writeExchange_data (first second : Byte) (s : State) : (writeExchange first second s).data = s.data :=
  (writeExchange_same first second s).data
@[simp] theorem writeExchange_dataLen (first second : Byte) (s : State) : (writeExchange first second s).dataLen = s.dataLen :=
  (writeExchange_same first second s).dataLen
@[simp] theorem writeExchange_bitLength (first second : Byte) (s : State) : (writeExchange first second s).bitLength = s.bitLength :=
  (writeExchange_same first second s).bitLength
@[simp] theorem writeExchange_seq (first second : Byte) (s : State) : (writeExchange first second s).seq = s.seq :=
  (writeExchange_same first second s).seq
@[simp] theorem writeExchange_requests (first second : Byte) (s : State) : (writeExchange first second s).requests = s.requests :=
  (writeExchange_same first second s).requests
@[simp] theorem readExchange_cfg (first second : Byte) (s : State) : (readExchange first second s).cfg = s.cfg :=
  (readExchange_same first second s).cfg
@[simp] theorem readExchange_op (first second : Byte) (s : State) : (readExchange first second s).op = s.op :=
  (readExchange_same first second s).op
@[simp] theorem readExchange_reg (first second : Byte) (s : State) : (readExchange first second s).reg = s.reg :=
  (readExchange_same first second s).reg
@[simp] theorem readExchange_val (first second : Byte) (s : State) : (readExchange first second s).val = s.val :=
  (readExchange_same first second s).val
@[simp] theorem readExchange_command (first second : Byte) (s : State) : (readExchange first second s).command = s.command :=
  (readExchange_same first second s).command
@[simp] theorem readExchange_send (first second : Byte) (s : State) : (readExchange first second s).send = s.send :=
  (readExchange_same first second s).send
@[simp] theorem readExchange_tmp (first second : Byte) (s : State) : (readExchange first second s).tmp = s.tmp :=
  (readExchange_same first second s).tmp
@[simp] theorem readExchange_irq (first second : Byte) (s : State) : (readExchange first second s).irq = s.irq :=
  (readExchange_same first second s).irq
@[simp] theorem readExchange_err (first second : Byte) (s : State) : (readExchange first second s).err = s.err :=
  (readExchange_same first second s).err
@[simp] theorem readExchange_lvl (first second : Byte) (s : State) : (readExchange first second s).lvl = s.lvl :=
  (readExchange_same first second s).lvl
@[simp] theorem readExchange_n (first second : Byte) (s : State) : (readExchange first second s).n = s.n :=
  (readExchange_same first second s).n
@[simp] theorem readExchange_lastBits (first second : Byte) (s : State) : (readExchange first second s).lastBits = s.lastBits :=
  (readExchange_same first second s).lastBits
@[simp] theorem readExchange_budget (first second : Byte) (s : State) : (readExchange first second s).budget = s.budget :=
  (readExchange_same first second s).budget
@[simp] theorem readExchange_rdata (first second : Byte) (s : State) : (readExchange first second s).rdata = s.rdata :=
  (readExchange_same first second s).rdata
@[simp] theorem readExchange_crcLo (first second : Byte) (s : State) : (readExchange first second s).crcLo = s.crcLo :=
  (readExchange_same first second s).crcLo
@[simp] theorem readExchange_crcHi (first second : Byte) (s : State) : (readExchange first second s).crcHi = s.crcHi :=
  (readExchange_same first second s).crcHi
@[simp] theorem readExchange_status (first second : Byte) (s : State) : (readExchange first second s).status = s.status :=
  (readExchange_same first second s).status
@[simp] theorem readExchange_data (first second : Byte) (s : State) : (readExchange first second s).data = s.data :=
  (readExchange_same first second s).data
@[simp] theorem readExchange_dataLen (first second : Byte) (s : State) : (readExchange first second s).dataLen = s.dataLen :=
  (readExchange_same first second s).dataLen
@[simp] theorem readExchange_bitLength (first second : Byte) (s : State) : (readExchange first second s).bitLength = s.bitLength :=
  (readExchange_same first second s).bitLength
@[simp] theorem readExchange_seq (first second : Byte) (s : State) : (readExchange first second s).seq = s.seq :=
  (readExchange_same first second s).seq
@[simp] theorem readExchange_requests (first second : Byte) (s : State) : (readExchange first second s).requests = s.requests :=
  (readExchange_same first second s).requests
@[simp] theorem regWrite_cfg (reg v : Byte) (s : State) : (regWrite reg v s).cfg = s.cfg :=
  writeExchange_cfg _ _ s
@[simp] theorem regWrite_op (reg v : Byte) (s : State) : (regWrite reg v s).op = s.op :=
  writeExchange_op _ _ s
@[simp] theorem regWrite_reg (reg v : Byte) (s : State) : (regWrite reg v s).reg = s.reg :=
  writeExchange_reg _ _ s
@[simp] theorem regWrite_val (reg v : Byte) (s : State) : (regWrite reg v s).val = s.val :=
  writeExchange_val _ _ s
@[simp] theorem regWrite_command (reg v : Byte) (s : State) : (regWrite reg v s).command = s.command :=
  writeExchange_command _ _ s
@[simp] theorem regWrite_send (reg v : Byte) (s : State) : (regWrite reg v s).send = s.send :=
  writeExchange_send _ _ s
@[simp] theorem regWrite_tmp (reg v : Byte) (s : State) : (regWrite reg v s).tmp = s.tmp :=
  writeExchange_tmp _ _ s
@[simp] theorem regWrite_irq (reg v : Byte) (s : State) : (regWrite reg v s).irq = s.irq :=
  writeExchange_irq _ _ s
@[simp] theorem regWrite_err (reg v : Byte) (s : State) : (regWrite reg v s).err = s.err :=
  writeExchange_err _ _ s
@[simp] theorem regWrite_lvl (reg v : Byte) (s : State) : (regWrite reg v s).lvl = s.lvl :=
  writeExchange_lvl _ _ s
@[simp] theorem regWrite_n (reg v : Byte) (s : State) : (regWrite reg v s).n = s.n :=
  writeExchange_n _ _ s
@[simp] theorem regWrite_lastBits (reg v : Byte) (s : State) : (regWrite reg v s).lastBits = s.lastBits :=
  writeExchange_lastBits _ _ s
@[simp] theorem regWrite_budget (reg v : Byte) (s : State) : (regWrite reg v s).budget = s.budget :=
  writeExchange_budget _ _ s
@[simp] theorem regWrite_rdata (reg v : Byte) (s : State) : (regWrite reg v s).rdata = s.rdata :=
  writeExchange_rdata _ _ s
@[simp] theorem regWrite_crcLo (reg v : Byte) (s : State) : (regWrite reg v s).crcLo = s.crcLo :=
  writeExchange_crcLo _ _ s
@[simp] theorem regWrite_crcHi (reg v : Byte) (s : State) : (regWrite reg v s).crcHi = s.crcHi :=
  writeExchange_crcHi _ _ s
@[simp] theorem regWrite_status (reg v : Byte) (s : State) : (regWrite reg v s).status = s.status :=
  writeExchange_status _ _ s
@[simp] theorem regWrite_data (reg v : Byte) (s : State) : (regWrite reg v s).data = s.data :=
  writeExchange_data _ _ s
@[simp] theorem regWrite_dataLen (reg v : Byte) (s : State) : (regWrite reg v s).dataLen = s.dataLen :=
  writeExchange_dataLen _ _ s
@[simp] theorem regWrite_bitLength (reg v : Byte) (s : State) : (regWrite reg v s).bitLength = s.bitLength :=
  writeExchange_bitLength _ _ s
@[simp] theorem regWrite_seq (reg v : Byte) (s : State) : (regWrite reg v s).seq = s.seq :=
  writeExchange_seq _ _ s
@[simp] theorem regWrite_requests (reg v : Byte) (s : State) : (regWrite reg v s).requests = s.requests :=
  writeExchange_requests _ _ s
@[simp] theorem regRead_cfg (reg : Byte) (s : State) : (regRead reg s).cfg = s.cfg :=
  readExchange_cfg _ _ s
@[simp] theorem regRead_op (reg : Byte) (s : State) : (regRead reg s).op = s.op :=
  readExchange_op _ _ s
@[simp] theorem regRead_reg (reg : Byte) (s : State) : (regRead reg s).reg = s.reg :=
  readExchange_reg _ _ s
@[simp] theorem regRead_val (reg : Byte) (s : State) : (regRead reg s).val = s.val :=
  readExchange_val _ _ s
@[simp] theorem regRead_command (reg : Byte) (s : State) : (regRead reg s).command = s.command :=
  readExchange_command _ _ s
@[simp] theorem regRead_send (reg : Byte) (s : State) : (regRead reg s).send = s.send :=
  readExchange_send _ _ s
@[simp] theorem regRead_tmp (reg : Byte) (s : State) : (regRead reg s).tmp = s.tmp :=
  readExchange_tmp _ _ s
@[simp] theorem regRead_irq (reg : Byte) (s : State) : (regRead reg s).irq = s.irq :=
  readExchange_irq _ _ s
@[simp] theorem regRead_err (reg : Byte) (s : State) : (regRead reg s).err = s.err :=
  readExchange_err _ _ s
@[simp] theorem regRead_lvl (reg : Byte) (s : State) : (regRead reg s).lvl = s.lvl :=
  readExchange_lvl _ _ s
@[simp] theorem regRead_n (reg : Byte) (s : State) : (regRead reg s).n = s.n :=
  readExchange_n _ _ s
@[simp] theorem regRead_lastBits (reg : Byte) (s : State) : (regRead reg s).lastBits = s.lastBits :=
  readExchange_lastBits _ _ s
@[simp] theorem regRead_budget (reg : Byte) (s : State) : (regRead reg s).budget = s.budget :=
  readExchange_budget _ _ s
@[simp] theorem regRead_rdata (reg : Byte) (s : State) : (regRead reg s).rdata = s.rdata :=
  readExchange_rdata _ _ s
@[simp] theorem regRead_crcLo (reg : Byte) (s : State) : (regRead reg s).crcLo = s.crcLo :=
  readExchange_crcLo _ _ s
@[simp] theorem regRead_crcHi (reg : Byte) (s : State) : (regRead reg s).crcHi = s.crcHi :=
  readExchange_crcHi _ _ s
@[simp] theorem regRead_status (reg : Byte) (s : State) : (regRead reg s).status = s.status :=
  readExchange_status _ _ s
@[simp] theorem regRead_data (reg : Byte) (s : State) : (regRead reg s).data = s.data :=
  readExchange_data _ _ s
@[simp] theorem regRead_dataLen (reg : Byte) (s : State) : (regRead reg s).dataLen = s.dataLen :=
  readExchange_dataLen _ _ s
@[simp] theorem regRead_bitLength (reg : Byte) (s : State) : (regRead reg s).bitLength = s.bitLength :=
  readExchange_bitLength _ _ s
@[simp] theorem regRead_seq (reg : Byte) (s : State) : (regRead reg s).seq = s.seq :=
  readExchange_seq _ _ s
@[simp] theorem regRead_requests (reg : Byte) (s : State) : (regRead reg s).requests = s.requests :=
  readExchange_requests _ _ s

/-! ## Chip-select and history -/

@[simp] theorem writeExchange_cs (first second : Byte) (s : State) : (writeExchange first second s).cs = .high := rfl
@[simp] theorem readExchange_cs (first second : Byte) (s : State) : (readExchange first second s).cs = .high := rfl
@[simp] theorem regWrite_cs (reg v : Byte) (s : State) : (regWrite reg v s).cs = .high := rfl
@[simp] theorem regRead_cs (reg : Byte) (s : State) : (regRead reg s).cs = .high := rfl

@[simp] theorem receiveFree_cs (s : State) : (receiveFree s).cs = s.cs := by unfold receiveFree; split <;> rfl

@[simp] theorem receiveFree_history (s : State) : (receiveFree s).history = s.history := by
  unfold receiveFree; split <;> rfl

theorem simRead_history (a : RegAddr) (c : SimChip) (s : State) : (simRead a c s).history = s.history := by
  unfold simRead
  split
  all_goals try simp only [simReadFifo, simReadLevel, simReadControl, simReadCommIrq, simReadPlain]
  all_goals first
    | rfl
    | split <;> simp

@[simp] theorem chipRead_history (a : RegAddr) (s : State) : (chipRead a s).history = s.history := by
  unfold chipRead
  split
  · simp
  · exact simRead_history _ _ _
  · simp

theorem simWrite_history (a : RegAddr) (v : Byte) (c : SimChip) (s : State) :
    (simWrite a v c s).history = s.history := by
  unfold simWrite
  split
  all_goals
    try simp only [simWriteFifo, simWriteCommand, simWriteBitFraming, simCalcCrc, simSoftReset, simRedraw, setSim_history]
  all_goals repeat' split
  all_goals first | rfl | simp

@[simp] theorem recordWrite_history (a : RegAddr) (v : Byte) (s : State) :
    (recordWrite a v s).history = s.history := by
  unfold recordWrite; split <;> rfl

@[simp] theorem chipWrite_history (a : RegAddr) (v : Byte) (s : State) : (chipWrite a v s).history = s.history := by
  unfold chipWrite
  simp only
  split
  · simp
  · rw [simWrite_history]; simp
  · simp

@[simp] theorem writeExchange_history (first second : Byte) (s : State) :
    (writeExchange first second s).history = s.history ++ [.write first second] := by
  simp [writeExchange]

@[simp] theorem readExchange_history (first second : Byte) (s : State) :
    (readExchange first second s).history = s.history ++ [.read first second (readExchange first second s).rx] := by
  simp [readExchange]

@[simp] theorem regWrite_history (reg v : Byte) (s : State) :
    (regWrite reg v s).history = s.history ++ [Event.W reg v] := writeExchange_history _ _ s

@[simp] theorem regRead_history (reg : Byte) (s : State) :
    (regRead reg s).history = s.history ++ [Event.R s.cfg reg (regRead reg s).rx] := readExchange_history _ _ s

/-! ## Chip registers -/

@[simp] theorem receiveFree_regs (s : State) : (receiveFree s).regs = s.regs := by
  unfold receiveFree; split <;> rfl

/-- A start of SimChip, whole: nothing pending, the FIFO inside its capacity, no register written, the tables and scripts and
the model's `rx`, chip-select and history as they were. With `startSim_same` this is all that a caller needs. -/
theorem startSim_starts (c : SimChip) (s : State) :
    ∃ c', (startSim c s).chip = .sim c' ∧ c'.pending = .none ∧ c'.fifo.length ≤ s.cfg.fifoCap ∧ c'.tags = c.tags ∧
      c'.crcs = c.crcs ∧ c'.delays = c.delays ∧ c'.silent = c.silent ∧ (startSim c s).regs = [] ∧
      (startSim c s).rx = s.rx ∧ (startSim c s).cs = s.cs ∧ (startSim c s).history = s.history :=
  ⟨_, rfl, rfl, by simp, rfl, rfl, rfl, rfl, by simp [startSim, simRedraw, setSim], rfl,
    by simp [startSim, simRedraw, setSim], by simp [startSim, simRedraw, setSim]⟩

theorem simRead_regs (a : RegAddr) (c : SimChip) (s : State) : (simRead a c s).regs = s.regs := by
  unfold simRead
  split
  all_goals try simp only [simReadFifo, simReadLevel, simReadControl, simReadCommIrq, simReadPlain]
  all_goals first
    | rfl
    | split <;> simp

@[simp] theorem chipRead_regs (a : RegAddr) (s : State) : (chipRead a s).regs = s.regs := by
  unfold chipRead
  split
  · simp
  · exact simRead_regs _ _ _
  · simp

theorem simWrite_regs (a : RegAddr) (v : Byte) (c : SimChip) (s : State) : (simWrite a v c s).regs = s.regs := by
  unfold simWrite
  split
  all_goals
    try simp only [simWriteFifo, simWriteCommand, simWriteBitFraming, simCalcCrc, simSoftReset, simRedraw, setSim_regs]
  all_goals repeat' split
  all_goals first | rfl | simp

theorem recordWrite_regs (first v : Byte) (s : State) :
    (recordWrite (addressOnWire first) v s).regs = Memory.afterEvent s.regs (.write first v) := by
  simp only [recordWrite, Memory.afterEvent]
  split <;> rfl

@[simp] theorem chipWrite_regs (a : RegAddr) (v : Byte) (s : State) :
    (chipWrite a v s).regs = (recordWrite a v s).regs := by
  unfold chipWrite
  simp only
  split
  · rfl
  · exact simWrite_regs _ _ _ _
  · rfl

@[simp] theorem writeExchange_regs (first second : Byte) (s : State) :
    (writeExchange first second s).regs = Memory.afterEvent s.regs (.write first second) := by
  simp [writeExchange, recordWrite_regs]

@[simp] theorem readExchange_regs (first second : Byte) (s : State) :
    (readExchange first second s).regs = s.regs := by
  simp [readExchange]

@[simp] theorem regWrite_regs (reg v : Byte) (s : State) :
    (regWrite reg v s).regs = Memory.afterEvent s.regs (Event.W reg v) := writeExchange_regs _ _ s

@[simp] theorem regRead_regs (reg : Byte) (s : State) : (regRead reg s).regs = s.regs := readExchange_regs _ _ s

/-- A read exchange stores nothing in the chip register space. -/
@[simp] theorem Memory.afterEvent_R (m : Memory) (cfg : Config.Params) (reg v : Byte) :
    Memory.afterEvent m (Event.R cfg reg v) = m := rfl

/-- An exchange event keeps the canonical form of the chip register space. -/
theorem Memory.wf_afterEvent (m : Memory) (e : Event) (h : Memory.wf m = true) :
    Memory.wf (Memory.afterEvent m e) = true := by
  cases e with
  | write first v =>
    simp only [Memory.afterEvent]
    split
    · rfl
    · exact Memory.wf_write m v h (inChip_toNat _)
  | request _ => exact h
  | read _ _ _ => exact h
  | complete _ => exact h

/-! ## The unconstrained chip -/

theorem receiveFree_eq (s : State) : receiveFree s = { s.took 1 with rx := s.answer 0 } := by
  unfold receiveFree State.took State.answer
  split
  · next v rest h => simp [h]
  · next h => simp [h]

/-- A write exchange with the unconstrained chip. -/
theorem writeExchange_unconstrained (first second : Byte) (s : State) (h : s.chip = .unconstrained) :
    writeExchange first second s =
      { s with
        cs := .high
        regs := Memory.afterEvent s.regs (.write first second)
        history := s.history ++ [.write first second] } := by
  have hr := recordWrite_regs first second (busSelect s)
  have hc : (recordWrite (addressOnWire first) second (busSelect s)).chip = .unconstrained := by
    unfold recordWrite; split <;> exact h
  have hw : chipWrite (addressOnWire first) second (busSelect s) =
      recordWrite (addressOnWire first) second (busSelect s) := by
    unfold chipWrite; simp only [hc]
  unfold writeExchange
  rw [hw]
  unfold recordWrite at hr ⊢
  split at hr <;> simp only [busSelect_regs] at hr <;>
    simp only [*, if_false, busDeselect, record, busSelect, State.setRegByte] <;>
    simp_all [State.setRegByte, busSelect]

/-- A read exchange with the unconstrained chip: the next answer, taken. -/
theorem readExchange_unconstrained (first second : Byte) (s : State) (h : s.chip = .unconstrained) :
    readExchange first second s =
      { s.took 1 with
        cs := .high
        rx := s.answer 0
        history := s.history ++ [.read first second (s.answer 0)] } := by
  have hc : chipRead (addressOnWire first) (busSelect s) = receiveFree (busSelect s) := by
    unfold chipRead; simp [h]
  unfold readExchange
  simp only [hc, receiveFree_eq]
  rfl

theorem regWrite_unconstrained (reg v : Byte) (s : State) (h : s.chip = .unconstrained) :
    regWrite reg v s =
      { s with
        cs := .high
        regs := Memory.afterEvent s.regs (Event.W reg v)
        history := s.history ++ [Event.W reg v] } := writeExchange_unconstrained _ _ s h

theorem regRead_unconstrained (reg : Byte) (s : State) (h : s.chip = .unconstrained) :
    regRead reg s =
      { s.took 1 with
        cs := .high
        rx := s.answer 0
        history := s.history ++ [Event.R s.cfg reg (s.answer 0)] } := readExchange_unconstrained _ _ s h

@[simp] theorem took_took (j k : Nat) (s : State) : (s.took j).took k = s.took (j + k) := by
  simp only [State.took, List.drop_drop, List.length_drop]
  congr 1
  omega

@[simp] theorem took_answer (j k : Nat) (s : State) : (s.took j).answer k = s.answer (j + k) := by
  simp only [State.answer, State.took, List.getElem?_drop, List.length_drop]
  by_cases h : j + k < s.oracle.length
  · simp [List.getElem?_eq_getElem h]
  · rw [List.getElem?_eq_none (by omega)]
    simp only [Option.getD_none]
    congr 1
    omega

/-! ## The chip's kind -/

theorem receiveFree_chip (s : State) : (receiveFree s).chip = s.chip := by
  unfold receiveFree; split <;> rfl

/-- The unconstrained chip stays so, and a chip without a step stays without one. -/
theorem chipRead_chip (a : RegAddr) (s : State) (h : s.chip = .unconstrained ∨ s.chip = .stuck) :
    (chipRead a s).chip = s.chip := by
  unfold chipRead
  rcases h with h | h <;> simp [h, receiveFree_chip]

theorem chipWrite_chip (a : RegAddr) (v : Byte) (s : State) (h : s.chip = .unconstrained ∨ s.chip = .stuck) :
    (chipWrite a v s).chip = s.chip := by
  have hr : (recordWrite a v s).chip = s.chip := by unfold recordWrite; split <;> rfl
  unfold chipWrite
  rcases h with h | h <;> simp [hr, h]

theorem writeExchange_chip (first second : Byte) (s : State) (h : s.chip = .unconstrained ∨ s.chip = .stuck) :
    (writeExchange first second s).chip = s.chip := by
  simpa [writeExchange] using chipWrite_chip (addressOnWire first) second (busSelect s) (by simpa using h)

theorem readExchange_chip (first second : Byte) (s : State) (h : s.chip = .unconstrained ∨ s.chip = .stuck) :
    (readExchange first second s).chip = s.chip := by
  simpa [readExchange] using chipRead_chip (addressOnWire first) (busSelect s) (by simpa using h)

theorem regWrite_chip (reg v : Byte) (s : State) (h : s.chip = .unconstrained ∨ s.chip = .stuck) :
    (regWrite reg v s).chip = s.chip := writeExchange_chip _ _ s h

theorem regRead_chip (reg : Byte) (s : State) (h : s.chip = .unconstrained ∨ s.chip = .stuck) :
    (regRead reg s).chip = s.chip := readExchange_chip _ _ s h

/-! ## The bound of SimChip's FIFO (R89) -/

@[simp] theorem receiveFree_cfg (s : State) : (receiveFree s).cfg = s.cfg := (receiveFree_same s).cfg

@[simp] theorem answerFifo_length (cfg : Config.Params) (draws : Nat) (r : List Byte) :
    (answerFifo cfg draws r).length ≤ cfg.fifoCap := by
  unfold answerFifo
  split
  · assumption
  · simp

theorem pollTransceive_fits (cfg : Config.Params) (draws : Nat) (c : SimChip) (h : c.fifo.length ≤ cfg.fifoCap) :
    (c.pollTransceive cfg draws).fifo.length ≤ cfg.fifoCap := by
  unfold SimChip.pollTransceive
  split
  · exact answerFifo_length _ _ _
  all_goals exact h

theorem pollCrc_fifo (cfg : Config.Params) (c : SimChip) : (c.pollCrc cfg).fifo = c.fifo := by
  unfold SimChip.pollCrc; split <;> rfl

/-- What SimChip draws afresh keeps the bound. -/
theorem simRedraw_fits (c : SimChip) (s : State) : (simRedraw c s).chip.fits s.cfg.fifoCap = true := by
  simp [simRedraw, setSim, Chip.fits]

theorem simRead_fits (a : RegAddr) (c : SimChip) (s : State) (hc : s.chip = .sim c)
    (h : s.chip.fits s.cfg.fifoCap = true) : (simRead a c s).chip.fits s.cfg.fifoCap = true := by
  have hl : c.fifo.length ≤ s.cfg.fifoCap := by simpa [hc, Chip.fits] using h
  have hf : (receiveFree s).chip.fits s.cfg.fifoCap = true := by rw [receiveFree_chip]; exact h
  unfold simRead
  split
  · unfold simReadFifo
    split
    · next v rest e => rw [e] at hl; simp [receive, setSim, Chip.fits] at hl ⊢; omega
    · exact hf
  · unfold simReadLevel; split
    · exact h
    · exact hf
  · have := pollTransceive_fits s.cfg s.draws c hl
    simpa [simReadCommIrq, receive, setSim, Chip.fits] using this
  · simpa [receive, setSim, Chip.fits, pollCrc_fifo] using hl
  · exact h
  · unfold simReadControl; simp only; split
    · exact hf
    · exact hf
  all_goals exact h

theorem simWrite_fits (a : RegAddr) (v : Byte) (c : SimChip) (s : State) (hc : s.chip = .sim c)
    (h : s.chip.fits s.cfg.fifoCap = true) : (simWrite a v c s).chip.fits s.cfg.fifoCap = true := by
  have hl : c.fifo.length ≤ s.cfg.fifoCap := by simpa [hc, Chip.fits] using h
  unfold simWrite
  split
  · unfold simWriteFifo; split
    · simp [setSim, Chip.fits]; omega
    · rfl
  · split
    · simp [setSim, Chip.fits]
    · exact h
  · unfold SimChip.writeCommIrq; split <;> simpa [setSim, Chip.fits] using hl
  · simpa [setSim, Chip.fits] using hl
  · exact h
  · exact h
  · exact h
  · exact h
  · unfold simWriteCommand; split
    · simp [simCalcCrc, setSim, Chip.fits]
    · split
      · exact h
      · split
        · exact simRedraw_fits c s
        · split
          · simpa [setSim, Chip.fits] using hl
          · exact h
  · unfold simWriteBitFraming; split
    · simp [setSim, Chip.fits]
    · exact h
  · exact h

theorem chipRead_fits (a : RegAddr) (s : State) (h : s.chip.fits s.cfg.fifoCap = true) :
    (chipRead a s).chip.fits s.cfg.fifoCap = true := by
  unfold chipRead
  split
  · rw [receiveFree_chip]; exact h
  · next c hc => exact simRead_fits a c s hc h
  · rw [receiveFree_chip]; exact h

theorem chipWrite_fits (a : RegAddr) (v : Byte) (s : State) (h : s.chip.fits s.cfg.fifoCap = true) :
    (chipWrite a v s).chip.fits s.cfg.fifoCap = true := by
  have hr : (recordWrite a v s).chip = s.chip ∧ (recordWrite a v s).cfg = s.cfg := by
    unfold recordWrite; split <;> exact ⟨rfl, rfl⟩
  unfold chipWrite
  simp only
  split
  · rw [hr.1]; exact h
  · next c hc =>
    rw [← hr.2]
    exact simWrite_fits a v c _ hc (by rw [hr.1, hr.2]; exact h)
  · rw [hr.1]; exact h

/-- An exchange keeps SimChip's FIFO inside its capacity. -/
theorem writeExchange_fits (first second : Byte) (s : State) (h : s.chip.fits s.cfg.fifoCap = true) :
    (writeExchange first second s).chip.fits s.cfg.fifoCap = true :=
  chipWrite_fits (addressOnWire first) second (busSelect s) h

/-- See `writeExchange_fits`. -/
theorem readExchange_fits (first second : Byte) (s : State) (h : s.chip.fits s.cfg.fifoCap = true) :
    (readExchange first second s).chip.fits s.cfg.fifoCap = true :=
  chipRead_fits (addressOnWire first) (busSelect s) h

end Sys2Proof.Machine
end

