-- ==== Sys2Proof/Laws/Fields.lean ====
section
/-! SUPPORT. Which engine fields each shared operation writes: all others are as before, whichever chip answers. Each
lemma says that the state after has the engine of the state before, but for the fields named in its update; a
projection of it, such as `(setBits_same reg mask s).cfg`, is the lemma of one field. -/

namespace Sys2Proof.Machine

theorem readTmp_same (reg : Byte) (s : State) :
    SameEngine { s with tmp := (readTmp reg s).tmp } (readTmp reg s) := by
  constructor <;> simp [readTmp]

theorem regWrite_same (reg v : Byte) (s : State) : SameEngine s (regWrite reg v s) := writeExchange_same _ _ s

theorem regRead_same (reg : Byte) (s : State) : SameEngine s (regRead reg s) := readExchange_same _ _ s

theorem writeTmpOr_same (reg mask : Byte) (s : State) : SameEngine s (writeTmpOr reg mask s) :=
  regWrite_same _ _ s

theorem writeTmpAndNot_same (reg mask : Byte) (s : State) : SameEngine s (writeTmpAndNot reg mask s) :=
  regWrite_same _ _ s

theorem setBits_same (reg mask : Byte) (s : State) :
    SameEngine { s with tmp := (setBits reg mask s).tmp } (setBits reg mask s) := by
  constructor <;> simp [setBits, writeTmpOr, readTmp]

theorem clearBits_same (reg mask : Byte) (s : State) :
    SameEngine { s with tmp := (clearBits reg mask s).tmp } (clearBits reg mask s) := by
  constructor <;> simp [clearBits, writeTmpAndNot, readTmp]

theorem issue_same (c : Byte) (s : State) : SameEngine s (issue c s) := regWrite_same _ _ s

theorem flushFifo_same (s : State) : SameEngine { s with tmp := (flushFifo s).tmp } (flushFifo s) :=
  setBits_same _ _ s

theorem startSend_same (s : State) : SameEngine { s with tmp := (startSend s).tmp } (startSend s) :=
  setBits_same _ _ s

theorem stopSend_same (s : State) : SameEngine { s with tmp := (stopSend s).tmp } (stopSend s) :=
  clearBits_same _ _ s

theorem loadFifo_same (bytes : List Byte) (s : State) : SameEngine s (loadFifo bytes s) := by
  induction bytes generalizing s with
  | nil => exact SameEngine.refl s
  | cons b rest ih => exact (regWrite_same _ _ s).trans (ih _)

theorem pollRead_same (reg : Byte) (s : State) :
    SameEngine { s with irq := (pollRead reg s).irq, budget := s.budget - 1 } (pollRead reg s) := by
  constructor <;> simp [pollRead]

/-- A poll loop writes `irq` and `budget` alone. -/
theorem pollLoop_same (done : Config.Params → Nat → Byte → Bool) (reg : Byte) (more : Nat) (s : State) :
    SameEngine { s with irq := (pollLoop done reg more s).irq, budget := (pollLoop done reg more s).budget }
      (pollLoop done reg more s) := by
  induction more generalizing s with
  | zero => constructor <;> simp [pollLoop, pollRead]
  | succ m ih =>
    have hp := pollRead_same reg s
    simp only [pollLoop]
    split
    · constructor <;> simp [pollRead]
    · have hi := ih (pollRead reg s)
      constructor
      case irq => rfl
      case budget => rfl
      case cfg => exact hi.cfg.trans hp.cfg
      case op => exact hi.op.trans hp.op
      case reg => exact hi.reg.trans hp.reg
      case val => exact hi.val.trans hp.val
      case command => exact hi.command.trans hp.command
      case send => exact hi.send.trans hp.send
      case tmp => exact hi.tmp.trans hp.tmp
      case err => exact hi.err.trans hp.err
      case lvl => exact hi.lvl.trans hp.lvl
      case n => exact hi.n.trans hp.n
      case lastBits => exact hi.lastBits.trans hp.lastBits
      case rdata => exact hi.rdata.trans hp.rdata
      case crcLo => exact hi.crcLo.trans hp.crcLo
      case crcHi => exact hi.crcHi.trans hp.crcHi
      case status => exact hi.status.trans hp.status
      case data => exact hi.data.trans hp.data
      case dataLen => exact hi.dataLen.trans hp.dataLen
      case bitLength => exact hi.bitLength.trans hp.bitLength
      case seq => exact hi.seq.trans hp.seq
      case requests => exact hi.requests.trans hp.requests

theorem readData_same (i : Nat) (s : State) :
    SameEngine { s with data := (readData i s).data } (readData i s) := by
  constructor <;> simp [readData]

/-- The drain's reads write `data` alone. -/
theorem drainBytes_same (count i : Nat) (s : State) :
    SameEngine { s with data := (drainBytes count i s).data } (drainBytes count i s) := by
  induction count generalizing i s with
  | zero => exact SameEngine.refl s
  | succ m ih =>
    have hi := ih (i + 1) (readData i s)
    simp only [drainBytes]
    constructor
    case data => rfl
    all_goals first
      | (rw [hi.cfg]; simp [readData])
      | (rw [hi.op]; simp [readData])
      | (rw [hi.reg]; simp [readData])
      | (rw [hi.val]; simp [readData])
      | (rw [hi.command]; simp [readData])
      | (rw [hi.send]; simp [readData])
      | (rw [hi.tmp]; simp [readData])
      | (rw [hi.irq]; simp [readData])
      | (rw [hi.err]; simp [readData])
      | (rw [hi.lvl]; simp [readData])
      | (rw [hi.n]; simp [readData])
      | (rw [hi.lastBits]; simp [readData])
      | (rw [hi.budget]; simp [readData])
      | (rw [hi.rdata]; simp [readData])
      | (rw [hi.crcLo]; simp [readData])
      | (rw [hi.crcHi]; simp [readData])
      | (rw [hi.status]; simp [readData])
      | (rw [hi.dataLen]; simp [readData])
      | (rw [hi.bitLength]; simp [readData])
      | (rw [hi.seq]; simp [readData])
      | (rw [hi.requests]; simp [readData])

theorem readLevel_same (s : State) :
    SameEngine { s with lvl := (readLevel s).lvl, n := (readLevel s).n } (readLevel s) := by
  constructor <;> simp [readLevel]

theorem readLastBits_same (s : State) :
    SameEngine { s with lastBits := (readLastBits s).lastBits, bitLength := (readLastBits s).bitLength }
      (readLastBits s) := by
  constructor <;> simp [readLastBits]

theorem readError_same (s : State) :
    SameEngine { s with err := (readError s).err, status := (readError s).status } (readError s) := by
  constructor <;> simp [readError]

theorem readCrcLo_same (s : State) : SameEngine { s with crcLo := (readCrcLo s).crcLo } (readCrcLo s) := by
  constructor <;> simp [readCrcLo]

theorem readCrcHi_same (s : State) : SameEngine { s with crcHi := (readCrcHi s).crcHi } (readCrcHi s) := by
  constructor <;> simp [readCrcHi]

end Sys2Proof.Machine
end

