-- ==== Sys2Proof/Laws/Unconstrained.lean ====
section
/-! SUPPORT. The shared operations with the unconstrained chip: how many answers each takes and which exchanges it
performs. `Did s t k tr` says so once; `Did.trans` chains operations, and `Did.answer` carries the numbering of the
answers along. -/

namespace Sys2Proof.Machine

/-- From `s` to `t` the unconstrained chip gave `k` answers and the exchanges `tr` were performed. -/
structure Did (s t : State) (k : Nat) (tr : List Event) : Prop where
  chip : t.chip = .unconstrained
  oracle : t.oracle = (s.took k).oracle
  draws : t.draws = (s.took k).draws
  regs : t.regs = Memory.after s.regs tr
  history : t.history = s.history ++ tr
  cs : t.cs = if tr = [] then s.cs else .high

theorem Did.refl {s : State} (h : s.chip = .unconstrained) : Did s s 0 [] where
  chip := h
  oracle := by simp [State.took]
  draws := by simp [State.took]
  regs := rfl
  history := by simp
  cs := rfl

theorem Did.answer {s t : State} {k : Nat} {tr : List Event} (h : Did s t k tr) (m : Nat) :
    t.answer m = s.answer (k + m) := by
  have : t.answer m = (s.took k).answer m := by simp only [State.answer, h.oracle, h.draws]
  rw [this, took_answer]

theorem Did.trans {s t u : State} {j k : Nat} {tr tr' : List Event} (h : Did s t j tr) (h' : Did t u k tr') :
    Did s u (j + k) (tr ++ tr') where
  chip := h'.chip
  oracle := by
    rw [h'.oracle, ← took_took]
    simp only [State.took, h.oracle]
  draws := by
    rw [h'.draws, ← took_took]
    simp only [State.took, h.draws, h.oracle]
  regs := by rw [h'.regs, h.regs]; simp [Memory.after]
  history := by rw [h'.history, h.history]; simp
  cs := by
    rw [h'.cs, h.cs]
    by_cases h1 : tr = [] <;> by_cases h2 : tr' = [] <;> simp [h1, h2]

/-- An update of the engine's own fields performs nothing. -/
theorem Did.update {s t u : State} {k : Nat} {tr : List Event} (h : Did s t k tr) (hc : u.chip = t.chip)
    (ho : u.oracle = t.oracle) (hd : u.draws = t.draws) (hr : u.regs = t.regs) (hh : u.history = t.history)
    (hs : u.cs = t.cs) : Did s u k tr :=
  ⟨hc.trans h.chip, ho.trans h.oracle, hd.trans h.draws, hr.trans h.regs, hh.trans h.history, hs.trans h.cs⟩

theorem Did.reads {s t : State} {k : Nat} {tr : List Event} (h : Did s t k tr) (hc : t.cfg = s.cfg) (reg : Byte)
    (j count : Nat) : t.reads reg j count = s.reads reg (k + j) count := by
  simp only [State.reads, h.answer, hc, Nat.add_assoc]

theorem PollReads.shift {hit : Byte → Bool} {s t : State} {k j B p : Nat} {tr : List Event} (h : Did s t k tr)
    (hp : PollReads hit s (k + j) B p) : PollReads hit t j B p where
  atLeastOne := hp.atLeastOne
  atMostBudget := hp.atMostBudget
  noneBefore i hi := by rw [h.answer, ← Nat.add_assoc]; exact hp.noneBefore i hi
  ends := by
    have := hp.atLeastOne
    rw [h.answer, show k + (j + p - 1) = k + j + p - 1 by omega]; exact hp.ends

/-- Whatever the answers, a poll with a budget of at least 1 has its number of reads. -/
theorem exists_pollReads (hit : Byte → Bool) (s : State) (k : Nat) {B : Nat} (hB : 1 ≤ B) :
    ∃ p, PollReads hit s k B p := by
  induction B with
  | zero => omega
  | succ b ih =>
    by_cases hb : 1 ≤ b
    · obtain ⟨p, hp⟩ := ih hb
      by_cases hhit : hit (s.answer (k + p - 1)) = true
      · exact ⟨p, hp.atLeastOne, by have := hp.atMostBudget; omega, hp.noneBefore, .inr hhit⟩
      · have hpb : p = b := hp.ends.resolve_right hhit
        refine ⟨b + 1, by omega, le_refl _, fun j hj => ?_, .inl rfl⟩
        rcases Nat.lt_or_ge (j + 1) p with h | h
        · exact hp.noneBefore j h
        · have : k + j = k + p - 1 := by omega
          rw [this]; simpa using hhit
    · have : b = 0 := by omega
      subst this
      exact ⟨1, le_refl _, le_refl _, fun j hj => by omega, .inl rfl⟩

/-! ## One exchange -/

theorem did_regWrite (reg v : Byte) {s : State} (h : s.chip = .unconstrained) :
    Did s (regWrite reg v s) 0 [Event.W reg v] := by
  rw [regWrite_unconstrained reg v s h]
  exact ⟨h, by simp [State.took], by simp [State.took], rfl, rfl, rfl⟩

theorem did_regRead (reg : Byte) {s : State} (h : s.chip = .unconstrained) :
    Did s (regRead reg s) 1 [Event.R s.cfg reg (s.answer 0)] := by
  rw [regRead_unconstrained reg s h]
  exact ⟨h, rfl, rfl, rfl, rfl, rfl⟩

theorem regRead_rx (reg : Byte) {s : State} (h : s.chip = .unconstrained) : (regRead reg s).rx = s.answer 0 := by
  rw [regRead_unconstrained reg s h]

theorem regWrite_rx (reg v : Byte) {s : State} (h : s.chip = .unconstrained) : (regWrite reg v s).rx = s.rx := by
  rw [regWrite_unconstrained reg v s h]

/-! ## Bit operations -/

theorem did_readTmp (reg : Byte) {s : State} (h : s.chip = .unconstrained) :
    Did s (readTmp reg s) 1 [Event.R s.cfg reg (s.answer 0)] :=
  (did_regRead reg h).update rfl rfl rfl rfl rfl rfl

theorem readTmp_tmp (reg : Byte) {s : State} (h : s.chip = .unconstrained) :
    (readTmp reg s).tmp = s.answer 0 := regRead_rx reg h

theorem readTmp_rx (reg : Byte) {s : State} (h : s.chip = .unconstrained) :
    (readTmp reg s).rx = s.answer 0 := regRead_rx reg h

theorem did_setBits (reg mask : Byte) {s : State} (h : s.chip = .unconstrained) :
    Did s (setBits reg mask s) 1 [Event.R s.cfg reg (s.answer 0), Event.W reg (s.answer 0 ||| mask)] := by
  have h1 := did_readTmp reg h
  have h2 := did_regWrite reg ((readTmp reg s).tmp ||| mask) h1.chip
  have h3 := h1.trans h2
  rw [readTmp_tmp reg h] at h3
  unfold setBits writeTmpOr
  rw [readTmp_tmp reg h]
  exact h3

theorem did_clearBits (reg mask : Byte) {s : State} (h : s.chip = .unconstrained) :
    Did s (clearBits reg mask s) 1 [Event.R s.cfg reg (s.answer 0), Event.W reg (s.answer 0 &&& ~~~ mask)] := by
  have h1 := did_readTmp reg h
  have h2 := did_regWrite reg ((readTmp reg s).tmp &&& ~~~ mask) h1.chip
  have h3 := h1.trans h2
  rw [readTmp_tmp reg h] at h3
  unfold clearBits writeTmpAndNot
  rw [readTmp_tmp reg h]
  exact h3

theorem setBits_tmp (reg mask : Byte) {s : State} (h : s.chip = .unconstrained) :
    (setBits reg mask s).tmp = s.answer 0 := by
  simp [setBits, writeTmpOr, readTmp_tmp reg h]

theorem clearBits_tmp (reg mask : Byte) {s : State} (h : s.chip = .unconstrained) :
    (clearBits reg mask s).tmp = s.answer 0 := by
  simp [clearBits, writeTmpAndNot, readTmp_tmp reg h]

theorem setBits_rx (reg mask : Byte) {s : State} (h : s.chip = .unconstrained) :
    (setBits reg mask s).rx = s.answer 0 := by
  simp only [setBits, writeTmpOr, regWrite_rx reg _ (did_readTmp reg h).chip, readTmp_rx reg h]

theorem clearBits_rx (reg mask : Byte) {s : State} (h : s.chip = .unconstrained) :
    (clearBits reg mask s).rx = s.answer 0 := by
  simp only [clearBits, writeTmpAndNot, regWrite_rx reg _ (did_readTmp reg h).chip, readTmp_rx reg h]

/-! ## Loops -/

theorem did_loadFifo (bytes : List Byte) {s : State} (h : s.chip = .unconstrained) :
    Did s (loadFifo bytes s) 0 (bytes.map (Event.W Config.REG_FIFO_DATA)) := by
  induction bytes generalizing s with
  | nil => exact Did.refl h
  | cons b rest ih => exact (did_regWrite _ b h).trans (ih (did_regWrite _ b h).chip)

theorem did_pollRead (reg : Byte) {s : State} (h : s.chip = .unconstrained) :
    Did s (pollRead reg s) 1 [Event.R s.cfg reg (s.answer 0)] :=
  (did_regRead reg h).update rfl rfl rfl rfl rfl rfl

theorem pollRead_irq (reg : Byte) {s : State} (h : s.chip = .unconstrained) :
    (pollRead reg s).irq = s.answer 0 := regRead_rx reg h

/-- What a poll loop does: `p` reads, the last answer in `irq`, the budget counted down by `p`. -/
theorem did_pollLoop {done : Config.Params → Nat → Byte → Bool} {hit : Byte → Bool} (reg : Byte) (more : Nat)
    {s : State} {p : Nat} (h : s.chip = .unconstrained) (hd : ∀ b v, done s.cfg b v = (b == 0 || hit v))
    (hb : s.budget = more + 1) (hp : PollReads hit s 0 s.budget p) :
    Did s (pollLoop done reg more s) p (s.reads reg 0 p) ∧ (pollLoop done reg more s).irq = s.answer (p - 1) ∧
      (pollLoop done reg more s).rx = s.answer (p - 1) ∧ (pollLoop done reg more s).budget = s.budget - p := by
  induction more generalizing s p with
  | zero =>
    have h1 := hp.atLeastOne
    have h2 := hp.atMostBudget
    have : p = 1 := by omega
    subst this
    exact ⟨did_pollRead reg h, pollRead_irq reg h, regRead_rx reg h, (pollRead_same reg s).budget⟩
  | succ m ih =>
    have h1 := hp.atLeastOne
    have hr := did_pollRead reg h
    have hbud : (pollRead reg s).budget = s.budget - 1 := (pollRead_same reg s).budget
    have hcfg : (pollRead reg s).cfg = s.cfg := (pollRead_same reg s).cfg
    have hdone : done (pollRead reg s).cfg (pollRead reg s).budget (pollRead reg s).irq = hit (s.answer 0) := by
      rw [hcfg, hbud, pollRead_irq reg h, hd, hb]
      simp
    simp only [pollLoop, hdone]
    by_cases hh : hit (s.answer 0) = true
    · have : p = 1 := by
        rcases Nat.lt_or_ge 1 p with hlt | hge
        · have := hp.noneBefore 0 (by omega)
          simp only [Nat.add_zero] at this
          rw [this] at hh; exact absurd hh (by simp)
        · omega
      subst this
      rw [if_pos hh]
      exact ⟨hr, pollRead_irq reg h, regRead_rx reg h, hbud⟩
    · rw [if_neg hh]
      have hp2 : 2 ≤ p := by
        rcases hp.ends with e | e
        · omega
        · rcases Nat.lt_or_ge 1 p with hlt | hge
          · omega
          · have : p = 1 := by omega
            subst this
            simp only [Nat.add_sub_cancel] at e
            exact absurd e hh
      obtain ⟨q, rfl⟩ : ∃ q, p = q + 2 := ⟨p - 2, by omega⟩
      have hq : PollReads hit (pollRead reg s) 0 (pollRead reg s).budget (q + 1) := by
        refine ⟨by omega, by have := hp.atMostBudget; omega, fun j hj => ?_, ?_⟩
        · rw [hr.answer, Nat.zero_add, Nat.add_comm]
          have := hp.noneBefore (j + 1) (by omega)
          simpa using this
        · rcases hp.ends with e | e
          · exact .inl (by omega)
          · right
            rw [hr.answer]
            have : 1 + (0 + (q + 1) - 1) = 0 + (q + 2) - 1 := by omega
            rw [this]; exact e
      obtain ⟨ha, hb', hc', hd'⟩ := ih (s := pollRead reg s) hr.chip (by rw [hcfg]; exact hd) (by omega) hq
      refine ⟨?_, ?_, ?_, ?_⟩
      · have hall := hr.trans ha
        rw [hr.reads hcfg] at hall
        have e1 : 1 + (q + 1) = q + 2 := by omega
        rw [e1] at hall
        have e2 : s.reads reg 0 (q + 2) = [Event.R s.cfg reg (s.answer 0)] ++ s.reads reg (1 + 0) (q + 1) := by
          simp only [State.reads, List.range_succ_eq_map (n := q + 1), List.map_cons, List.map_map,
            List.singleton_append, Nat.zero_add]
          refine congrArg _ (List.map_congr_left fun j _ => ?_)
          simp [Nat.add_comm]
        rw [e2]; exact hall
      · rw [hb', hr.answer]; congr 1; omega
      · rw [hc', hr.answer]; congr 1; omega
      · rw [hd', hbud]; omega

theorem did_readData (i : Nat) {s : State} (h : s.chip = .unconstrained) :
    Did s (readData i s) 1 [Event.R s.cfg Config.REG_FIFO_DATA (s.answer 0)] :=
  (did_regRead _ h).update rfl rfl rfl rfl rfl rfl

theorem reads_succ (s : State) (reg : Byte) (k count : Nat) :
    s.reads reg k (count + 1) = Event.R s.cfg reg (s.answer k) :: s.reads reg (k + 1) count := by
  simp only [State.reads, List.range_succ_eq_map, List.map_cons, List.map_map, Nat.add_zero]
  refine congrArg _ (List.map_congr_left fun j _ => ?_)
  show Event.R s.cfg reg (s.answer (k + (j + 1))) = Event.R s.cfg reg (s.answer (k + 1 + j))
  rw [show k + (j + 1) = k + 1 + j by omega]

/-- What the drain does: `count` reads, the j-th answer in `data[i + j]`. -/
theorem did_drainBytes (count i : Nat) {s : State} (h : s.chip = .unconstrained) :
    Did s (drainBytes count i s) count (s.reads Config.REG_FIFO_DATA 0 count) ∧
      (∀ j (hj : j < 16), (drainBytes count i s).data[j] =
        if i ≤ j ∧ j < i + count then s.answer (j - i) else s.data[j]) ∧
      (1 ≤ count → (drainBytes count i s).rx = s.answer (count - 1)) := by
  induction count generalizing i s with
  | zero =>
    refine ⟨Did.refl h, fun j hj => ?_, fun hc => by omega⟩
    rw [if_neg (by omega)]; rfl
  | succ m ih =>
    have hr := did_readData i h
    have hcfg : (readData i s).cfg = s.cfg := (readData_same i s).cfg
    obtain ⟨ha, hb, hc⟩ := ih (i + 1) (s := readData i s) hr.chip
    refine ⟨?_, fun j hj => ?_, fun _ => ?_⟩
    · have hall := hr.trans ha
      rw [hr.reads hcfg] at hall
      rw [reads_succ]
      rw [show 1 + m = m + 1 by omega] at hall
      simpa [drainBytes] using hall
    · simp only [drainBytes]
      rw [hb j hj]
      have hdata : (readData i s).data[j] = if i = j then s.answer 0 else s.data[j] := by
        simp only [readData, regRead_data, Vector.getElem_setIfInBounds, regRead_rx _ h]
      rw [hdata, hr.answer]
      by_cases h1 : i = j
      · subst h1
        rw [if_neg (by omega), if_pos rfl, if_pos (by omega)]; simp
      · by_cases h2 : i + 1 ≤ j ∧ j < i + 1 + m
        · rw [if_pos h2, if_pos (by omega)]; congr 1; omega
        · rw [if_neg h2, if_neg h1, if_neg (by omega)]
    · simp only [drainBytes]
      rcases Nat.eq_zero_or_pos m with hm | hm
      · subst hm
        show (readData i s).rx = _
        simpa [readData] using regRead_rx _ h
      · rw [hc hm, hr.answer]; congr 1; omega

end Sys2Proof.Machine
end

