-- ==== Sys2Proof/Laws/ClosedForms.lean ====
section
/-! SUPPORT. The shared operations with the unconstrained chip as equations: the whole next state, in terms of the answers
`s.answer k` and `State.took`. They chain by rewriting, since each keeps the chip unconstrained. -/

namespace Sys2Proof.Machine

theorem Memory.after_reads (m : Memory) (s : State) (reg : Byte) (k count : Nat) :
    Memory.after m (s.reads reg k count) = m := by
  unfold Memory.after State.reads
  induction count generalizing m with
  | zero => rfl
  | succ c ih => rw [List.range_succ, List.map_append, List.foldl_append, ih]; rfl

theorem loadFifo_rx (bytes : List Byte) {s : State} (h : s.chip = .unconstrained) : (loadFifo bytes s).rx = s.rx := by
  induction bytes generalizing s with
  | nil => rfl
  | cons b rest ih => simp only [loadFifo, ih (did_regWrite _ b h).chip, regWrite_rx _ b h]

/-- A state is known when the engine's fields and what `Did` says are. -/
theorem State.eq_of_did {s t u : State} {k : Nat} {tr : List Event} (h : Did s t k tr) (he : SameEngine u t)
    (hrx : t.rx = u.rx) (hc : u.chip = .unconstrained) (ho : u.oracle = (s.took k).oracle)
    (hd : u.draws = (s.took k).draws) (hr : u.regs = Memory.after s.regs tr) (hh : u.history = s.history ++ tr)
    (hcs : u.cs = if tr = [] then s.cs else .high) : t = u := by
  apply State.ext
  case cfg => exact he.cfg
  case op => exact he.op
  case reg => exact he.reg
  case val => exact he.val
  case command => exact he.command
  case send => exact he.send
  case tmp => exact he.tmp
  case irq => exact he.irq
  case err => exact he.err
  case lvl => exact he.lvl
  case n => exact he.n
  case lastBits => exact he.lastBits
  case budget => exact he.budget
  case rdata => exact he.rdata
  case crcLo => exact he.crcLo
  case crcHi => exact he.crcHi
  case status => exact he.status
  case data => exact he.data
  case dataLen => exact he.dataLen
  case bitLength => exact he.bitLength
  case seq => exact he.seq
  case requests => exact he.requests
  case rx => exact hrx
  case chip => exact h.chip.trans hc.symm
  case oracle => exact h.oracle.trans ho.symm
  case draws => exact h.draws.trans hd.symm
  case regs => exact h.regs.trans hr.symm
  case history => exact h.history.trans hh.symm
  case cs => exact h.cs.trans hcs.symm

theorem setBits_unconstrained (reg mask : Byte) (s : State) (h : s.chip = .unconstrained) :
    setBits reg mask s =
      { s.took 1 with
        tmp := s.answer 0
        rx := s.answer 0
        cs := .high
        regs := Memory.after s.regs [Event.W reg (s.answer 0 ||| mask)]
        history := s.history ++ [Event.R s.cfg reg (s.answer 0), Event.W reg (s.answer 0 ||| mask)] } := by
  have hs := setBits_same reg mask s
  rw [setBits_tmp reg mask h] at hs
  exact State.eq_of_did (did_setBits reg mask h) (SameEngine.trans (by constructor <;> rfl) hs) (setBits_rx reg mask h) h rfl
    rfl rfl rfl (by simp)

theorem clearBits_unconstrained (reg mask : Byte) (s : State) (h : s.chip = .unconstrained) :
    clearBits reg mask s =
      { s.took 1 with
        tmp := s.answer 0
        rx := s.answer 0
        cs := .high
        regs := Memory.after s.regs [Event.W reg (s.answer 0 &&& ~~~ mask)]
        history := s.history ++ [Event.R s.cfg reg (s.answer 0), Event.W reg (s.answer 0 &&& ~~~ mask)] } := by
  have hs := clearBits_same reg mask s
  rw [clearBits_tmp reg mask h] at hs
  exact State.eq_of_did (did_clearBits reg mask h) (SameEngine.trans (by constructor <;> rfl) hs) (clearBits_rx reg mask h) h rfl
    rfl rfl rfl (by simp)

theorem loadFifo_unconstrained (bytes : List Byte) (s : State) (h : s.chip = .unconstrained) :
    loadFifo bytes s =
      { s with
        cs := if bytes = [] then s.cs else .high
        regs := Memory.after s.regs (bytes.map (Event.W Config.REG_FIFO_DATA))
        history := s.history ++ bytes.map (Event.W Config.REG_FIFO_DATA) } :=
  State.eq_of_did (did_loadFifo bytes h) (SameEngine.trans (by constructor <;> rfl) (loadFifo_same bytes s))
    (loadFifo_rx bytes h) h (by simp [State.took]) (by simp [State.took]) rfl rfl (by simp)

/-- A poll loop whose exit test is the spent budget or a hit: `p` reads, the last answer in `irq`. -/
theorem pollLoop_unconstrained {done : Config.Params → Nat → Byte → Bool} {hit : Byte → Bool} (reg : Byte)
    (more : Nat) (s : State) {p : Nat} (h : s.chip = .unconstrained)
    (hd : ∀ b v, done s.cfg b v = (b == 0 || hit v)) (hb : s.budget = more + 1)
    (hp : PollReads hit s 0 s.budget p) :
    pollLoop done reg more s =
      { s.took p with
        irq := s.answer (p - 1)
        budget := s.budget - p
        rx := s.answer (p - 1)
        cs := .high
        history := s.history ++ s.reads reg 0 p } := by
  obtain ⟨h1, h2, h3, h4⟩ := did_pollLoop reg more h hd hb hp
  have hs := pollLoop_same done reg more s
  rw [h2, h4] at hs
  have hne : s.reads reg 0 p ≠ [] := by
    have := hp.atLeastOne
    simp [State.reads]; omega
  exact State.eq_of_did h1 (SameEngine.trans (by constructor <;> rfl) hs) h3 h rfl rfl
    (by simp only [Memory.after_reads]; rfl) rfl (by rw [if_neg hne])

/-- The drain: `count` reads, the j-th answer in `data[i + j]`. -/
theorem drainBytes_unconstrained (count i : Nat) (s : State) (h : s.chip = .unconstrained) :
    drainBytes count i s =
      { s.took count with
        data := (drainBytes count i s).data
        rx := if count = 0 then s.rx else s.answer (count - 1)
        cs := if count = 0 then s.cs else .high
        history := s.history ++ s.reads Config.REG_FIFO_DATA 0 count } := by
  obtain ⟨h1, _, h3⟩ := did_drainBytes count i h
  have hs := drainBytes_same count i s
  have hnil : s.reads Config.REG_FIFO_DATA 0 count = [] ↔ count = 0 := by simp [State.reads]
  refine State.eq_of_did h1 (SameEngine.trans (by constructor <;> rfl) hs) ?_ h rfl rfl
    (by simp only [Memory.after_reads]; rfl) rfl (by simp only [hnil])
  by_cases hc : count = 0
  · subst hc; simp [drainBytes]
  · simp only [hc, if_false]; exact h3 (by omega)

end Sys2Proof.Machine
end

