-- ==== Sys2Proof/Laws/Encoding.lean ====
section
/-! SUPPORT. The bits of address bytes: what a frame's first byte says, and that the byte assembled from an operand is
that of the register it selects. -/

namespace Sys2Proof

@[simp] theorem addressOnWire_writeFrameByte (a : RegAddr) : addressOnWire (writeFrameByte a) = a := by
  revert a; decide

@[simp] theorem addressOnWire_readFrameByte (a : RegAddr) : addressOnWire (readFrameByte a) = a := by
  revert a; decide

theorem writeFrameByte_bit0 (a : RegAddr) : (writeFrameByte a).getLsbD 0 = false := by revert a; decide

theorem writeFrameByte_bit7 (a : RegAddr) : (writeFrameByte a).getLsbD 7 = false := by revert a; decide

theorem readFrameByte_bit0 (a : RegAddr) : (readFrameByte a).getLsbD 0 = false := by revert a; decide

theorem readFrameByte_bit7 (a : RegAddr) : (readFrameByte a).getLsbD 7 = true := by revert a; decide

namespace Machine

/-- The byte sent for an operand is the frame byte of the register it selects (R70, R102). -/
theorem writeAddressByte_eq (reg : Byte) : writeAddressByte reg = writeFrameByte (chipAddr reg) := by
  revert reg; decide

theorem readAddressByte_eq (reg : Byte) : readAddressByte reg = readFrameByte (chipAddr reg) := by
  revert reg; decide

@[simp] theorem addressOnWire_writeAddressByte (reg : Byte) :
    addressOnWire (writeAddressByte reg) = chipAddr reg := by
  rw [writeAddressByte_eq, addressOnWire_writeFrameByte]

@[simp] theorem addressOnWire_readAddressByte (reg : Byte) : addressOnWire (readAddressByte reg) = chipAddr reg := by
  rw [readAddressByte_eq, addressOnWire_readFrameByte]

end Machine

end Sys2Proof
end

