-- ==== Sys2Proof/Laws/Ran.lean ====
section
/-! SUPPORT. The shared operations whichever chip answers: the exchanges performed, and what they leave in the history, the
chip register space, the chip-select line and the kind of the chip. `Ran s t tr` says so once and chains by
`Ran.trans`. -/

namespace Sys2Proof.Machine

/-- From `s` to `t` exactly the exchanges `tr` were performed. -/
structure Ran (s t : State) (tr : List Event) : Prop where
  history : t.history = s.history ++ tr
  regs : t.regs = Memory.after s.regs tr
  cs : t.cs = if tr = [] then s.cs else .high
  unconstrained : s.chip = .unconstrained → t.chip = .unconstrained
  stuck : s.chip = .stuck → t.chip = .stuck
  cfg : t.cfg = s.cfg
  fits : s.chip.fits s.cfg.fifoCap = true → t.chip.fits s.cfg.fifoCap = true
  isExchange : ∀ e ∈ tr, e.isExchange = true

theorem Ran.refl (s : State) : Ran s s [] where
  history := by simp
  regs := rfl
  cs := rfl
  unconstrained := id
  stuck := id
  cfg := rfl
  fits := id
  isExchange := by simp

theorem Ran.trans {s t u : State} {tr tr' : List Event} (h : Ran s t tr) (h' : Ran t u tr') : Ran s u (tr ++ tr') where
  history := by rw [h'.history, h.history, List.append_assoc]
  regs := by rw [h'.regs, h.regs]; simp [Memory.after]
  cs := by
    rw [h'.cs, h.cs]
    by_cases h1 : tr = [] <;> by_cases h2 : tr' = [] <;> simp [h1, h2]
  unconstrained := h'.unconstrained ∘ h.unconstrained
  stuck := h'.stuck ∘ h.stuck
  cfg := h'.cfg.trans h.cfg
  fits hf := by rw [← h.cfg]; exact h'.fits (by rw [h.cfg]; exact h.fits hf)
  isExchange e he := (List.mem_append.1 he).elim (h.isExchange e) (h'.isExchange e)

/-- An update of the engine's own fields after the exchanges performs nothing. -/
theorem Ran.update {s t u : State} {tr : List Event} (h : Ran s t tr) (hc : u.chip = t.chip) (hr : u.regs = t.regs)
    (hh : u.history = t.history) (hs : u.cs = t.cs) (hg : u.cfg = t.cfg) : Ran s u tr where
  history := hh.trans h.history
  regs := hr.trans h.regs
  cs := hs.trans h.cs
  unconstrained hu := hc.trans (h.unconstrained hu)
  stuck hu := hc.trans (h.stuck hu)
  cfg := hg.trans h.cfg
  fits hf := by rw [hc]; exact h.fits hf
  isExchange := h.isExchange

/-- An update of the engine's own fields before the exchanges performs nothing. -/
theorem Ran.updateFirst {s t u : State} {tr : List Event} (h : Ran t u tr) (hc : t.chip = s.chip)
    (hr : t.regs = s.regs) (hh : t.history = s.history) (hs : t.cs = s.cs) (hg : t.cfg = s.cfg) : Ran s u tr where
  history := by rw [h.history, hh]
  regs := by rw [h.regs, hr]
  cs := by rw [h.cs, hs]
  unconstrained hu := h.unconstrained (hc.trans hu)
  stuck hu := h.stuck (hc.trans hu)
  cfg := h.cfg.trans hg
  fits hf := by rw [← hg]; exact h.fits (by rw [hc, hg]; exact hf)
  isExchange := h.isExchange

theorem Ran.wf {s t : State} {tr : List Event} (h : Ran s t tr) (hw : Memory.wf s.regs = true) :
    Memory.wf t.regs = true := by
  rw [h.regs]
  clear h
  generalize s.regs = m at hw
  induction tr generalizing m with
  | nil => exact hw
  | cons e rest ih => exact ih _ (Memory.wf_afterEvent m e hw)

/-! ## Exchanges -/

theorem ran_writeExchange (first second : Byte) (s : State) :
    Ran s (writeExchange first second s) [.write first second] where
  history := writeExchange_history _ _ s
  regs := writeExchange_regs _ _ s
  cs := rfl
  unconstrained h := (writeExchange_chip _ _ s (.inl h)).trans h
  stuck h := (writeExchange_chip _ _ s (.inr h)).trans h
  cfg := (writeExchange_same _ _ s).cfg
  fits := writeExchange_fits _ _ s
  isExchange := by simp [Event.isExchange]

theorem ran_readExchange (first second : Byte) (s : State) :
    Ran s (readExchange first second s) [.read first second (readExchange first second s).rx] where
  history := readExchange_history _ _ s
  regs := readExchange_regs _ _ s
  cs := rfl
  unconstrained h := (readExchange_chip _ _ s (.inl h)).trans h
  stuck h := (readExchange_chip _ _ s (.inr h)).trans h
  cfg := (readExchange_same _ _ s).cfg
  fits := readExchange_fits _ _ s
  isExchange := by simp [Event.isExchange]

theorem ran_regWrite (reg v : Byte) (s : State) : Ran s (regWrite reg v s) [Event.W reg v] :=
  ran_writeExchange _ _ s

theorem ran_regRead (reg : Byte) (s : State) : Ran s (regRead reg s) [Event.R s.cfg reg (regRead reg s).rx] :=
  ran_readExchange _ _ s

theorem ran_readTmp (reg : Byte) (s : State) : Ran s (readTmp reg s) [Event.R s.cfg reg (readTmp reg s).tmp] :=
  (ran_regRead reg s).update rfl rfl rfl rfl rfl

theorem ran_pollRead (reg : Byte) (s : State) : Ran s (pollRead reg s) [Event.R s.cfg reg (pollRead reg s).irq] :=
  (ran_regRead reg s).update rfl rfl rfl rfl rfl

theorem ran_readData (i : Nat) (s : State) :
    Ran s (readData i s) [Event.R s.cfg Config.REG_FIFO_DATA (regRead Config.REG_FIFO_DATA s).rx] :=
  (ran_regRead _ s).update rfl rfl rfl rfl rfl

theorem ran_readLevel (s : State) : Ran s (readLevel s) [Event.R s.cfg Config.REG_FIFO_LEVEL (readLevel s).lvl] :=
  (ran_regRead _ s).update rfl rfl rfl rfl rfl

theorem ran_readLastBits (s : State) :
    Ran s (readLastBits s) [Event.R s.cfg Config.REG_CONTROL (regRead Config.REG_CONTROL s).rx] :=
  (ran_regRead _ s).update rfl rfl rfl rfl rfl

theorem ran_readError (s : State) : Ran s (readError s) [Event.R s.cfg Config.REG_ERROR (readError s).err] :=
  (ran_regRead _ s).update rfl rfl rfl rfl rfl

theorem ran_readCrcLo (s : State) : Ran s (readCrcLo s) [Event.R s.cfg s.cfg.regCrcResultLo (readCrcLo s).crcLo] :=
  (ran_regRead _ s).update rfl rfl rfl rfl rfl

theorem ran_readCrcHi (s : State) : Ran s (readCrcHi s) [Event.R s.cfg s.cfg.regCrcResultHi (readCrcHi s).crcHi] :=
  (ran_regRead _ s).update rfl rfl rfl rfl rfl

theorem ran_setBits (reg mask : Byte) (s : State) :
    Ran s (setBits reg mask s)
      [Event.R s.cfg reg (setBits reg mask s).tmp, Event.W reg ((setBits reg mask s).tmp ||| mask)] := by
  have h : (setBits reg mask s).tmp = (readTmp reg s).tmp := regWrite_tmp _ _ _
  rw [h]
  exact (ran_readTmp reg s).trans (ran_regWrite reg _ _)

theorem ran_clearBits (reg mask : Byte) (s : State) :
    Ran s (clearBits reg mask s)
      [Event.R s.cfg reg (clearBits reg mask s).tmp, Event.W reg ((clearBits reg mask s).tmp &&& ~~~ mask)] := by
  have h : (clearBits reg mask s).tmp = (readTmp reg s).tmp := regWrite_tmp _ _ _
  rw [h]
  exact (ran_readTmp reg s).trans (ran_regWrite reg _ _)

/-! ## Loops -/

theorem ran_loadFifo (bytes : List Byte) (s : State) :
    Ran s (loadFifo bytes s) (bytes.map (Event.W Config.REG_FIFO_DATA)) := by
  induction bytes generalizing s with
  | nil => exact Ran.refl s
  | cons b rest ih => exact (ran_regWrite _ b s).trans (ih _)

/-- A poll loop performs reads of its register and nothing else. -/
theorem ran_pollLoop (done : Config.Params → Nat → Byte → Bool) (reg : Byte) (more : Nat) (s : State) :
    ∃ answers : List Byte, Ran s (pollLoop done reg more s) (answers.map (Event.R s.cfg reg)) ∧
      1 ≤ answers.length ∧ answers.length ≤ more + 1 := by
  induction more generalizing s with
  | zero => exact ⟨[_], ran_pollRead reg s, by simp, by simp⟩
  | succ m ih =>
    have hr := ran_pollRead reg s
    simp only [pollLoop]
    split
    · exact ⟨[_], hr, by simp, by simp⟩
    · obtain ⟨answers, ha, h1, h2⟩ := ih (pollRead reg s)
      rw [(pollRead_same reg s).cfg] at ha
      exact ⟨_ :: answers, hr.trans ha, by simp, by simpa using h2⟩

/-- The drain performs `count` reads of the FIFO port and nothing else. -/
theorem ran_drainBytes (count i : Nat) (s : State) :
    ∃ answers : List Byte, Ran s (drainBytes count i s) (answers.map (Event.R s.cfg Config.REG_FIFO_DATA)) ∧
      answers.length = count := by
  induction count generalizing i s with
  | zero => exact ⟨[], Ran.refl s, rfl⟩
  | succ m ih =>
    obtain ⟨answers, ha, hl⟩ := ih (i + 1) (readData i s)
    rw [(readData_same i s).cfg] at ha
    exact ⟨_ :: answers, (ran_readData i s).trans ha, by simpa using hl⟩

/-! ## What exchanges leave in the chip register space -/

/-- A chip register that no event of the trace stores to keeps its byte, unless a soft reset is among them. -/
theorem Memory.read_after (m : Memory) (tr : List Event) (a : RegAddr)
    (h : ∀ first v, Event.write first v ∈ tr → addressOnWire first ≠ a) :
    Memory.read (Memory.after m tr) a.toNat = Memory.read m a.toNat ∨
      (∃ first, Event.write first Config.CMD_SOFT_RESET ∈ tr ∧
        addressOnWire first = chipAddr Config.REG_COMMAND) ∧
      Memory.read (Memory.after m tr) a.toNat = none := by
  induction tr generalizing m with
  | nil => exact .inl rfl
  | cons e rest ih =>
    have hstep : Memory.read (Memory.afterEvent m e) a.toNat = Memory.read m a.toNat ∨
        (∃ first, e = Event.write first Config.CMD_SOFT_RESET ∧ addressOnWire first = chipAddr Config.REG_COMMAND) ∧
          Memory.read (Memory.afterEvent m e) a.toNat = none := by
      cases e with
      | write first v =>
        simp only [Memory.afterEvent]
        split
        · next hs => exact .inr ⟨⟨first, by rw [hs.2], hs.1⟩, rfl⟩
        · exact .inl (Memory.read_write_other _ _ fun e => h first v (by simp) (BitVec.eq_of_toNat_eq e.symm))
      | request _ => exact .inl rfl
      | read _ _ _ => exact .inl rfl
      | complete _ => exact .inl rfl
    have hrest := ih (Memory.afterEvent m e) fun first v hm => h first v (List.mem_cons_of_mem _ hm)
    show Memory.read (Memory.after (Memory.afterEvent m e) rest) a.toNat = _ ∨ _ ∧
      Memory.read (Memory.after (Memory.afterEvent m e) rest) a.toNat = none
    rcases hrest with h1 | ⟨⟨f, hf, hf'⟩, h1⟩
    · rcases hstep with h2 | ⟨⟨f, rfl, hf'⟩, h2⟩
      · exact .inl (h1.trans h2)
      · exact .inr ⟨⟨f, by simp, hf'⟩, h1.trans h2⟩
    · exact .inr ⟨⟨f, List.mem_cons_of_mem _ hf, hf'⟩, h1⟩

theorem Memory.after_append (m : Memory) (tr tr' : List Event) :
    Memory.after m (tr ++ tr') = Memory.after (Memory.after m tr) tr' := by
  simp [Memory.after]

end Sys2Proof.Machine
end

