-- ==== Sys2Proof/Laws/Operations.lean ====
section
/-! SUPPORT. Each shared operation of the two long instructions, once: its exchanges and what it may write, whichever chip
answers. -/

namespace Sys2Proof.Machine

/-- Exchanges that answer a next state answer the one they led to. -/
theorem outcome_next {s t u : State} (h : outcome s t = .next u) : u = t := by
  unfold outcome at h
  split at h
  · injection h with h; exact h.symm
  · split at h
    · cases h
    · injection h with h; exact h.symm
  · cases h

/-- An instruction that answers a next state started at REST. -/
theorem atRest_next {s t u : State} (h : atRest s t = .next u) : s.seq = .rest ∧ u = t := by
  unfold atRest at h
  split at h
  · next hr => exact ⟨hr, outcome_next h⟩
  · cases h

/-- A poll loop never raises the budget. -/
theorem pollLoop_budget_le (done : Config.Params → Nat → Byte → Bool) (reg : Byte) (more : Nat) (s : State) :
    (pollLoop done reg more s).budget ≤ s.budget := by
  induction more generalizing s with
  | zero => simp only [pollLoop]; rw [(pollRead_same _ _).budget]; simp
  | succ k ih =>
    simp only [pollLoop]
    have := ih (pollRead reg s)
    have e : (pollRead reg s).budget = s.budget - 1 := (pollRead_same _ _).budget
    split <;> omega

/-- CRC, whichever chip answers: its exchanges, the registers it may write, and that its only write after the command
write is none (R150). -/
theorem ran_computeCrc (d : List Byte) (s : State) : ∃ tr, Ran s (computeCrc d s) tr ∧ SameEngine { s with tmp := (computeCrc d s).tmp, irq := (computeCrc d s).irq, budget := (computeCrc d s).budget, crcLo := (computeCrc d s).crcLo, crcHi := (computeCrc d s).crcHi } (computeCrc d s) ∧ (computeCrc d s).budget ≤ s.cfg.pollBudgetCrc ∧
   ∃ pre post, tr = pre ++ [Event.W Config.REG_COMMAND Config.CMD_CALC_CRC] ++ post ∧ (∀ f v, Event.write f v ∈ post → False) ∧
    (∀ f v, Event.write f v ∈ pre → f = writeAddressByte s.cfg.regCrcIrq ∨ f = writeAddressByte Config.REG_FIFO_LEVEL ∨ f = writeAddressByte Config.REG_FIFO_DATA) := by
  unfold computeCrc startCrc clearCrcDone flushFifo issue pollCrcDone
  have h1 := ran_clearBits s.cfg.regCrcIrq s.cfg.crcDoneBit s
  have g1 := clearBits_same s.cfg.regCrcIrq s.cfg.crcDoneBit s
  generalize clearBits s.cfg.regCrcIrq s.cfg.crcDoneBit s = s1 at *
  have h2 := ran_setBits Config.REG_FIFO_LEVEL s1.cfg.fifoFlushBit s1
  have g2 := setBits_same Config.REG_FIFO_LEVEL s1.cfg.fifoFlushBit s1
  generalize setBits Config.REG_FIFO_LEVEL s1.cfg.fifoFlushBit s1 = s2 at *
  have h3 := ran_loadFifo d s2
  have g3 := loadFifo_same d s2
  generalize loadFifo d s2 = s3 at *
  have h4 := ran_regWrite Config.REG_COMMAND Config.CMD_CALC_CRC s3
  have g4 := regWrite_same Config.REG_COMMAND Config.CMD_CALC_CRC s3
  generalize regWrite Config.REG_COMMAND Config.CMD_CALC_CRC s3 = s4 at *
  have h5 : Ran s4 (loadCrcBudget s4) [] := (Ran.refl s4).update rfl rfl rfl rfl rfl
  have g5 : SameEngine {s4 with budget := s4.cfg.pollBudgetCrc} (loadCrcBudget s4) := by constructor <;> rfl
  generalize loadCrcBudget s4 = s5 at *
  obtain ⟨ans, h6, -, hle⟩ := ran_pollLoop crcPollDone s5.cfg.regCrcIrq (s5.budget - 1) s5
  have g6 := pollLoop_same crcPollDone s5.cfg.regCrcIrq (s5.budget - 1) s5
  have hbud : (pollLoop crcPollDone s5.cfg.regCrcIrq (s5.budget - 1) s5).budget ≤ s5.budget :=
    pollLoop_budget_le _ _ _ _
  generalize pollLoop crcPollDone s5.cfg.regCrcIrq (s5.budget - 1) s5 = s6 at *
  have h7 := ran_readCrcLo s6
  have g7 := readCrcLo_same s6
  generalize readCrcLo s6 = s7 at *
  have h8 := ran_readCrcHi s7
  have g8 := readCrcHi_same s7
  generalize readCrcHi s7 = s8 at *
  have H := ((((((h1.trans h2).trans h3).trans h4).trans h5).trans h6).trans h7).trans h8
  have hcf : s4.cfg = s.cfg := by rw [g4.cfg, g3.cfg, g2.cfg, g1.cfg]
  refine ⟨_, H, ?_, ?_, [Event.R s.cfg s.cfg.regCrcIrq s1.tmp, Event.W s.cfg.regCrcIrq (s1.tmp &&& ~~~s.cfg.crcDoneBit)] ++ [Event.R s1.cfg Config.REG_FIFO_LEVEL s2.tmp, Event.W Config.REG_FIFO_LEVEL (s2.tmp ||| s1.cfg.fifoFlushBit)] ++ List.map (Event.W Config.REG_FIFO_DATA) d, ans.map (Event.R s5.cfg s5.cfg.regCrcIrq) ++ [Event.R s6.cfg s6.cfg.regCrcResultLo s7.crcLo] ++ [Event.R s7.cfg s7.cfg.regCrcResultHi s8.crcHi], by simp only [List.append_assoc, List.nil_append], ?_, ?_⟩
  · cases g1; cases g2; cases g3; cases g4; cases g5; cases g6; cases g7; cases g8
    clear h1 h2 h3 h4 h5 h6 h7 h8 H hbud
    constructor <;> simp_all
  · rw [g8.budget, g7.budget]; simp only
    have : s5.budget = s.cfg.pollBudgetCrc := by rw [g5.budget, ← hcf]
    omega
  · intro f v hm; simp [Event.R] at hm
  · intro f v hm
    simp [Event.R, Event.W] at hm
    have : writeAddressByte Config.REG_FIFO_LEVEL = writeAddressByte 0x0A := rfl
    aesop

/-- Step 2 of `toCard` (R173 to R175). -/
theorem ran_prepareChip (s : State) : ∃ tr, Ran s (prepareChip s) tr ∧ SameEngine {s with tmp := (prepareChip s).tmp} (prepareChip s) ∧
  (∀ f v, Event.write f v ∈ tr → f = writeAddressByte 0x02 ∨ f = writeAddressByte 0x04 ∨ f = writeAddressByte 0x0A ∨ (f = writeAddressByte 0x01 ∧ v = s.cfg.cmdIdle)) := by
  unfold prepareChip clearPending flushFifo enableIrqs issue
  have h1 := ran_regWrite Config.REG_COMM_IEN (Config.IRQ_EN_MASK ||| s.cfg.globalIenBit) s
  have g1 := regWrite_same Config.REG_COMM_IEN (Config.IRQ_EN_MASK ||| s.cfg.globalIenBit) s
  generalize regWrite Config.REG_COMM_IEN (Config.IRQ_EN_MASK ||| s.cfg.globalIenBit) s = s1 at *
  have h2 := ran_clearBits Config.REG_COMM_IRQ s1.cfg.irqPendingBit s1
  have g2 := clearBits_same Config.REG_COMM_IRQ s1.cfg.irqPendingBit s1
  generalize clearBits Config.REG_COMM_IRQ s1.cfg.irqPendingBit s1 = s2 at *
  have h3 := ran_setBits Config.REG_FIFO_LEVEL s2.cfg.fifoFlushBit s2
  have g3 := setBits_same Config.REG_FIFO_LEVEL s2.cfg.fifoFlushBit s2
  generalize setBits Config.REG_FIFO_LEVEL s2.cfg.fifoFlushBit s2 = s3 at *
  dsimp only
  have h4 := ran_regWrite Config.REG_COMMAND s3.cfg.cmdIdle s3
  have g4 := regWrite_same Config.REG_COMMAND s3.cfg.cmdIdle s3
  generalize regWrite Config.REG_COMMAND s3.cfg.cmdIdle s3 = s4 at *
  have hcf : s3.cfg = s.cfg := by rw [g3.cfg, g2.cfg, g1.cfg]
  refine ⟨_, ((h1.trans h2).trans h3).trans h4, ?_, ?_⟩
  · cases g1; cases g2; cases g3; cases g4
    clear h1 h2 h3 h4
    constructor <;> simp_all
  · intro f v hm
    simp [Event.R, Event.W] at hm
    rw [hcf] at hm
    tauto

/-- Step 4 of `toCard` (R178, R180). -/
theorem ran_issueCommand (c : Byte) (s : State) : ∃ post, Ran s (issueCommand c s) ([Event.W 0x01 c] ++ post) ∧ SameEngine {s with tmp := (issueCommand c s).tmp} (issueCommand c s) ∧
  (∀ f v, Event.write f v ∈ post → f = writeAddressByte 0x0D) := by
  unfold issueCommand startSend issue
  have h1 := ran_regWrite Config.REG_COMMAND c s
  have g1 := regWrite_same Config.REG_COMMAND c s
  generalize regWrite Config.REG_COMMAND c s = s1 at *
  dsimp only
  split
  · have h2 := ran_setBits Config.REG_BIT_FRAMING s1.cfg.startSendBit s1
    have g2 := setBits_same Config.REG_BIT_FRAMING s1.cfg.startSendBit s1
    generalize setBits Config.REG_BIT_FRAMING s1.cfg.startSendBit s1 = s2 at *
    refine ⟨_, h1.trans h2, ?_, ?_⟩
    · cases g1; cases g2; clear h1 h2
      constructor <;> simp_all
    · intro f v hm; simp [Event.R, Event.W] at hm; exact hm.1
  · refine ⟨[], h1, ?_, by simp⟩
    cases g1; clear h1
    constructor <;> simp_all

/-- Step 7 of `toCard`: it writes no chip register, and `E.n`, `E.dataLen`, `E.lastBits`, `E.bitLength` stay or come from
the drain (R184 to R188). -/
theorem ran_evaluate (c : Byte) (s : State) : ∃ tr, Ran s (evaluate c s) tr ∧ (∀ f v, Event.write f v ∈ tr → False) ∧
   let t := evaluate c s
   SameEngine {s with err := t.err, lvl := t.lvl, n := t.n, lastBits := t.lastBits, status := t.status, data := t.data, dataLen := t.dataLen, bitLength := t.bitLength} t ∧
   (t.n = s.n ∨ ∃ b, t.n = drainCount b) ∧ (t.dataLen = s.dataLen ∨ t.dataLen = t.n ∧ ∃ b, t.n = drainCount b) ∧ (t.lastBits = s.lastBits ∨ ∃ b, t.lastBits = b &&& s.cfg.lastBitsMask) ∧ 
   (t.bitLength = s.bitLength ∨ ∃ b fr, t.bitLength = bitLengthOf s.cfg t.n t.lvl (b &&& s.cfg.lastBitsMask) fr ∧ ∃ b, t.n = drainCount b) ∧
   (∀ j (h : j < 16), t.dataLen ≤ j → t.data[j] = s.data[j]) := by
  unfold evaluate
  split
  · refine ⟨[], Ran.refl s, by simp, ?_⟩
    exact ⟨SameEngine.refl s, .inl rfl, .inl rfl, .inl rfl, .inl rfl, fun _ _ _ => rfl⟩
  · have h1 := ran_readError s
    have g1 := readError_same s
    generalize readError s = s1 at *
    dsimp only
    split
    · unfold drainResponse
      have h2 := ran_readLevel s1
      have g2 := readLevel_same s1
      have n2 : (readLevel s1).n = drainCount (readLevel s1).lvl := rfl
      generalize readLevel s1 = s2 at *
      have h3 := ran_readLastBits s2
      have g3 := readLastBits_same s2
      have l3 : (readLastBits s2).lastBits = (regRead Config.REG_CONTROL s2).rx &&& s2.cfg.lastBitsMask := by simp [readLastBits]
      have b3 : (readLastBits s2).bitLength = bitLengthOf s2.cfg s2.n s2.lvl ((regRead Config.REG_CONTROL s2).rx &&& s2.cfg.lastBitsMask) (Config.freeBitLength (regRead Config.REG_CONTROL s2).draws) := by simp [readLastBits]
      generalize readLastBits s2 = s3 at *
      dsimp only
      obtain ⟨ans, h4, -⟩ := ran_drainBytes s3.n 0 s3
      have g4 := drainBytes_same s3.n 0 s3
      have dd : ∀ j (h : j < 16), s3.n ≤ j → (drainBytes s3.n 0 s3).data[j] = s3.data[j] := by
        have : ∀ (m i : Nat) (x : State) (j) (h : j < 16), i + m ≤ j → (drainBytes m i x).data[j] = x.data[j] := by
          intro m
          induction m with
          | zero => intro i x j h _; rfl
          | succ k ih =>
            intro i x j h hj
            simp only [drainBytes]
            rw [ih (i+1) (readData i x) j h (by omega)]
            simp only [readData, regRead_data, Vector.getElem_setIfInBounds]
            rw [if_neg (by omega)]
        intro j h hj; exact this _ _ _ j h (by omega)
      generalize drainBytes s3.n 0 s3 = s4 at *
      have h5 : Ran s4 (setDataLen s4) [] := (Ran.refl s4).update rfl rfl rfl rfl rfl
      have g5 : SameEngine { s4 with dataLen := s4.n } (setDataLen s4) := by constructor <;> rfl
      generalize setDataLen s4 = s5 at *
      have hcf : s2.cfg = s.cfg := by rw [g2.cfg, g1.cfg]
      have n5 : s5.n = drainCount s2.lvl := by rw [g5.n]; simp only; rw [g4.n]; simp only; rw [g3.n]; exact n2
      refine ⟨_, (((h1.trans h2).trans h3).trans h4).trans h5, ?_, ?_, .inr ⟨s2.lvl, n5⟩, .inr ⟨by rw [g5.dataLen, g5.n], s2.lvl, n5⟩, .inr ⟨(regRead Config.REG_CONTROL s2).rx, ?_⟩, .inr ⟨(regRead Config.REG_CONTROL s2).rx, Config.freeBitLength (regRead Config.REG_CONTROL s2).draws, ?_, ⟨s2.lvl, n5⟩⟩, ?_⟩
      · intro f v hm; simp [Event.R] at hm
      · cases g1; cases g2; cases g3; cases g4; cases g5
        clear h1 h2 h3 h4 h5 dd n5 hcf b3 l3 n2
        constructor <;> first | rfl | simp only [*]
      · rw [g5.lastBits]; simp only; rw [g4.lastBits]; simp only; rw [l3, hcf]
      · rw [n5, ← hcf]
        rw [show s5.bitLength = s3.bitLength by rw [g5.bitLength]; simp only; rw [g4.bitLength], b3, n2]
        rw [show s5.lvl = s2.lvl by rw [g5.lvl]; simp only; rw [g4.lvl]; simp only; rw [g3.lvl]]
      · intro j h hj
        rw [show s5.dataLen = s3.n by rw [g5.dataLen]; simp only; rw [g4.n]] at hj
        have e1 : s5.data = s4.data := g5.data
        have e2 : s3.data = s.data := by rw [g3.data]; simp only; rw [g2.data]; simp only; rw [g1.data]
        simp only [e1, dd j h hj, e2]
    · refine ⟨_, h1, by intro f v hm; simp [Event.R] at hm, ?_, .inl ?_, .inl ?_, .inl ?_, .inl ?_, ?_⟩
      · cases g1; clear h1; constructor <;> first | rfl | simp only [*]
      · exact g1.n
      · exact g1.dataLen
      · exact g1.lastBits
      · exact g1.bitLength
      · intro j h _; simp only [g1.data]

/-- Steps 2 to 7 of `toCard`, whichever chip answers. -/
theorem ran_toCard (c : Byte) (d : List Byte) (s : State) : ∃ pre post, Ran s (toCard c d s) (pre ++ [Event.W 0x01 c] ++ post) ∧
   (∀ f v, Event.write f v ∈ post → f = writeAddressByte 0x0D) ∧ 
   (∀ f v, Event.write f v ∈ pre → f = writeAddressByte 0x02 ∨ f = writeAddressByte 0x04 ∨ f = writeAddressByte 0x0A ∨ f = writeAddressByte 0x09 ∨ (f = writeAddressByte 0x01 ∧ v = s.cfg.cmdIdle)) ∧
   let t := toCard c d s
   SameEngine {s with tmp := t.tmp, irq := t.irq, budget := t.budget, err := t.err, lvl := t.lvl, n := t.n, lastBits := t.lastBits, status := t.status, data := t.data, dataLen := t.dataLen, bitLength := t.bitLength} t ∧ t.budget ≤ s.budget ∧
   (t.n = s.n ∨ ∃ b, t.n = drainCount b) ∧ (t.dataLen = s.dataLen ∨ t.dataLen = t.n ∧ ∃ b, t.n = drainCount b) ∧ (t.lastBits = s.lastBits ∨ ∃ b, t.lastBits = b &&& s.cfg.lastBitsMask) ∧ 
   (t.bitLength = s.bitLength ∨ ∃ b fr, t.bitLength = bitLengthOf s.cfg t.n t.lvl (b &&& s.cfg.lastBitsMask) fr ∧ ∃ b, t.n = drainCount b) ∧
   (∀ j (h : j < 16), t.dataLen ≤ j → t.data[j] = s.data[j]) := by
  unfold toCard pollCommIrq stopSend
  obtain ⟨tr1, h1, g1, w1⟩ := ran_prepareChip s
  generalize prepareChip s = s1 at *
  have h2 := ran_loadFifo d s1
  have g2 := loadFifo_same d s1
  generalize loadFifo d s1 = s2 at *
  obtain ⟨tr3, h3, g3, w3⟩ := ran_issueCommand c s2
  generalize issueCommand c s2 = s3 at *
  obtain ⟨ans, h4, -⟩ := ran_pollLoop trxPollDone Config.REG_COMM_IRQ (s3.budget - 1) s3
  have g4 := pollLoop_same trxPollDone Config.REG_COMM_IRQ (s3.budget - 1) s3
  have hbud : (pollLoop trxPollDone Config.REG_COMM_IRQ (s3.budget - 1) s3).budget ≤ s3.budget :=
    pollLoop_budget_le _ _ _ _
  generalize pollLoop trxPollDone Config.REG_COMM_IRQ (s3.budget - 1) s3 = s4 at *
  have h5 := ran_clearBits Config.REG_BIT_FRAMING s4.cfg.startSendBit s4
  have g5 := clearBits_same Config.REG_BIT_FRAMING s4.cfg.startSendBit s4
  generalize clearBits Config.REG_BIT_FRAMING s4.cfg.startSendBit s4 = s5 at *
  obtain ⟨tr6, h6, w6, g6, p1, p2, p3, p4, p5⟩ := ran_evaluate c s5
  generalize evaluate c s5 = s6 at *
  have G : SameEngine {s with tmp := s6.tmp, irq := s6.irq, budget := s6.budget} s5 := by
    cases g1; cases g2; cases g3; cases g4; cases g5; cases g6
    clear h1 h2 h3 h4 h5 h6 p1 p2 p3 p4 p5 hbud w1 w3 w6
    constructor <;> simp_all
  refine ⟨tr1 ++ List.map (Event.W Config.REG_FIFO_DATA) d, tr3 ++ List.map (Event.R s3.cfg Config.REG_COMM_IRQ) ans ++ [Event.R s4.cfg Config.REG_BIT_FRAMING s5.tmp,
          Event.W Config.REG_BIT_FRAMING (s5.tmp &&& ~~~s4.cfg.startSendBit)] ++ tr6, ?_, ?_, ?_, ?_, ?_, ?_, ?_, ?_, ?_, ?_⟩
  · have := ((((h1.trans h2).trans h3).trans h4).trans h5).trans h6
    simpa only [List.append_assoc] using this
  · intro f v hm
    simp only [List.mem_append] at hm
    rcases hm with ((hm | hm) | hm) | hm
    · exact w3 f v hm
    · simp [Event.R] at hm
    · simp [Event.R, Event.W] at hm; exact hm.1
    · exact (w6 f v hm).elim
  · intro f v hm
    rcases List.mem_append.1 hm with hm | hm
    · have := w1 f v hm; tauto
    · simp [Event.W] at hm; aesop
  · cases G; cases g6
    clear h1 h2 h3 h4 h5 h6 p1 p2 p3 p4 p5 hbud w1 w3 w6 g1 g2 g3 g4 g5
    constructor <;> simp_all
  · have e6 : s6.budget = s5.budget := g6.budget
    have e5 : s5.budget = s4.budget := g5.budget
    have e3 : s3.budget = s.budget := by rw [g3.budget]; simp only; rw [g2.budget, g1.budget]
    show s6.budget ≤ s.budget
    omega
  · have : s5.n = s.n := G.n
    rw [← this]; exact p1
  · have : s5.dataLen = s.dataLen := G.dataLen
    rw [← this]; exact p2
  · have : s5.lastBits = s.lastBits := G.lastBits
    have h2 : s5.cfg = s.cfg := G.cfg
    rw [← this, ← h2]; exact p3
  · have : s5.bitLength = s.bitLength := G.bitLength
    have h2 : s5.cfg = s.cfg := G.cfg
    rw [← this, ← h2]; exact p4
  · have : s5.data = s.data := G.data
    simp only [← this]; exact p5

end Sys2Proof.Machine
end

