-- ==== Sys2Proof/Laws/Grain.lean ====
section
/-! SUPPORT. The grain of exchanges: no exchange reads or moves the sequencer position, and the positions of a load and of a
poll run the loops of the whole operation. -/

namespace Sys2Proof.Machine

theorem receiveFree_goto (p : Seq) (s : State) : receiveFree (goto p s) = goto p (receiveFree s) := by
  unfold receiveFree; simp only [goto]; split <;> rfl

theorem simRedraw_goto (c : SimChip) (p : Seq) (s : State) : simRedraw c (goto p s) = goto p (simRedraw c s) := by
  unfold simRedraw; simp only [receiveFree_goto]; rfl

theorem simWrite_goto (a : RegAddr) (v : Byte) (c : SimChip) (p : Seq) (s : State) : simWrite a v c (goto p s) = goto p (simWrite a v c s) := by
  unfold simWrite
  have hcfg : (goto p s).cfg = s.cfg := rfl
  rw [hcfg]
  split <;> try rfl
  · unfold simWriteFifo; simp only [hcfg]; split <;> rfl
  · split <;> rfl
  · unfold simWriteCommand; simp only [hcfg]
    split
    · rfl
    · split
      · rfl
      · split
        · exact simRedraw_goto _ _ _
        · split <;> rfl
  · unfold simWriteBitFraming
    have hb : ∀ x, (goto p s).regByte x = s.regByte x := fun _ => rfl
    simp only [hcfg, hb]; split <;> rfl

theorem simRead_goto (a : RegAddr) (c : SimChip) (p : Seq) (s : State) : simRead a c (goto p s) = goto p (simRead a c s) := by
  unfold simRead
  have hcfg : (goto p s).cfg = s.cfg := rfl
  rw [hcfg]
  split <;> try rfl
  · unfold simReadFifo; split
    · rfl
    · exact receiveFree_goto _ _
  · unfold simReadLevel; split
    · rfl
    · exact receiveFree_goto _ _
  · unfold simReadControl; simp only [receiveFree_goto, hcfg]; split <;> rfl

theorem writeExchange_goto (f v : Byte) (p : Seq) (s : State) : writeExchange f v (goto p s) = goto p (writeExchange f v s) := by
  unfold writeExchange
  have h1 : ∀ a, recordWrite a v (busSelect (goto p s)) = goto p (recordWrite a v (busSelect s)) := by
    intro a; unfold recordWrite; split <;> rfl
  have : chipWrite (addressOnWire f) v (busSelect (goto p s)) = goto p (chipWrite (addressOnWire f) v (busSelect s)) := by
    unfold chipWrite
    simp only [h1]
    generalize recordWrite (addressOnWire f) v (busSelect s) = r
    rw [show (goto p r).chip = r.chip from rfl]
    cases r.chip with
    | unconstrained => rfl
    | sim c => exact simWrite_goto _ _ _ _ _
    | stuck => rfl
  rw [this]; rfl

theorem readExchange_goto (f v : Byte) (p : Seq) (s : State) : readExchange f v (goto p s) = goto p (readExchange f v s) := by
  unfold readExchange
  have : chipRead (addressOnWire f) (busSelect (goto p s)) = goto p (chipRead (addressOnWire f) (busSelect s)) := by
    unfold chipRead
    rw [show busSelect (goto p s) = goto p (busSelect s) from rfl]
    generalize busSelect s = r
    rw [show (goto p r).chip = r.chip from rfl]
    cases r.chip with
    | unconstrained => exact receiveFree_goto _ _
    | sim c => exact simRead_goto _ _ _ _
    | stuck => exact receiveFree_goto _ _
  simp only [this]; rfl

theorem regWrite_goto (f v : Byte) (p : Seq) (s : State) : regWrite f v (goto p s) = goto p (regWrite f v s) := writeExchange_goto _ _ _ _
theorem regRead_goto (f : Byte) (p : Seq) (s : State) : regRead f (goto p s) = goto p (regRead f s) := readExchange_goto _ _ _ _
theorem readTmp_goto (f : Byte) (p : Seq) (s : State) : readTmp f (goto p s) = goto p (readTmp f s) := by
  unfold readTmp; rw [regRead_goto]; rfl
theorem setBits_goto (f m : Byte) (p : Seq) (s : State) : setBits f m (goto p s) = goto p (setBits f m s) := by
  unfold setBits writeTmpOr; rw [readTmp_goto, regWrite_goto]; rfl
theorem clearBits_goto (f m : Byte) (p : Seq) (s : State) : clearBits f m (goto p s) = goto p (clearBits f m s) := by
  unfold clearBits writeTmpAndNot; rw [readTmp_goto, regWrite_goto]; rfl
theorem writeTmpOr_goto (f m : Byte) (p : Seq) (s : State) : writeTmpOr f m (goto p s) = goto p (writeTmpOr f m s) := by
  show regWrite f _ (goto p s) = _; rw [regWrite_goto]; rfl
theorem writeTmpAndNot_goto (f m : Byte) (p : Seq) (s : State) :
    writeTmpAndNot f m (goto p s) = goto p (writeTmpAndNot f m s) := by
  show regWrite f _ (goto p s) = _; rw [regWrite_goto]; rfl
theorem readError_goto (p : Seq) (s : State) : readError (goto p s) = goto p (readError s) := by
  unfold readError; simp only [regRead_goto]; rfl
theorem readLevel_goto (p : Seq) (s : State) : readLevel (goto p s) = goto p (readLevel s) := by
  unfold readLevel; simp only [regRead_goto]; rfl
theorem readLastBits_goto (p : Seq) (s : State) : readLastBits (goto p s) = goto p (readLastBits s) := by
  unfold readLastBits; simp only [regRead_goto]; rfl
theorem readData_goto (i : Nat) (p : Seq) (s : State) : readData i (goto p s) = goto p (readData i s) := by
  unfold readData; simp only [regRead_goto]; rfl
theorem pollRead_goto (f : Byte) (p : Seq) (s : State) : pollRead f (goto p s) = goto p (pollRead f s) := by
  unfold pollRead; rw [regRead_goto]; rfl
theorem goto_goto (p q : Seq) (s : State) : goto p (goto q s) = goto p s := rfl

/-- The kinds of chip that no exchange leaves. -/
structure KeepsChip (s t : State) : Prop where
  u : s.chip = .unconstrained → t.chip = .unconstrained
  k : s.chip = .stuck → t.chip = .stuck

/-- What exchanges that led to `t` answer. -/
def final (t : State) : Host.Outcome State Fault Refusal := if t.chip = .stuck then .fault .simFifoFull else .next t

theorem outcome_eq_final {s t : State} (h : KeepsChip s t) : outcome s t = final t := by
  unfold outcome final
  split
  · next hc => rw [h.u hc]; rfl
  · rfl
  · next hc => rw [h.k hc]; rfl

/-- Steps of one exchange from `s` answer what exchanges that led to `T` answer. -/
def Reach (s T : State) : Prop := (s.chip = .stuck → T.chip = .stuck) ∧ (s.chip ≠ .stuck → ∃ k, Host.Core.run Sys2Proof.core k s = final T)

theorem Reach.refl (s : State) : Reach s s := ⟨id, fun h => ⟨0, by simp [Host.Core.run, final, h]; rfl⟩⟩

theorem Reach.ofStep {s T : State} (hs : s.seq ≠ .rest) (hk : KeepsChip s (advance s)) (h : Reach (advance s) T) : Reach s T := by
  refine ⟨fun hc => h.1 (hk.k hc), fun hc => ?_⟩
  have hstep : step s = final (advance s) := by
    unfold step
    split
    · contradiction
    · exact outcome_eq_final hk
  by_cases ha : (advance s).chip = .stuck
  · refine ⟨1, ?_⟩
    have : T.chip = .stuck := h.1 ha
    have e : Sys2Proof.core.step s = step s := rfl
    simp only [Host.Core.run]
    rw [e, hstep]; simp [final, ha, this]; rfl
  · obtain ⟨k, hk⟩ := h.2 ha
    refine ⟨k+1, ?_⟩
    have e : Sys2Proof.core.step s = step s := rfl
    simp only [Host.Core.run]
    rw [e, hstep]; simp only [final, ha, if_false]; exact hk

theorem keepsChip_advance (s : State) : KeepsChip s (advance s) := by
  constructor
  · intro hc
    have A := fun r v => (ran_regWrite r v s).unconstrained hc
    have B := fun r => (ran_regRead r s).unconstrained hc
    unfold advance
    split
    case h_1 => exact hc
    all_goals simp [goto, complete, completeRead, completeCrc, readTmp, writeTmpOr, writeTmpAndNot, record, loadCrcBudget, issue, pollRead, readCrcLo, readCrcHi, enableIrqs, readError, readLevel, readLastBits, readData, loadByte, afterStop, afterError, afterData, completeCard, A, B]
    all_goals repeat' split
    all_goals simp [hc]
  · intro hc
    have A := fun r v => (ran_regWrite r v s).stuck hc
    have B := fun r => (ran_regRead r s).stuck hc
    unfold advance
    split
    case h_1 => exact hc
    all_goals simp [goto, complete, completeRead, completeCrc, readTmp, writeTmpOr, writeTmpAndNot, record, loadCrcBudget, issue, pollRead, readCrcLo, readCrcHi, enableIrqs, readError, readLevel, readLastBits, readData, loadByte, afterStop, afterError, afterData, completeCard, A, B]
    all_goals repeat' split
    all_goals simp [hc]

theorem Reach.adv {p : Seq} {s T : State} (hp : p ≠ .rest) (h : Reach (advance (goto p s)) T) : Reach (goto p s) T :=
  Reach.ofStep hp (keepsChip_advance _) h

/-- The per-byte positions of C3 load the rest of the frame. -/
theorem reach_loadCrc (x : State) (T : State) (i : Nat) (hi : i ≤ x.send.length) (h : Reach (goto .c4 (loadFifo (x.send.drop i) x)) T) :
    Reach (goto (crcLoadPosition i x) x) T := by
  generalize hn : x.send.length - i = n
  induction n generalizing i x with
  | zero =>
    have : ¬ i < x.send.length := by omega
    simp only [crcLoadPosition, loadFrom, if_neg this]
    rw [List.drop_eq_nil_of_le (by omega)] at h; exact h
  | succ n ih =>
    have hlt : i < x.send.length := by omega
    have hpos : crcLoadPosition i x = .c3 i := by simp [crcLoadPosition, loadFrom, hlt]
    rw [hpos]
    apply Reach.adv (by simp)
    have hadv : advance (goto (.c3 i) x) = goto (crcLoadPosition (i+1) (regWrite Config.REG_FIFO_DATA x.send[i] x)) (regWrite Config.REG_FIFO_DATA x.send[i] x) := by
      show loadByte i crcLoadPosition (goto (.c3 i) x) = _
      have : (goto (.c3 i) x).send[i]? = some x.send[i] := List.getElem?_eq_getElem hlt
      simp only [loadByte, this, regWrite_goto, goto_goto]; rfl
    rw [hadv]
    have hs : (regWrite Config.REG_FIFO_DATA x.send[i] x).send = x.send := regWrite_send _ _ _
    apply ih
    · rw [hs]; omega
    · rw [hs]
      rw [List.drop_eq_getElem_cons hlt] at h
      exact h
    · rw [hs]; omega

/-- The per-byte positions of T3 load the rest of the frame. -/
theorem reach_loadCard (x : State) (T : State) (i : Nat) (hi : i ≤ x.send.length) (h : Reach (goto .t4Issue (loadFifo (x.send.drop i) x)) T) :
    Reach (goto (cardLoadPosition i x) x) T := by
  generalize hn : x.send.length - i = n
  induction n generalizing i x with
  | zero =>
    have : ¬ i < x.send.length := by omega
    simp only [cardLoadPosition, loadFrom, if_neg this]
    rw [List.drop_eq_nil_of_le (by omega)] at h; exact h
  | succ n ih =>
    have hlt : i < x.send.length := by omega
    have hpos : cardLoadPosition i x = .t3 i := by simp [cardLoadPosition, loadFrom, hlt]
    rw [hpos]
    apply Reach.adv (by simp)
    have hadv : advance (goto (.t3 i) x) = goto (cardLoadPosition (i+1) (regWrite Config.REG_FIFO_DATA x.send[i] x)) (regWrite Config.REG_FIFO_DATA x.send[i] x) := by
      show loadByte i cardLoadPosition (goto (.t3 i) x) = _
      have : (goto (.t3 i) x).send[i]? = some x.send[i] := List.getElem?_eq_getElem hlt
      simp only [loadByte, this, regWrite_goto, goto_goto]; rfl
    rw [hadv]
    have hs : (regWrite Config.REG_FIFO_DATA x.send[i] x).send = x.send := regWrite_send _ _ _
    apply ih
    · rw [hs]; omega
    · rw [hs]
      rw [List.drop_eq_getElem_cons hlt] at h
      exact h
    · rw [hs]; omega

/-- The position C5 runs the poll loop of `computeCRC`. -/
theorem reach_pollCrc (n : Nat) (x : State) (T : State) (hn : x.budget - 1 = n) (h : Reach (goto .c6Lo (pollLoop crcPollDone x.cfg.regCrcIrq n x)) T) : Reach (goto .c5 x) T := by
  induction n generalizing x with
  | zero =>
    apply Reach.adv (by simp)
    have hb : (pollRead x.cfg.regCrcIrq x).budget = 0 := by rw [(pollRead_same _ _).budget]; exact hn
    have hadv : advance (goto .c5 x) =
        goto (if crcPollDone (pollRead x.cfg.regCrcIrq x).cfg (pollRead x.cfg.regCrcIrq x).budget (pollRead x.cfg.regCrcIrq x).irq then .c6Lo else .c5)
          (pollRead x.cfg.regCrcIrq x) := by
      show (let t := pollRead x.cfg.regCrcIrq (goto .c5 x); goto _ t) = _
      simp only [pollRead_goto, goto_goto]; rfl
    have hd : crcPollDone (pollRead x.cfg.regCrcIrq x).cfg (pollRead x.cfg.regCrcIrq x).budget (pollRead x.cfg.regCrcIrq x).irq = true := by
      rw [hb]; rfl
    rw [if_pos hd] at hadv
    rw [hadv]; exact h
  | succ n ih =>
    apply Reach.adv (by simp)
    have hb : (pollRead x.cfg.regCrcIrq x).budget = n + 1 := by rw [(pollRead_same _ _).budget]; exact hn
    have hc : (pollRead x.cfg.regCrcIrq x).cfg = x.cfg := (pollRead_same _ _).cfg
    have hadv : advance (goto .c5 x) = goto (if crcPollDone (pollRead x.cfg.regCrcIrq x).cfg (pollRead x.cfg.regCrcIrq x).budget (pollRead x.cfg.regCrcIrq x).irq then .c6Lo else .c5) (pollRead x.cfg.regCrcIrq x) := by
      show (let t := pollRead x.cfg.regCrcIrq (goto .c5 x); goto _ t) = _
      simp only [pollRead_goto, goto_goto]; rfl
    rw [hadv]
    simp only [pollLoop] at h
    split
    · next hd => rw [if_pos hd] at h; exact h
    · next hd => 
      rw [if_neg hd] at h
      exact ih _ (by rw [hb]; rfl) (by rw [hc]; exact h)

/-- The position T5 runs the poll loop of `toCard`. -/
theorem reach_pollCard (n : Nat) (x : State) (T : State) (hn : x.budget - 1 = n) (h : Reach (goto .t6Read (pollLoop trxPollDone Config.REG_COMM_IRQ n x)) T) : Reach (goto .t5 x) T := by
  induction n generalizing x with
  | zero =>
    apply Reach.adv (by simp)
    have hb : (pollRead Config.REG_COMM_IRQ x).budget = 0 := by rw [(pollRead_same _ _).budget]; exact hn
    have hadv : advance (goto .t5 x) =
        goto (if trxPollDone (pollRead Config.REG_COMM_IRQ x).cfg (pollRead Config.REG_COMM_IRQ x).budget (pollRead Config.REG_COMM_IRQ x).irq then .t6Read else .t5)
          (pollRead Config.REG_COMM_IRQ x) := by
      show (let t := pollRead Config.REG_COMM_IRQ (goto .t5 x); goto _ t) = _
      simp only [pollRead_goto, goto_goto]; rfl
    have hd : trxPollDone (pollRead Config.REG_COMM_IRQ x).cfg (pollRead Config.REG_COMM_IRQ x).budget (pollRead Config.REG_COMM_IRQ x).irq = true := by
      rw [hb]; rfl
    rw [if_pos hd] at hadv
    rw [hadv]; exact h
  | succ n ih =>
    apply Reach.adv (by simp)
    have hb : (pollRead Config.REG_COMM_IRQ x).budget = n + 1 := by rw [(pollRead_same _ _).budget]; exact hn
    have hadv : advance (goto .t5 x) = goto (if trxPollDone (pollRead Config.REG_COMM_IRQ x).cfg (pollRead Config.REG_COMM_IRQ x).budget (pollRead Config.REG_COMM_IRQ x).irq then .t6Read else .t5) (pollRead Config.REG_COMM_IRQ x) := by
      show (let t := pollRead Config.REG_COMM_IRQ (goto .t5 x); goto _ t) = _
      simp only [pollRead_goto, goto_goto]; rfl
    rw [hadv]
    simp only [pollLoop] at h
    split
    · next hd => rw [if_pos hd] at h; exact h
    · next hd => 
      rw [if_neg hd] at h
      exact ih _ (by rw [hb]; rfl) h

/-- The positions T7 of the drain read the bytes from `i` on and complete. -/
theorem reach_drain (m : Nat) (x : State) (i : Nat) (h : i + (m + 1) = x.n) :
    Reach (goto (.t7Data i) x) (completeCard (setDataLen (drainBytes (m + 1) i x))) := by
  have hn : ∀ i, (readData i x).n = x.n := fun i => (readData_same i x).n
  induction m generalizing i x with
  | zero =>
    apply Reach.adv (by simp)
    have e : advance (goto (.t7Data i) x) = completeCard (setDataLen (readData i x)) := by
      show afterData i (readData i (goto (.t7Data i) x)) = _
      have : ¬ i + 1 < (readData i x).n := by rw [hn]; omega
      rw [readData_goto]; unfold afterData
      rw [if_neg (show ¬ i + 1 < (goto (.t7Data i) (readData i x)).n from this)]; rfl
    rw [e]; exact Reach.refl _
  | succ m ih =>
    apply Reach.adv (by simp)
    have e : advance (goto (.t7Data i) x) = goto (.t7Data (i + 1)) (readData i x) := by
      show afterData i (readData i (goto (.t7Data i) x)) = _
      have : i + 1 < (readData i x).n := by rw [hn]; omega
      rw [readData_goto]; unfold afterData
      rw [if_pos (show i + 1 < (goto (.t7Data i) (readData i x)).n from this)]; rfl
    rw [e]
    exact ih (readData i x) (i + 1) (by rw [hn]; omega) (fun j => (readData_same j _).n)

/-- From acceptance to the whole instruction. -/
theorem reach_exec {s a T : State} (hs : s.seq = .rest) (ha : a.seq ≠ .rest) (hk : KeepsChip s T) (h : Reach a T) :
   ∃ k, Host.Core.run Sys2Proof.core k a = atRest s T := by
  have e : atRest s T = final T := by unfold atRest; rw [hs]; exact outcome_eq_final hk
  rw [e]
  by_cases hc : a.chip = .stuck
  · refine ⟨1, ?_⟩
    have hT := h.1 hc
    have hstep : step a = final (advance a) := by
      unfold step
      split
      · contradiction
      · exact outcome_eq_final (keepsChip_advance a)
    have e : Sys2Proof.core.step a = step a := rfl
    simp only [Host.Core.run]
    rw [e, hstep]; simp [final, (keepsChip_advance a).k hc, hT]; rfl
  · exact h.2 hc

end Sys2Proof.Machine
end

