-- ==== Sys2Proof/Tests/Slice0.lean ====
section
/-! SUPPORT. The model's own tests. Expected values come from spec/95_test_vectors.md (V1 to V64, P1 to P7) and from
words written out from the encodings of 30_encoding.md; the vector's name stands in each test's comment. -/

namespace Sys2Proof.Machine.Tests

/-! ## Helpers -/

/-- After reset, with the chip's answers supplied and the two budgets set. -/
def chip (answers : List Byte) (trx : Nat := 2000) (crc : Nat := 255) : State :=
  { State.reset with
    oracle := answers
    cfg := { Config.defaults with pollBudgetTrx := trx, pollBudgetCrc := crc } }

/-- A value of the next state, if there is one. -/
def look {α : Type} (o : Host.Outcome State Fault Refusal) (f : State → α) : Option α :=
  match o with
  | .next t => some (f t)
  | .fault _ => none
  | .refused _ => none

/-- The exchange trace of an outcome. -/
def trace (o : Host.Outcome State Fault Refusal) : Option (List Event) := look o fun t => exchanges t.history

/-- The result an outcome hands over. -/
def result (o : Host.Outcome State Fault Refusal) : Option OpResult := (look o State.handedOver).join

/-- W and R under the default parameters. -/
def W (reg v : Byte) : Event := Event.W reg v
def R (reg v : Byte) : Event := Event.R Config.defaults reg v

/-! ## WellFormed: each check refuses an ill-formed term -/

theorem test_wellFormed_refuses_long_crc : (Instr.crc (List.replicate 256 0)).wellFormed = false := by
  simp only [Instr.wellFormed, List.length_replicate]; decide
theorem test_wellFormed_refuses_long_tocard :
    (Instr.tocard 0x0C (List.replicate 256 0)).wellFormed = false := by
  simp only [Instr.wellFormed, List.length_replicate]; decide
theorem test_wellFormed_accepts_longest_crc : (Instr.crc (List.replicate 255 0)).wellFormed = true := by
  simp only [Instr.wellFormed, List.length_replicate]; decide

/-! ## Decoding: words written out from the encodings -/

-- R100: `0 000001 0` then the value; V9's wire `02 0F`
theorem test_decode_busWr : decode .busFrame [0b00000010, 0b00001111] = some (.busWr 0x01 0x0F) := by decide
-- R101: `1 010100 0` then the dummy; V3's read byte 0xA8
theorem test_decode_busRd : decode .busFrame [0b10101000, 0x00] = some (.busRd 0x14 0x00) := by decide
-- R115: bit 0 of the address byte is never set
theorem test_decode_busFrame_bit0 : decode .busFrame [0b00000011, 0x00] = none := by decide
-- R111: op 0, a = reg, b = value, len 0
theorem test_decode_wr : decode .hostRequest [0b000, 0x01, 0x0C, 0x00] = some (.wr 0x01 0x0C) := by decide
theorem test_decode_rd : decode .hostRequest [0b001, 0x14, 0x00, 0x00] = some (.rd 0x14) := by decide
theorem test_decode_setb : decode .hostRequest [0b010, 0x14, 0x03, 0x00] = some (.setb 0x14 0x03) := by decide
theorem test_decode_clrb : decode .hostRequest [0b011, 0x0D, 0x80, 0x00] = some (.clrb 0x0D 0x80) := by decide
theorem test_decode_crc : decode .hostRequest [0b100, 0, 0, 2, 0x30, 0x04] = some (.crc [0x30, 0x04]) := by decide
theorem test_decode_tocard :
    decode .hostRequest [0b101, 0x0C, 0, 4, 0x30, 0x04, 0x26, 0xEE] =
      some (.tocard 0x0C [0x30, 0x04, 0x26, 0xEE]) := by decide
-- R113
theorem test_decode_op6 : decode .hostRequest [0b110, 0, 0, 0] = none := by decide
theorem test_decode_op7 : decode .hostRequest [0b111, 0, 0, 0] = none := by decide
-- R106
theorem test_decode_cmdIdle : decode .chipCommand [0b00000000] = some .cmdIdle := by decide
theorem test_decode_cmdCalcCrc : decode .chipCommand [0b00000011] = some .cmdCalcCrc := by decide
theorem test_decode_cmdTransceive : decode .chipCommand [0b00001100] = some .cmdTransceive := by decide
theorem test_decode_cmdSoftReset : decode .chipCommand [0b00001111] = some .cmdSoftReset := by decide
-- R112
theorem test_decode_tagRead : decode .tagOpcode [0b00110000] = some .tagRead := by decide
theorem test_decode_tagWrite : decode .tagOpcode [0b10100000] = some .tagWrite := by decide
-- rows of the table by their words, first byte of a frame in bits 15 to 8
theorem test_tableWord_busRd : decodeTableWord 16 0xA800 = some (.busRd 0x14 0x00) := by decide
theorem test_tableWord_tocard : decodeTableWord 8 0x5 = some (.tocard 0x00 []) := by decide

/-! ## Address bytes (V1, V4, V6, V8) -/

theorem test_addressByte :
    (writeAddressByte 0x01, readAddressByte 0x01) = (0x02, 0x82) ∧
    (writeAddressByte 0x3F, readAddressByte 0x3F) = (0x7E, 0xFE) ∧
    (writeAddressByte 0x40, readAddressByte 0x40) = (0x00, 0x80) ∧
    (writeAddressByte 0xFF, readAddressByte 0xFF) = (0x7E, 0xFE) := by decide

/-! ## Register operations -/

-- V9
theorem test_wr : trace (exec (.wr 0x01 0x0F) (chip [])) = some [.write 0x02 0x0F] := by decide
-- V12
theorem test_rd :
    trace (exec (.rd 0x49) (chip [0x5A])) = some [.read 0x92 0x00 0x5A] ∧
    result (exec (.rd 0x49) (chip [0x5A])) = some (.byte 0x5A) := by decide
-- V13
theorem test_setb :
    trace (exec (.setb 0x14 0x03) (chip [0x80])) = some [.read 0xA8 0x00 0x80, .write 0x28 0x83] := by decide
-- V14
theorem test_setb_always_writes :
    trace (exec (.setb 0x14 0x03) (chip [0x03])) = some [R 0x14 0x03, W 0x14 0x03] := by decide
-- V19
theorem test_clrb :
    trace (exec (.clrb 0x05 0x04) (chip [0xFF])) = some [.read 0x8A 0x00 0xFF, .write 0x0A 0xFB] := by decide
-- R78: refused in the middle of an operation
theorem test_busy : exec (.rd 0x06) { chip [] with seq := .t5 } = .refused .notAtRest := by rfl

/-! ## computeCRC -/

-- V22
theorem test_crc :
    trace (exec (.crc [0x30, 0x04]) (chip [0x00, 0x00, 0x00, 0x04, 0x26, 0xEE])) =
      some [R 0x05 0x00, W 0x05 0x00, R 0x0A 0x00, W 0x0A 0x80, W 0x09 0x30, W 0x09 0x04, W 0x01 0x03,
        R 0x05 0x00, R 0x05 0x04, R 0x22 0x26, R 0x21 0xEE] ∧
    result (exec (.crc [0x30, 0x04]) (chip [0x00, 0x00, 0x00, 0x04, 0x26, 0xEE])) =
      some (.pair 0x26 0xEE) := by decide
-- V24
theorem test_crc_exhausted :
    trace (exec (.crc [0xA0, 0x05]) (chip [0x04, 0x05, 0x00, 0x00, 0x00, 0x12, 0x34] (crc := 3))) =
      some [R 0x05 0x04, W 0x05 0x00, R 0x0A 0x05, W 0x0A 0x85, W 0x09 0xA0, W 0x09 0x05, W 0x01 0x03,
        R 0x05 0x00, R 0x05 0x00, R 0x05 0x00, R 0x22 0x12, R 0x21 0x34] := by decide

/-! ## toCard -/

-- V40
theorem test_tocard_plain_trace :
    trace (exec (.tocard 0x03 [0x01, 0x02]) (chip [0x00, 0x00, 0x10, 0x00, 0x00])) =
      some [W 0x02 0xF7, R 0x04 0x00, W 0x04 0x00, R 0x0A 0x00, W 0x0A 0x80, W 0x01 0x00, W 0x09 0x01,
        W 0x09 0x02, W 0x01 0x03, R 0x04 0x10, R 0x0D 0x00, W 0x0D 0x00, R 0x06 0x00] := by decide
-- V31 (flag on the last permitted read), V32 (drain), V37 (timer over wait, level 0)
theorem test_tocard_results :
    result (exec (.tocard 0x0C [0x30]) (chip [0x00, 0x00, 0x00, 0x00, 0x00, 0x20, 0x80] (trx := 3))) =
      some (.card ⟨.error, [], 0⟩) ∧
    result (exec (.tocard 0x0C [0x30])
      (chip [0x00, 0x00, 0x00, 0x00, 0x20, 0x80, 0x00, 0x02, 0x00, 0xAA, 0xBB] (trx := 3))) =
      some (.card ⟨.ok, [0xAA, 0xBB], 16⟩) ∧
    result (exec (.tocard 0x0C [0x30]) (chip [0x00, 0x00, 0x00, 0x21, 0x80, 0x00, 0x00, 0x00, 0x5A])) =
      some (.card ⟨.timeout, [0x5A], 8⟩) := by decide

/-! ## Frames, commands, tag opcodes -/

theorem test_busRd : look (exec (.busRd 0x06 0x00) (chip [0x1B])) State.rx = some 0x1B := by decide
theorem test_busWr : trace (exec (.busWr 0x09 0xFF) (chip [])) = some [.write 0x12 0xFF] := by decide
-- V51 to V54
theorem test_cmdIdle : trace (exec .cmdIdle (chip [])) = some [.write 0x02 0x00] := by decide
theorem test_cmdCalcCrc : trace (exec .cmdCalcCrc (chip [])) = some [.write 0x02 0x03] := by decide
theorem test_cmdTransceive : trace (exec .cmdTransceive (chip [])) = some [.write 0x02 0x0C] := by decide
theorem test_cmdSoftReset : trace (exec .cmdSoftReset (chip [])) = some [.write 0x02 0x0F] := by decide
theorem test_tagRead : trace (exec .tagRead (chip [])) = some [.write 0x12 0x30] := by decide
theorem test_tagWrite : trace (exec .tagWrite (chip [])) = some [.write 0x12 0xA0] := by decide

/-! ## SimChip: the first two operations of P5 -/

def sim5 : SimChip where
  fifo := []
  commIrq := 0
  divIrq := 0
  err := 0
  lastBits := 0
  crcLo := 0
  crcHi := 0
  pending := .none
  epoch := 0
  tags := [([0x30, 0x04, 0x26, 0xEE],
    .answer [0x48, 0x45, 0x4C, 0x4C, 0x4F, 0x20, 0x20, 0x20, 0x20, 0x20, 0x20, 0x20, 0x20, 0x20, 0x20, 0x20, 0xAB, 0xCD]
      0 0x00 0x20)]
  crcs := []
  delays := [1, 1]
  silent := [false]

def p5 : State := { chip [0x10] with chip := .sim sim5, regs := [(0x0D, 0x00)] }

-- P5, V59, and the note to P4: the default of the parameter Crc16
theorem test_crcA :
    crcA [0x30, 0x04] = (0x26, 0xEE) ∧ crcA (List.replicate 16 0x00) = (0x37, 0x49) ∧ crcA [0xA0, 0x05] = (0xF2, 0xE6) := by
  decide +kernel

theorem test_sim_crc :
    trace (exec (.crc [0x30, 0x04]) p5) =
      some [R 0x05 0x00, W 0x05 0x00, R 0x0A 0x00, W 0x0A 0x80, W 0x09 0x30, W 0x09 0x04, W 0x01 0x03,
        R 0x05 0x00, R 0x05 0x04, R 0x22 0x26, R 0x21 0xEE] := by decide +kernel

theorem test_sim_tocard :
    result (exec (.tocard 0x0C [0x30, 0x04, 0x26, 0xEE]) { p5 with chip := .sim { sim5 with delays := [1] } }) =
      some (.card ⟨.ok, [0x48, 0x45, 0x4C, 0x4C, 0x4F, 0x20, 0x20, 0x20, 0x20, 0x20, 0x20, 0x20, 0x20, 0x20, 0x20,
        0x20], 128⟩) := by decide

/-! ## The step -/

theorem test_step_fetches :
    look (step ((chip []).withFetchWord 16 0x020F)) (fun t => exchanges t.history) = some [.write 0x02 0x0F] := by decide
theorem test_step_refuses_op6 : step ((chip []).withFetchWord 8 0x6) = .refused .noOperation := by rfl
theorem test_reset_runs_a_word : ∃ t, step (State.reset.withFetchWord 8 0x5) = .next t := ⟨_, rfl⟩

/-! ## Host sequences -/

-- V57: the antenna step writes when one of the two bits is clear
theorem test_antenna :
    (match antennaStep (chip [0x01, 0x01]) with
      | .next r => exchanges r.state.history
      | .fault _ => []
      | .refused _ => []) = [R 0x14 0x01, R 0x14 0x01, W 0x14 0x03] := by decide
-- V56: no write when both bits are set
theorem test_antenna_set :
    (match antennaStep (chip [0x03]) with
      | .next r => exchanges r.state.history
      | .fault _ => []
      | .refused _ => []) = [R 0x14 0x03] := by decide
-- V60, V61, V63, V64
theorem test_acknowledgments :
    readAccepted ⟨.ok, List.replicate 15 0, 120⟩ = false ∧ readAccepted ⟨.timeout, List.replicate 16 0, 128⟩ = false ∧
    requestAcknowledged ⟨.ok, [0x0A], 4⟩ = true ∧ requestAcknowledged ⟨.ok, [0x0A, 0x00], 16⟩ = false ∧
    dataAcknowledged ⟨.ok, [0x0A, 0x00], 16⟩ = true := by decide

/-! ## Witnesses: for each statement with hypotheses, a state and operands that meet all of them together -/

/-- A computable form of `PollReads`. -/
def pollsTo (hit : Byte → Bool) (s : State) (k budget p : Nat) : Bool :=
  decide (1 ≤ p) && decide (p ≤ budget) && (List.range (p - 1)).all (fun j => !hit (s.answer (k + j))) &&
    (p == budget || hit (s.answer (k + p - 1)))

theorem pollReads_of_pollsTo {hit : Byte → Bool} {s : State} {k budget p : Nat} (h : pollsTo hit s k budget p = true) :
    PollReads hit s k budget p := by
  simp only [pollsTo, Bool.and_eq_true, decide_eq_true_eq, List.all_eq_true, List.mem_range, Bool.not_eq_true',
    Bool.or_eq_true, beq_iff_eq] at h
  obtain ⟨⟨⟨h1, h2⟩, h3⟩, h4⟩ := h
  exact ⟨h1, h2, fun j hj => h3 j (by omega), h4⟩

/-- A state with one request. -/
def withRequest (s : State) (f : Format) (bytes : List Byte) (g : Grain) : State :=
  { s with requests := [⟨f, bytes, g⟩] }

theorem witness_DecodeOfEncodeIsTheInstruction :
    (Instr.tocard 0x0C (List.replicate 255 0)).wellFormed = true ∧ (Instr.wr 0xFF 0xFF).wellFormed = true := by
  simp only [Instr.wellFormed, List.length_replicate]; decide
theorem witness_DecodedInstructionIsWellFormed : decode .busFrame [0xFE, 0x00] = some (.busRd 0x3F 0x00) := by decide
theorem witness_ReservedOpSelectIsRefused :
    State.reset.seq = .rest ∧ step (withRequest State.reset .hostRequest [6, 0, 0, 0] .operation) = .refused .noOperation ∧
    step (withRequest State.reset .hostRequest [7, 1, 2, 1, 9] .exchange) = .refused .noOperation := ⟨rfl, rfl, rfl⟩
theorem witness_StepRunsTheDecodedInstruction :
    (withRequest State.reset .hostRequest [5, 0x0C, 0, 0] .operation).seq = .rest ∧
    decode .hostRequest [5, 0x0C, 0, 0] = some (.tocard 0x0C []) := ⟨rfl, by decide⟩
theorem witness_StepAcceptsAtTheGrainOfExchanges :
    (withRequest State.reset .hostRequest [1, 6, 0, 0] .exchange).seq = .rest ∧
    decode .hostRequest [1, 6, 0, 0] = some (.rd 6) ∧ isOperation (.rd 6) = true := ⟨rfl, by decide, rfl⟩
theorem witness_FetchWordRunsTheTableWord : decodeTableWord 8 0x0 = some (.wr 0 0) := by decide
theorem witness_RestingEngineKeepsItsState : State.reset.seq = .rest ∧ State.reset.requests = [] := ⟨rfl, rfl⟩
theorem witness_BusyEngineRefusesEveryInstruction : (acceptOperation (.rd 6) State.reset).seq ≠ .rest := by decide

/-- The invariant in the middle of an operation. -/
theorem witness_inv_middle : (acceptOperation (.tocard 0x0C [1]) State.reset).Inv where
  regs := by decide
  cs := rfl
  nLow := by decide
  nHigh := by decide
  dataLen := by decide
  lastBits := by decide
  bitLength := fun _ _ => by decide
  budget := fun _ => by decide
  position := rfl
  fifo := rfl

theorem witness_MidOperationStepIsOneExchange :
    (acceptOperation (.tocard 0x0C [1]) State.reset).Inv ∧
    (acceptOperation (.tocard 0x0C [1]) State.reset).seq ≠ .rest ∧
    ∃ t, step (acceptOperation (.tocard 0x0C [1]) State.reset) = .next t := ⟨witness_inv_middle, by decide, _, rfl⟩
theorem witness_LatchesKeepTheirValuesInsideAnOperation :
    (acceptOperation (.setb 0x14 3) State.reset).seq ≠ .rest ∧
    ∃ t, step (acceptOperation (.setb 0x14 3) State.reset) = .next t := ⟨by decide, _, rfl⟩
theorem witness_ExchangeStepsRunTheWholeOperation :
    isOperation (.crc [0x30]) = true ∧ State.reset.seq = .rest := ⟨rfl, rfl⟩

/-- The invariant at REST, and a step from there. -/
theorem witness_StepKeepsTheInvariant :
    (chip [0x00]).Inv ∧ ∃ t, step ((chip [0x00]).withFetchWord 8 0x1) = .next t :=
  ⟨⟨by decide, rfl, by decide, by decide, by decide, by decide, fun _ _ => by decide, fun _ => by decide, rfl, rfl⟩, _, rfl⟩
theorem witness_StepKeepsTheParameters : ∃ t, step (State.reset.withFetchWord 16 0x020F) = .next t := ⟨_, rfl⟩
theorem witness_HistoryOnlyGrows : ∃ t, step (State.reset.withFetchWord 8 0xA0) = .next t := ⟨_, rfl⟩
theorem witness_UnconstrainedChipNeverFaults :
    State.reset.chip = .unconstrained ∧ ∃ t, step State.reset = .next t := ⟨rfl, _, rfl⟩

/-- The premise of the statements of WR, RD, SETB, CLRB, the bus frames, `init`; with the constraints on the parameters, of the
completion statements of CRC and TOCARD and of `writeBlock`. -/
theorem witness_rest_unconstrained :
    State.reset.seq = .rest ∧ State.reset.chip = .unconstrained ∧ State.reset.cfg.wf := by decide
theorem witness_ChipCommandsWriteTheCommandRegister :
    (Instr.cmdIdle, State.reset.cfg.cmdIdle) ∈ [(Instr.cmdIdle, State.reset.cfg.cmdIdle), (.cmdCalcCrc, 0x03),
      (.cmdTransceive, 0x0C), (.cmdSoftReset, 0x0F)] := by decide
theorem witness_TagOpcodesEnterTheFifo :
    (Instr.tagWrite, (0xA0 : Byte)) ∈ [(Instr.tagRead, (0x30 : Byte)), (.tagWrite, 0xA0)] := by decide

/-- One read, some reads, and the whole budget without a flag. -/
theorem witness_CrcRunsItsSixSteps :
    PollReads (fun v => v &&& (chip []).cfg.crcDoneBit != 0) (chip [0, 0, 4]) 2 255 1 ∧
    PollReads (fun v => v &&& (chip []).cfg.crcDoneBit != 0) (chip [0, 0, 0, 4]) 2 255 2 ∧
    PollReads (fun v => v &&& (chip []).cfg.crcDoneBit != 0) (chip [0, 0, 0, 0]) 2 2 2 :=
  ⟨pollReads_of_pollsTo (by decide), pollReads_of_pollsTo (by decide), pollReads_of_pollsTo (by decide)⟩

/-- Exhausted: with the transceive command and the flag on the last permitted read, with another command and no flag. -/
theorem witness_TocardExhaustedReturnsError :
    PollReads (trxSignalled (chip []).cfg) (chip [0, 0, 0, 0, 0x20] (trx := 2)) (readsBeforePoll 0x0C) 2 2 ∧
    PollReads (trxSignalled (chip []).cfg) (chip [0, 0, 0, 0] (trx := 2)) (readsBeforePoll 0x03) 2 2 :=
  ⟨pollReads_of_pollsTo (by decide), pollReads_of_pollsTo (by decide)⟩

/-- The chip with DRAIN_ON_ERROR false. -/
def noDrainOnError (answers : List Byte) : State :=
  { chip answers with cfg := { Config.defaults with drainOnError := false } }

/-- No drain: another command, and an error without DRAIN_ON_ERROR. -/
theorem witness_TocardSignalledWithoutDrain :
    (PollReads (trxSignalled (chip []).cfg) (chip [0, 0, 0x10]) (readsBeforePoll 0x03) 2000 1 ∧ (0x03 : Byte) ≠ 0x0C) ∧
    (PollReads (trxSignalled (noDrainOnError []).cfg) (noDrainOnError [0, 0, 0, 0x10, 0, 0x08]) (readsBeforePoll 0x0C) 2000 1 ∧
      (noDrainOnError [0, 0, 0, 0x10, 0, 0x08]).cfg.drainOnError = false ∧
      (noDrainOnError [0, 0, 0, 0x10, 0, 0x08]).answer (readsBeforePoll 0x0C + 1 + 1) &&& 0x1B ≠ 0) :=
  ⟨⟨pollReads_of_pollsTo (by decide), by decide⟩, pollReads_of_pollsTo (by decide), rfl, by decide⟩

/-- A drain at a level, with a count and an error byte, after one poll read. -/
def draining (error level control : Byte) : State := chip [0, 0, 0, 0x20, 0, error, level, control]

/-- Drain with no error bit and with one, at the levels 0, 1, 16, 17 and 255, with a count of 0 and of 7. -/
theorem witness_TocardSignalledWithDrain :
    (∀ x ∈ [draining 0 0 7, draining 0 1 0, draining 0 16 0, draining 0 17 7, draining 0x08 255 7],
      pollsTo (trxSignalled x.cfg) x 3 x.cfg.pollBudgetTrx 1 = true ∧ 1 < x.cfg.pollBudgetTrx ∧
      (x.cfg.drainOnError = true ∨ x.answer (1 + 4) &&& 0x1B = 0) ∧ x.cfg.bitlenFromClamped = true) ∧
    (draining 0 0 7).answer (1 + 4) &&& 0x1B = 0 ∧ (draining 0x08 255 7).answer (1 + 4) &&& 0x1B ≠ 0 ∧
    [draining 0 0 7, draining 0 1 0, draining 0 16 0, draining 0 17 7, draining 0x08 255 7].map
      (fun x => max 1 (min 16 (x.answer (1 + 5)).toNat)) = [1, 1, 16, 16, 16] ∧
    [draining 0 0 7, draining 0 1 0].map (fun x => (x.answer (1 + 6) &&& x.cfg.lastBitsMask).toNat) = [7, 0] := by
  decide

/-- Unclamped: level 0 with count 0, level 0 with count 3, level 20 with count 3. -/
def unclamped (level control : Byte) : State :=
  { chip [0, 0, 0, 0x20, 0, 0, level, control] with cfg := { Config.defaults with bitlenFromClamped := false } }

theorem witness_TocardUnclampedBitLength :
    PollReads (trxSignalled Config.defaults) (unclamped 0 3) 3 2000 1 ∧
    ((unclamped 0 0).answer 6, (unclamped 0 0).answer 7 &&& 0x07) = (0, 0) ∧
    ((unclamped 0 3).answer 6, (unclamped 0 3).answer 7 &&& 0x07) = (0, 3) ∧
    ((unclamped 20 3).answer 6, (unclamped 20 3).answer 7 &&& 0x07) = (20, 3) :=
  ⟨pollReads_of_pollsTo (by decide), by decide, by decide, by decide⟩

/-- Each of the four statuses' conditions on a run (R260). -/
theorem witness_StatusPriority :
    look (exec (.tocard 0x03 []) (chip [0, 0, 0x30, 0, 0] (trx := 1))) (fun t => (t.budget, t.status)) = some (0, .error) ∧
    look (exec (.tocard 0x03 []) (chip [0, 0, 0x31, 0, 0x01])) (fun t => (t.err &&& 0x1B, t.status)) = some (1, .error) ∧
    look (exec (.tocard 0x03 []) (chip [0, 0, 0x31, 0, 0x04])) (fun t => t.status) = some .timeout ∧
    look (exec (.tocard 0x03 []) (chip [0, 0, 0x10, 0, 0])) (fun t => t.status) = some .ok := by decide

/-- Each instruction answers a next state: the premise of the frames. -/
theorem witness_frames :
    (∃ t, exec (.wr 0x02 0xF7) State.reset = .next t) ∧ (∃ t, exec (.rd 0x06) State.reset = .next t) ∧
    (∃ t, exec (.setb 0x14 3) State.reset = .next t) ∧ (∃ t, exec (.clrb 0x0D 0x80) State.reset = .next t) ∧
    (∃ t, exec (.busWr 0x01 0x0F) State.reset = .next t) ∧ (∃ t, exec (.busRd 0x04 0) State.reset = .next t) ∧
    (∃ t, exec .cmdIdle State.reset = .next t) ∧ (∃ t, exec .cmdCalcCrc State.reset = .next t) ∧
    (∃ t, exec .cmdTransceive State.reset = .next t) ∧ (∃ t, exec .cmdSoftReset State.reset = .next t) ∧
    (∃ t, exec .tagRead State.reset = .next t) ∧ (∃ t, exec .tagWrite State.reset = .next t) ∧
    (∃ t, exec (.crc []) State.reset = .next t) ∧ (∃ t, exec (.tocard 0x0F []) State.reset = .next t) :=
  ⟨⟨_, rfl⟩, ⟨_, rfl⟩, ⟨_, rfl⟩, ⟨_, rfl⟩, ⟨_, rfl⟩, ⟨_, rfl⟩, ⟨_, rfl⟩, ⟨_, rfl⟩, ⟨_, rfl⟩, ⟨_, rfl⟩, ⟨_, rfl⟩,
    ⟨_, rfl⟩, ⟨_, rfl⟩, ⟨_, rfl⟩⟩

/-- Two rest states with different engine registers and the same answers. -/
theorem witness_OutcomeDependsOnlyOnOperandsAndAnswers :
    (chip [1, 2]).seq = .rest ∧ ({ chip [1, 2] with tmp := 9, status := .ok } : State).seq = .rest ∧
    (chip [1, 2]).cfg.wf ∧ chip [1, 2] ≠ { chip [1, 2] with tmp := 9, status := .ok } := by decide

/-- The three ends of a poll exchange: budget spent, flag seen, neither. -/
def polling (budget : Nat) (answer : Byte) : State := { chip [answer] with seq := .t5, budget := budget }

theorem witness_PollLeavesExecutingAsLabelled :
    look (step (polling 1 0x30)) State.fsmLabel = some none ∧
    look (step (polling 2 0x30)) State.fsmLabel = some (some .irqSignaled) ∧
    look (step (polling 2 0x00)) State.fsmLabel = some (some .executing) := by decide

/-- A position of each clause, with the budget spent and not. -/
theorem witness_ErrorReadOnlyAfterAPollThatWasNotExhausted :
    look (step { polling 0 0 with seq := .t6Write }) State.seq = some .rest ∧
    look (step { polling 1 0 with seq := .t6Write }) State.seq = some .t7Error ∧
    look (step { polling 1 0x1B with seq := .t7Error }) State.err = some 0x1B := by decide

/-- SimChip with room for two bytes, one of them taken. -/
def small : State := { p5 with cfg := { Config.defaults with fifoCap := 2 }, chip := .sim { sim5 with fifo := [7] } }

theorem witness_SimChipStopsOnFullFifo :
    exec (.wr 0x09 1) { small with chip := .sim { sim5 with fifo := [7, 8] } } = .fault .simFifoFull ∧
    chipAddr 0x49 = 0x09 := ⟨rfl, rfl⟩
theorem witness_SimChipFifoIsAQueue :
    small.chip = .sim { sim5 with fifo := [7] } ∧ [(7 : Byte)].length + [(8 : Byte)].length ≤ small.cfg.fifoCap := by decide
theorem witness_SimChipFifoIsAQueue_read :
    result (exec (.rd 0x49) small) = some (.byte 7) ∧ chipAddr 0x49 = 0x09 := by decide
theorem witness_SimChipLatchesTheCrcOfItsFifo :
    p5.seq = .rest ∧ p5.chip = .sim sim5 := by decide
theorem witness_SimChipStartSendTakesTheFifoAsTheFrame :
    ({ p5 with regs := [(1, 0x0C)] } : State).regByte 0x01 = some 0x0C ∧
    (0x80 : Byte) &&& p5.cfg.startSendBit ≠ 0 := by decide
theorem witness_SimChipPollDeliversTheAnswer :
    result (exec (.rd 0x04) { p5 with chip := .sim { sim5 with pending := .trx 0 (.answer [1] 0 0 0x20), commIrq := 0x02 } }) =
      some (.byte 0x22) := by decide

/-- An answer that fits a FIFO of two bytes, and one that does not: the second completes too. -/
theorem witness_SimChipPollDeliversTheAnswer_bound :
    [1, 2].length ≤ small.cfg.fifoCap ∧ ¬ [1, 2, 3].length ≤ small.cfg.fifoCap ∧
    result (exec (.rd 0x04) { small with chip := .sim { sim5 with pending := .trx 0 (.answer [1, 2, 3] 0 0 0x20) } }) =
      some (.byte 0x20) := by decide

/-- 0x01 stays the command register though a parameter names it too, by 0x01 or by an alias. -/
theorem test_commandRegisterKeepsItsAddress :
    simPort { Config.defaults with regCrcIrq := 0x01 } 0x01 = .command ∧
    simPort { Config.defaults with regCrcResultLo := 0x41 } 0x01 = .command := by decide

/-- Level 255 and 256; a count inside the mask and one outside it. -/
theorem witness_SimChipAnswersLevelAndLastBits :
    result (exec (.rd 0x0A) { p5 with chip := .sim { sim5 with fifo := List.replicate 255 0 } }) = some (.byte 255) ∧
    look (exec (.rd 0x0A) { p5 with chip := .sim { sim5 with fifo := List.replicate 256 0 } }) State.seq = some .rest ∧
    (5#3).setWidth 8 &&& ~~~ (0x07 : Byte) = 0 ∧ ¬ (5#3).setWidth 8 &&& ~~~ (0x03 : Byte) = 0 :=
  ⟨by decide +kernel, by decide +kernel, by decide, by decide⟩

/-- P5: a block read over SimChip that succeeds, and one whose frame SimChip answers with silence. -/
theorem witness_ReadBlockReturnsSixteenBytesOrFails :
    (match readBlock 0x04 p5 with
      | .next r => r.value
      | .fault _ => none
      | .refused _ => none) = some [0x48, 0x45, 0x4C, 0x4C, 0x4F, 0x20, 0x20, 0x20, 0x20, 0x20, 0x20, 0x20, 0x20, 0x20,
        0x20, 0x20] ∧
    (match readBlock 0x04 { p5 with chip := .sim { sim5 with tags := [([0x30, 0x04, 0x26, 0xEE], .silence 0x01)] } } with
      | .next r => r.log
      | .fault _ => []
      | .refused _ => []) = [.readError] := by decide +kernel

/-- `init` after which the antenna step writes (one TX-enable bit set, none set) and after which it does not. -/
theorem witness_InitPerformsItsWritesAndTheAntennaStep :
    (chip [0x01]).seq = .rest ∧ (chip [0x01]).chip = .unconstrained ∧
    (chip [0x00]).answer 0 &&& 0x03 ≠ 0x03 ∧ (chip [0x01]).answer 0 &&& 0x03 ≠ 0x03 ∧
    (chip [0x03]).answer 0 &&& 0x03 = 0x03 := by decide

/-- A request phase that is acknowledged, and one answered by another byte. -/
def requestPhase (byte : Byte) : Option (Status × Nat × Byte) :=
  match transceiveWithCrc [0xA0, 0x04] (chip [0, 0, 4, 0x11, 0x22, 0, 0, 0, 0x20, 0x80, 0, 1, 0, byte]) with
  | .next r => some (r.state.status, r.state.dataLen, r.state.data[0])
  | .fault _ => none
  | .refused _ => none

theorem witness_WriteBlockSendsDataOnlyAfterTheAcknowledgment :
    requestPhase 0x0A = some (.ok, 1, 0x0A) ∧ requestPhase 0x00 = some (.ok, 1, 0x00) := by decide

end Sys2Proof.Machine.Tests
end

section
/-! PROOFS. The state after reset (R56, R280): the family of the invariant. -/

namespace Sys2Proof.Machine

/-- Settles O16, a range of the invariant at a time. The register space is empty, so canonical; `E.n` starts at 1, the low
end of R25; the engine rests, so no position stands past its step; and no SimChip is attached whose FIFO R89 would bound. -/
theorem resetMeetsTheInvariant : Obligations.ResetMeetsTheInvariant where
  regs := rfl
  cs := rfl
  nLow := Nat.le_refl 1
  nHigh := by decide
  dataLen := Nat.zero_le 16
  lastBits := BitVec.zero_and
  bitLength := fun _ _ => Nat.zero_le 128
  budget := fun _ => Nat.two_pow_pos 16
  position := rfl
  fifo := rfl

end Sys2Proof.Machine
end

section
/-! PROOFS. The bytes of a write frame (R100): the family of the encoding. -/

namespace Sys2Proof

/-- Bits 6 to 1 of the first byte of a write frame are the register address (R100). -/
theorem writeFrameByte_getLsbD_succ (a : RegAddr) {i : Nat} (hi : i < 6) :
    (writeFrameByte a).getLsbD (i + 1) = a.getLsbD i := by
  have habove : ¬ i + 1 < 1 := by omega
  rw [writeFrameByte, BitVec.getLsbD_append, if_neg habove, Nat.add_sub_cancel, BitVec.getLsbD_append, if_pos hi]

namespace Machine

theorem chipAddr_getLsbD (reg : Byte) {i : Nat} (hi : i < 6) : (chipAddr reg).getLsbD i = reg.getLsbD i := by
  simp [chipAddr, hi]

/-- Settles O5. The expression of R102 is the frame byte of the register the operand selects, so its bits are read off
that frame's layout: the two fixed bits, and between them the address, which is `reg[5:0]`. -/
theorem writeFrameLaysOutTheAddressBits : Obligations.WriteFrameLaysOutTheAddressBits := by
  intro reg v
  have hbyte : (reg <<< 1) &&& 0x7E = writeFrameByte (chipAddr reg) := writeAddressByte_eq reg
  have hevent : Event.W reg v = .write (writeFrameByte (chipAddr reg)) v :=
    congrArg (Event.write · v) (writeAddressByte_eq reg)
  rw [hbyte]
  refine ⟨rfl, hevent, writeFrameByte_bit7 _, writeFrameByte_bit0 _, fun i hi => ?_⟩
  rw [writeFrameByte_getLsbD_succ _ hi, chipAddr_getLsbD _ hi]

end Machine

end Sys2Proof
end

section
/-! PROOFS. Poll and error read of `toCard` at the grain of exchanges (R182 to R184): the family of the transceive operation. -/

namespace Sys2Proof.Machine

/-! ## A step in the middle of an operation -/

/-- With the unconstrained chip nothing stops a step in the middle of an operation (R61): it is the exchange of its position. -/
theorem step_eq_next_advance {s : State} (hu : s.chip = .unconstrained) (hmid : s.seq ≠ .rest) :
    step s = .next (advance s) := by
  have hstep : step s = outcome s (advance s) := by
    unfold step
    split
    · contradiction
    · rfl
  rw [hstep, outcome, hu]

theorem advance_of_t5 {s : State} (h : s.seq = .t5) :
    advance s = goto
      (if trxPollDone (pollRead Config.REG_COMM_IRQ s).cfg (pollRead Config.REG_COMM_IRQ s).budget
        (pollRead Config.REG_COMM_IRQ s).irq then .t6Read else .t5) (pollRead Config.REG_COMM_IRQ s) := by
  simp only [advance, h]

theorem advance_of_t6Write {s : State} (h : s.seq = .t6Write) :
    advance s = afterStop (writeTmpAndNot Config.REG_BIT_FRAMING s.cfg.startSendBit s) := by
  simp only [advance, h]

theorem advance_of_t7Error {s : State} (h : s.seq = .t7Error) : advance s = afterError (readError s) := by
  simp only [advance, h]

/-! ## Labels around the poll (R37) -/

theorem fsmLabel_of_t5 {s : State} (h : s.seq = .t5) : s.fsmLabel = some .executing := by
  simp only [State.fsmLabel, h]

theorem fsmLabel_of_t6Read {s : State} (h : s.seq = .t6Read) :
    s.fsmLabel = if s.budget = 0 then none else some .irqSignaled := by
  simp only [State.fsmLabel, h]

/-- The name after a poll exchange, from the budget left and the answer alone: the loop goes on in EXECUTING, ends by a flag
in IRQ_SIGNALED, or is exhausted and has no name. -/
theorem fsmLabel_after_poll (t : State) :
    (goto (if trxPollDone t.cfg t.budget t.irq then .t6Read else .t5) t).fsmLabel =
      if t.budget = 0 then none
      else if trxSignalled t.cfg t.irq = true then some .irqSignaled else some .executing := by
  by_cases hspent : t.budget = 0
  · have hdone : trxPollDone t.cfg t.budget t.irq = true := by simp [trxPollDone, hspent]
    rw [if_pos hdone, fsmLabel_of_t6Read rfl, goto_budget, if_pos hspent, if_pos hspent]
  · have hdone : trxPollDone t.cfg t.budget t.irq = trxSignalled t.cfg t.irq := by simp [trxPollDone, hspent]
    rw [hdone, if_neg hspent]
    by_cases hflag : trxSignalled t.cfg t.irq = true
    · rw [if_pos hflag, if_pos hflag, fsmLabel_of_t6Read rfl, goto_budget, if_neg hspent]
    · rw [if_neg hflag, if_neg hflag, fsmLabel_of_t5 rfl]

/-- Settles O44. The poll exchange leaves `E.budget` one lower and the answer in `E.irq`; the name of the position after it is
read off these two. -/
theorem pollLeavesExecutingAsLabelled : Obligations.PollLeavesExecutingAsLabelled := by
  intro s t hseq hu hbudget hstep
  have hpoll := pollRead_same Config.REG_COMM_IRQ s
  have hspent : s.budget - 1 = 0 ↔ s.budget = 1 := by omega
  rw [step_eq_next_advance hu (by simp [hseq]), Host.Outcome.next.injEq] at hstep
  refine ⟨fsmLabel_of_t5 hseq, ?_⟩
  rw [← hstep, advance_of_t5 hseq, fsmLabel_after_poll, pollRead_irq _ hu, hpoll.cfg, hpoll.budget]
  simp only [hspent]

/-! ## The exchange trace across steps 6 and 7 -/

theorem Ran.exchanges_eq {s t : State} {tr : List Event} (h : Ran s t tr) :
    exchanges t.history = exchanges s.history ++ tr := by
  rw [h.history, exchanges, List.filter_append, List.filter_eq_self.2 h.isExchange, exchanges]

/-- A completion is an event of its own and no bus exchange. -/
theorem exchanges_complete (r : OpResult) (s : State) : exchanges (complete r s).history = exchanges s.history := by
  simp [exchanges, Event.isExchange]

theorem exchanges_afterStop (s : State) : exchanges (afterStop s).history = exchanges s.history := by
  unfold afterStop
  split
  · exact exchanges_complete _ s
  · rfl

theorem exchanges_afterError (s : State) : exchanges (afterError s).history = exchanges s.history := by
  unfold afterError
  split
  · rfl
  · exact exchanges_complete _ s

theorem afterStop_seq (s : State) : (afterStop s).seq = if s.budget = 0 then .rest else .t7Error := by
  unfold afterStop
  split <;> rfl

theorem afterError_err (s : State) : (afterError s).err = s.err := by
  unfold afterError
  split <;> rfl

theorem readError_err {s : State} (hu : s.chip = .unconstrained) : (readError s).err = s.answer 0 :=
  regRead_rx Config.REG_ERROR hu

/-- Settles O45, a position at a time. The write of step 6 leaves the budget as the poll left it, and the budget alone
chooses the end or the error read; the exchange there is the one of `readError`, whose answer is kept in `E.err`. -/
theorem errorReadOnlyAfterAPollThatWasNotExhausted : Obligations.ErrorReadOnlyAfterAPollThatWasNotExhausted := by
  intro s hu
  refine ⟨fun hseq => ?_, fun hseq => ?_⟩
  · have hstop := ran_regWrite Config.REG_BIT_FRAMING (s.tmp &&& ~~~ s.cfg.startSendBit) s
    have hbudget := (writeTmpAndNot_same Config.REG_BIT_FRAMING s.cfg.startSendBit s).budget
    refine ⟨advance s, step_eq_next_advance hu (by simp [hseq]), ?_, ?_⟩
    · rw [advance_of_t6Write hseq, exchanges_afterStop]
      exact hstop.exchanges_eq
    · rw [advance_of_t6Write hseq, afterStop_seq, hbudget]
  · have hread := ran_readError s
    rw [readError_err hu] at hread
    refine ⟨advance s, step_eq_next_advance hu (by simp [hseq]), ?_, ?_⟩
    · rw [advance_of_t7Error hseq, exchanges_afterError]
      exact hread.exchanges_eq
    · rw [advance_of_t7Error hseq, afterError_err, readError_err hu]

end Sys2Proof.Machine
end

section
/-! PROOFS. Reading a block (R230): the family of the host sequences. -/

namespace Sys2Proof.Machine

/-! ## The two operations a block read is made of -/

/-- Nothing stops an instruction at REST with the unconstrained chip (R61). -/
theorem atRest_unconstrained {s : State} (hrest : s.seq = .rest) (hu : s.chip = .unconstrained) (t : State) :
    atRest s t = .next t := by
  simp only [atRest, hrest, outcome, hu]

theorem exec_crc_completes (data : List Byte) {s : State} (hrest : s.seq = .rest) (hu : s.chip = .unconstrained) :
    ∃ t, exec (.crc data) s = .next t ∧ t.seq = .rest ∧ t.chip = .unconstrained := by
  obtain ⟨_, hran, -⟩ := ran_computeCrc data (acceptCrc data s)
  exact ⟨completeCrc (computeCrc data (acceptCrc data s)), atRest_unconstrained hrest hu _, rfl, hran.unconstrained hu⟩

theorem drainCount_le (lvl : Byte) : drainCount lvl ≤ 16 := by
  simp only [drainCount, clamp, Config.DATA_MAX]
  split_ifs <;> omega

/-- The record never claims more bytes than `E.data` holds (R29): step 1 leaves the length 0, and only the drain sets
it, to the clamped level. -/
theorem toCard_dataLen_le (command : Byte) (sendData : List Byte) (s : State) :
    (toCard command sendData (acceptTocard command sendData s)).dataLen ≤ 16 := by
  obtain ⟨-, -, -, -, -, -, -, -, hlen, -⟩ := ran_toCard command sendData (acceptTocard command sendData s)
  rcases hlen with hkept | ⟨hdrained, lvl, hn⟩
  · simp [hkept]
  · rw [hdrained, hn]
    exact drainCount_le lvl

theorem exec_tocard_completes (command : Byte) (sendData : List Byte) {s : State} (hrest : s.seq = .rest)
    (hu : s.chip = .unconstrained) :
    ∃ u, exec (.tocard command sendData) s = .next u ∧ u.seq = .rest ∧ u.chip = .unconstrained ∧ u.dataLen ≤ 16 := by
  obtain ⟨_, _, hran, -⟩ := ran_toCard command sendData (acceptTocard command sendData s)
  exact ⟨completeCard (toCard command sendData (acceptTocard command sendData s)), atRest_unconstrained hrest hu _, rfl,
    hran.unconstrained hu, toCard_dataLen_le command sendData s⟩

/-! ## The record and its acceptance -/

theorem transceiveWithCrc_of_exec {payload : List Byte} {s t u : State} (hcrc : exec (.crc payload) s = .next t)
    (hcard : exec (.tocard 0x0C (payload ++ [t.crcLo, t.crcHi])) t = .next u) :
    transceiveWithCrc payload s = .next ⟨u, resultRecord u, []⟩ := by
  simp only [transceiveWithCrc, hcrc, andThen, hcard]

theorem resultRecord_data_of_full {u : State} (hfull : u.dataLen = 16) : (resultRecord u).data = u.data.toList := by
  simp [resultRecord, hfull]

/-- The acceptance test of R230 in the result registers. The bound is needed: a length above 16 would be cut to 16 bytes
in the record. -/
theorem readAccepted_resultRecord {u : State} (hlen : u.dataLen ≤ 16) :
    readAccepted (resultRecord u) = true ↔ u.status = .ok ∧ u.dataLen = 16 := by
  simp [readAccepted, resultRecord, hlen]

theorem readBlock_of_accepted {a : Byte} {s u : State} {r : TransceiveResult}
    (htrx : transceiveWithCrc [Config.TAG_READ, a] s = .next ⟨u, r, []⟩) (hacc : readAccepted r = true) :
    readBlock a s = .next ⟨u, some r.data, []⟩ := by
  rw [readBlock, htrx]
  simp [thenRun, hacc]

theorem readBlock_of_rejected {a : Byte} {s u : State} {r : TransceiveResult}
    (htrx : transceiveWithCrc [Config.TAG_READ, a] s = .next ⟨u, r, []⟩) (hrej : ¬ readAccepted r = true) :
    readBlock a s = .next ⟨u, none, [.readError]⟩ := by
  rw [readBlock, htrx]
  simp [thenRun, hrej]

/-- Settles O52. Both operations complete, so the block read ends in the acceptance test of their record; a record that
never claims more than 16 bytes passes it exactly when the status is OK and `E.dataLen` is 16. -/
theorem readBlockReturnsSixteenBytesOrFails : Obligations.ReadBlockReturnsSixteenBytesOrFails := by
  intro a s hrest hu _
  obtain ⟨t, hcrc, htrest, htu⟩ := exec_crc_completes [0x30, a] hrest hu
  obtain ⟨u, hcard, -, -, hlen⟩ := exec_tocard_completes 0x0C [0x30, a, t.crcLo, t.crcHi] htrest htu
  have htrx : transceiveWithCrc [0x30, a] s = .next ⟨u, resultRecord u, []⟩ := transceiveWithCrc_of_exec hcrc hcard
  have hiff := readAccepted_resultRecord hlen
  by_cases hacc : readAccepted (resultRecord u) = true
  · have hgood := hiff.1 hacc
    exact ⟨t, u, _, hcrc, hcard, readBlock_of_accepted htrx hacc, rfl,
      fun _ => ⟨congrArg some (resultRecord_data_of_full hgood.2), rfl⟩, fun hbad => absurd hgood hbad⟩
  · exact ⟨t, u, _, hcrc, hcard, readBlock_of_rejected htrx hacc, rfl,
      fun hgood => absurd (hiff.2 hgood) hacc, fun _ => ⟨rfl, rfl⟩⟩

end Sys2Proof.Machine
end

section
/-! PROOFS. Round trips of the decoder and the encoder (30_encoding.md): the family of the encoding. -/

namespace Sys2Proof

/-! ## Payloads (R110, R111) -/

theorem noPayload_eq_some {len : Byte} {bytes : List Byte} {i j : Instr} :
    noPayload len bytes i = some j ↔ (len = 0 ∧ bytes = []) ∧ i = j := by
  simp [noPayload]

theorem takePayload_eq_some {len : Byte} {bytes data : List Byte} :
    takePayload len bytes = some data ↔ bytes.length = len.toNat ∧ bytes = data := by
  simp [takePayload]

/-- The length a request states is the length of its payload, as long as the `len` field can hold it. -/
theorem takePayload_ofNat_length {data : List Byte} (h : data.length ≤ maxPayload) :
    takePayload (BitVec.ofNat 8 data.length) data = some data := by
  have hfits : data.length < 2 ^ 8 := by simp only [maxPayload] at h; omega
  exact takePayload_eq_some.2 ⟨by rw [BitVec.toNat_ofNat, Nat.mod_eq_of_lt hfits], rfl⟩

theorem length_le_of_takePayload {len : Byte} {bytes data : List Byte} (h : takePayload len bytes = some data) :
    data.length ≤ maxPayload := by
  obtain ⟨hlen, rfl⟩ := takePayload_eq_some.1 h
  have := len.isLt
  simp only [maxPayload]
  omega

/-! ## Each format read back -/

theorem decodeBusFrame_writeFrameByte (a : RegAddr) (v : Byte) :
    decodeBusFrame [writeFrameByte a, v] = some (.busWr a v) := by
  rw [decodeBusFrame, writeFrameByte_bit0, writeFrameByte_bit7, addressOnWire_writeFrameByte]
  rfl

theorem decodeBusFrame_readFrameByte (a : RegAddr) (d : Byte) :
    decodeBusFrame [readFrameByte a, d] = some (.busRd a d) := by
  rw [decodeBusFrame, readFrameByte_bit0, readFrameByte_bit7, addressOnWire_readFrameByte]
  rfl

theorem decodeHostRequest_crc {data : List Byte} (h : data.length ≤ maxPayload) :
    decodeHostRequest (encode (.crc data)) = some (.crc data) :=
  congrArg (Option.map Instr.crc) (takePayload_ofNat_length h)

theorem decodeHostRequest_tocard (command : Byte) {sendData : List Byte} (h : sendData.length ≤ maxPayload) :
    decodeHostRequest (encode (.tocard command sendData)) = some (.tocard command sendData) :=
  congrArg (Option.map (Instr.tocard command)) (takePayload_ofNat_length h)

/-- Settles O2, a row at a time. The two bus frames are told apart by bit 7 and give the address back; a request with a
payload states its length, which well-formedness keeps inside the `len` field; every other row has fixed bytes. -/
theorem decodeOfEncodeIsTheInstruction : Obligations.DecodeOfEncodeIsTheInstruction := by
  intro i hwf
  cases i with
  | busWr a v => exact decodeBusFrame_writeFrameByte a v
  | busRd a d => exact decodeBusFrame_readFrameByte a d
  | crc data => exact decodeHostRequest_crc (of_decide_eq_true hwf)
  | tocard command sendData => exact decodeHostRequest_tocard command (of_decide_eq_true hwf)
  | wr | rd | setb | clrb => rfl
  | cmdIdle | cmdCalcCrc | cmdTransceive | cmdSoftReset | tagRead | tagWrite => rfl

/-! ## What each format can give -/

theorem decodeBusFrame_sound {bytes : List Byte} {i : Instr} (h : decodeBusFrame bytes = some i) :
    i.wellFormed = true ∧ i.format = .busFrame := by
  unfold decodeBusFrame at h
  split at h
  · split_ifs at h <;> cases h <;> exact ⟨rfl, rfl⟩
  · cases h

theorem decodeHostRequest_sound {bytes : List Byte} {i : Instr} (h : decodeHostRequest bytes = some i) :
    i.wellFormed = true ∧ i.format = .hostRequest := by
  unfold decodeHostRequest at h
  split at h
  case h_2 => cases h
  split at h
  case h_5 =>
    obtain ⟨data, hdata, rfl⟩ := Option.map_eq_some_iff.1 h
    exact ⟨decide_eq_true (length_le_of_takePayload hdata), rfl⟩
  case h_6 =>
    obtain ⟨sendData, hdata, rfl⟩ := Option.map_eq_some_iff.1 h
    exact ⟨decide_eq_true (length_le_of_takePayload hdata), rfl⟩
  case h_7 => cases h
  all_goals
    obtain ⟨-, rfl⟩ := noPayload_eq_some.1 h
    exact ⟨rfl, rfl⟩

theorem decodeChipCommand_sound {bytes : List Byte} {i : Instr} (h : decodeChipCommand bytes = some i) :
    i.wellFormed = true ∧ i.format = .chipCommand := by
  unfold decodeChipCommand at h
  split at h
  · split at h <;> cases h <;> exact ⟨rfl, rfl⟩
  · cases h

theorem decodeTagOpcode_sound {bytes : List Byte} {i : Instr} (h : decodeTagOpcode bytes = some i) :
    i.wellFormed = true ∧ i.format = .tagOpcode := by
  unfold decodeTagOpcode at h
  split at h
  · split at h <;> cases h <;> exact ⟨rfl, rfl⟩
  · cases h

/-- Settles O3, a format at a time. -/
theorem decodedInstructionIsWellFormed : Obligations.DecodedInstructionIsWellFormed := by
  intro f bytes i h
  cases f with
  | busFrame => exact decodeBusFrame_sound h
  | hostRequest => exact decodeHostRequest_sound h
  | chipCommand => exact decodeChipCommand_sound h
  | tagOpcode => exact decodeTagOpcode_sound h

/-- Settles O1. Each word is the encoding of the instruction it stands for, so reading it back is the round trip. -/
theorem writtenOutWordsDecode : Obligations.WrittenOutWordsDecode :=
  ⟨decodeBusFrame_writeFrameByte 0x09 0xFF, decodeBusFrame_readFrameByte 0x06 0x00, rfl, rfl,
    decodeHostRequest_tocard 0x0C (sendData := [0x30, 0x04]) (by decide), rfl, rfl⟩

namespace Machine

theorem chipAddr_and_low (reg : Byte) : chipAddr (reg &&& 0x3F) = chipAddr reg := by
  revert reg; decide

/-- Settles O6. Both address bytes are frame bytes of `chipAddr reg`, and `chipAddr` sees the low six bits alone. -/
theorem addressByteKeepsSixBits : Obligations.AddressByteKeepsSixBits := by
  intro reg
  simp only [writeAddressByte_eq, readAddressByte_eq, chipAddr_and_low, writeFrameByte_bit0, writeFrameByte_bit7,
    readFrameByte_bit0, readFrameByte_bit7, addressOnWire_writeFrameByte, addressOnWire_readFrameByte, and_self]

end Machine

end Sys2Proof
end

section
/-! PROOFS. The step at REST (R110, R113, R266): the family of the step. -/

namespace Sys2Proof.Machine

/-! ## An instruction as a whole -/

/-- The state that all exchanges of an instruction lead to, acceptance and completion included. `exec_eq_atRest` ties it to
the model: what `exec` adds is the check of the position and SimChip's stop. -/
def performed (i : Instr) (s : State) : State :=
  match i with
  | .busWr a v => writeExchange (writeFrameByte a) v s
  | .busRd a d => readExchange (readFrameByte a) d s
  | .wr reg value => complete .nothing (regWrite reg value (acceptWr reg value s))
  | .rd reg => completeRead (regRead reg (acceptRd reg s))
  | .setb reg mask => complete .nothing (setBits reg mask (acceptSetb reg mask s))
  | .clrb reg mask => complete .nothing (clearBits reg mask (acceptClrb reg mask s))
  | .crc data => completeCrc (computeCrc data (acceptCrc data s))
  | .tocard command sendData => completeCard (toCard command sendData (acceptTocard command sendData s))
  | .cmdIdle => issue s.cfg.cmdIdle s
  | .cmdCalcCrc => issue Config.CMD_CALC_CRC s
  | .cmdTransceive => issue Config.CMD_TRANSCEIVE s
  | .cmdSoftReset => issue Config.CMD_SOFT_RESET s
  | .tagRead => regWrite Config.REG_FIFO_DATA Config.TAG_READ s
  | .tagWrite => regWrite Config.REG_FIFO_DATA Config.TAG_WRITE s

theorem exec_eq_atRest (i : Instr) (s : State) : exec i s = atRest s (performed i s) := by
  cases i <;> rfl

theorem exec_unconstrained (i : Instr) {s : State} (hrest : s.seq = .rest) (hu : s.chip = .unconstrained) :
    exec i s = .next (performed i s) := by
  rw [exec_eq_atRest, atRest_unconstrained hrest hu]

theorem exec_next {i : Instr} {s t : State} (h : exec i s = .next t) : s.seq = .rest ∧ t = performed i s :=
  atRest_next (exec_eq_atRest i s ▸ h)

theorem atRest_of_busy {s : State} (hbusy : s.seq ≠ .rest) (t : State) : atRest s t = .refused .notAtRest := by
  unfold atRest
  split
  · contradiction
  · rfl

/-- Settles O11: every instruction checks the position first. -/
theorem busyEngineRefusesEveryInstruction : Obligations.BusyEngineRefusesEveryInstruction := by
  intro i s hbusy
  rw [exec_eq_atRest, atRest_of_busy hbusy]

/-! ## What the step answers at REST -/

theorem step_of_noRequest {s : State} (hrest : s.seq = .rest) (hnone : s.requests = []) : step s = .next s := by
  simp only [step, hrest, hnone]

theorem step_of_unreadable {s : State} {r : Request} {rest : List Request} (hrest : s.seq = .rest)
    (hr : s.requests = r :: rest) (hfetch : fetch r = none) : step s = .refused .noOperation := by
  simp only [step, hrest, hr, hfetch]

theorem step_of_fetched {s : State} {r : Request} {rest : List Request} {i : Instr} (hrest : s.seq = .rest)
    (hr : s.requests = r :: rest) (hfetch : fetch r = some i) :
    step s = start r.grain i { s with requests := rest } := by
  simp only [step, hrest, hr, hfetch]

theorem step_of_busy {s : State} (hbusy : s.seq ≠ .rest) : step s = stepExchange s := by
  unfold step
  split
  · contradiction
  · rfl

/-- Settles O10. -/
theorem restingEngineKeepsItsState : Obligations.RestingEngineKeepsItsState :=
  fun _ hrest hnone => step_of_noRequest hrest hnone

/-- Settles O7: at the grain of operations the start of an instruction is `exec`. -/
theorem stepRunsTheDecodedInstruction : Obligations.StepRunsTheDecodedInstruction :=
  fun _ _ _ _ _ hrest hr hdec => step_of_fetched hrest hr hdec

/-- Settles O9. A placed table word is a request at the grain of operations whose bytes the decoder reads, and taking it
off the queue leaves the queue as it was. -/
theorem fetchWordRunsTheTableWord : Obligations.FetchWordRunsTheTableWord :=
  fun s nbits w i hdec => stepRunsTheDecodedInstruction (s.withFetchWord nbits w) _ _ s.requests i rfl rfl hdec

theorem decodeHostRequest_reserved {op : Byte} (hop : op = 6 ∨ op = 7) (a b len : Byte) (payload : List Byte) :
    decodeHostRequest (op :: a :: b :: len :: payload) = none := by
  rcases hop with rfl | rfl <;> rfl

/-- Settles O4: no arm of the decoder takes the two op-selects, whatever follows them. -/
theorem reservedOpSelectIsRefused : Obligations.ReservedOpSelectIsRefused :=
  fun _ _ a b len payload _ _ hop hrest hr =>
    step_of_unreadable hrest hr (decodeHostRequest_reserved hop a b len payload)

/-! ## Acceptance (R21, R110) -/

theorem start_exchange {i : Instr} (hop : isOperation i = true) (s : State) :
    start .exchange i s = .next (acceptOperation i s) := by
  simp only [start, hop, if_true]

/-- Acceptance leaves REST, records the request and nothing else in the history, and stores to no chip register. -/
theorem acceptOperation_of_operation {i : Instr} (hop : isOperation i = true) (s : State) :
    (acceptOperation i s).seq ≠ .rest ∧ (acceptOperation i s).history = s.history ++ [.request i] ∧
      (acceptOperation i s).regs = s.regs := by
  cases i with
  | wr | rd | setb | clrb | crc | tocard => exact ⟨by simp [acceptOperation], rfl, rfl⟩
  | busWr | busRd | cmdIdle | cmdCalcCrc | cmdTransceive | cmdSoftReset | tagRead | tagWrite => cases hop

/-- Settles O8. The step is the acceptance of the decoded operation, and which operands that latches is read off the accepted
state, an operation at a time. -/
theorem stepAcceptsAtTheGrainOfExchanges : Obligations.StepAcceptsAtTheGrainOfExchanges := by
  intro s f bytes rest i hrest hr hdec hop
  obtain ⟨hseq, hhist, hregs⟩ := acceptOperation_of_operation hop { s with requests := rest }
  have hstep : step s = .next (acceptOperation i { s with requests := rest }) :=
    (step_of_fetched hrest hr hdec).trans (start_exchange hop _)
  refine ⟨hstep, hseq, hhist, hregs, fun t ht => ?_⟩
  rw [hstep, Host.Outcome.next.injEq] at ht
  subst ht
  refine ⟨?wr, ?rd, ?setb, ?clrb, ?crc, ?tocard⟩
  case wr => rintro reg value rfl; exact ⟨rfl, rfl, rfl⟩
  case rd => rintro reg rfl; exact ⟨rfl, rfl⟩
  case setb => rintro reg mask rfl; exact ⟨rfl, rfl, rfl⟩
  case clrb => rintro reg mask rfl; exact ⟨rfl, rfl, rfl⟩
  case crc => rintro data rfl; exact ⟨rfl, rfl⟩
  case tocard => rintro command sendData rfl; exact ⟨rfl, rfl, rfl⟩

/-- Settles O30: acceptance does step 1 in the same update. -/
theorem acceptingTocardResetsTheResult : Obligations.AcceptingTocardResetsTheResult := fun _ _ _ => rfl

/-- Settles O15. Each part is read off the reset state; its register space is empty, so no address is known. -/
theorem resetRestsWithChipSelectHigh : Obligations.ResetRestsWithChipSelectHigh := ⟨rfl, rfl, rfl, fun _ => rfl⟩

end Sys2Proof.Machine
end

section
/-! PROOFS. One step of the machine, whatever it is (R36, R62, R77, R86): what it leaves in the history, the parameters, the
chip and the latches. -/

namespace Sys2Proof.Machine

/-! ## One exchange of the sequencer -/

/-- What one exchange of the sequencer can lead to, before the position moves: a write, or a read whose answer goes to
one register. -/
inductive Exchanged (s : State) : State → Prop
  | write (reg v : Byte) : Exchanged s (regWrite reg v s)
  | writeThenBudget (reg v : Byte) : Exchanged s (loadCrcBudget (regWrite reg v s))
  | result (reg : Byte) : Exchanged s { regRead reg s with rdata := (regRead reg s).rx }
  | tmp (reg : Byte) : Exchanged s (readTmp reg s)
  | poll (reg : Byte) : Exchanged s (pollRead reg s)
  | crcLo : Exchanged s (readCrcLo s)
  | crcHi : Exchanged s (readCrcHi s)
  | error : Exchanged s (readError s)
  | level : Exchanged s (readLevel s)
  | lastBits : Exchanged s (readLastBits s)
  | byte (i : Nat) : Exchanged s (readData i s)
  | lastByte (i : Nat) : Exchanged s (setDataLen (readData i s))

/-- What `advance` can lead to: one exchange, then a position or the completion. A load position past the end of its frame,
which the invariant excludes, performs none. -/
inductive Advanced (s : State) : State → Prop
  | goto {x : State} (p : Seq) : Exchanged s x → Advanced s (goto p x)
  | complete {x : State} (r : OpResult) : Exchanged s x → Advanced s (complete r x)
  | skip (p : Seq) : positionInside s = false → Advanced s (Machine.goto p s)

theorem advanced_loadByte (i : Nat) (next : Nat → State → Seq) {s : State}
    (hin : positionInside s = decide (i < s.send.length)) : Advanced s (loadByte i next s) := by
  unfold loadByte
  split
  · exact .goto _ (.write _ _)
  · next hend => exact .skip _ (hin.trans (decide_eq_false (by simpa using hend)))

theorem advanced_afterStop {s x : State} (h : Exchanged s x) : Advanced s (afterStop x) := by
  unfold afterStop
  split
  · exact .complete _ h
  · exact .goto _ h

theorem advanced_afterError {s x : State} (h : Exchanged s x) : Advanced s (afterError x) := by
  unfold afterError
  split
  · exact .goto _ h
  · exact .complete _ h

theorem advanced_afterData (i : Nat) (s : State) : Advanced s (afterData i (readData i s)) := by
  unfold afterData
  split
  · exact .goto _ (.byte i)
  · exact .complete _ (.lastByte i)

/-- The inversion of `advance`, position by position. -/
theorem advance_advanced {s : State} (hmid : s.seq ≠ .rest) : Advanced s (advance s) := by
  unfold advance
  split
  case h_1 hrest => exact absurd hrest hmid
  case h_2 => exact .complete _ (.write _ _)
  case h_3 => exact .complete _ (.result _)
  case h_4 | h_6 | h_8 => exact .goto _ (.tmp _)
  case h_5 | h_7 => exact .complete _ (.write _ _)
  case h_9 => exact .goto _ (.write _ _)
  case h_10 => exact .goto _ (.tmp _)
  case h_11 => exact .goto _ (.write _ _)
  case h_12 i hseq => exact advanced_loadByte i _ (by simp [positionInside, hseq])
  case h_13 => exact .goto _ (.writeThenBudget _ _)
  case h_14 => exact .goto _ (.poll _)
  case h_15 => exact .goto _ .crcLo
  case h_16 => exact .complete _ .crcHi
  case h_17 => exact .goto _ (.write _ _)
  case h_18 => exact .goto _ (.tmp _)
  case h_19 => exact .goto _ (.write _ _)
  case h_20 => exact .goto _ (.tmp _)
  case h_21 | h_22 => exact .goto _ (.write _ _)
  case h_23 i hseq => exact advanced_loadByte i _ (by simp [positionInside, hseq])
  case h_24 => exact .goto _ (.write _ _)
  case h_25 => exact .goto _ (.tmp _)
  case h_26 => exact .goto _ (.write _ _)
  case h_27 => exact .goto _ (.poll _)
  case h_28 => exact .goto _ (.tmp _)
  case h_29 => exact advanced_afterStop (.write _ _)
  case h_30 => exact advanced_afterError .error
  case h_31 => exact .goto _ .level
  case h_32 => exact .goto _ .lastBits
  case h_33 i _ => exact advanced_afterData i s

theorem Exchanged.ran {s x : State} (h : Exchanged s x) : ∃ e, Ran s x [e] := by
  cases h with
  | write reg v => exact ⟨_, ran_regWrite reg v s⟩
  | writeThenBudget reg v => exact ⟨_, (ran_regWrite reg v s).update rfl rfl rfl rfl rfl⟩
  | result reg => exact ⟨_, (ran_regRead reg s).update rfl rfl rfl rfl rfl⟩
  | tmp reg => exact ⟨_, ran_readTmp reg s⟩
  | poll reg => exact ⟨_, ran_pollRead reg s⟩
  | crcLo => exact ⟨_, ran_readCrcLo s⟩
  | crcHi => exact ⟨_, ran_readCrcHi s⟩
  | error => exact ⟨_, ran_readError s⟩
  | level => exact ⟨_, ran_readLevel s⟩
  | lastBits => exact ⟨_, ran_readLastBits s⟩
  | byte i => exact ⟨_, ran_readData i s⟩
  | lastByte i => exact ⟨_, (ran_readData i s).update rfl rfl rfl rfl rfl⟩

/-- A step in the middle of an operation that goes on is `advance`. -/
theorem step_next_of_busy {s t : State} (hmid : s.seq ≠ .rest) (h : step s = .next t) : t = advance s :=
  outcome_next ((step_of_busy hmid).symm.trans h)

/-- Settles O12: `advance` performs one exchange, and only a completion adds a second event. -/
theorem midOperationStepIsOneExchange : Obligations.MidOperationStepIsOneExchange := by
  intro s t hinv hmid hstep
  have hadv := advance_advanced hmid
  rw [← step_next_of_busy hmid hstep] at hadv
  rcases hadv with ⟨p, hx⟩ | ⟨r, hx⟩ | ⟨p, hpast⟩
  · obtain ⟨e, hran⟩ := hx.ran
    exact ⟨e, [], hran.isExchange e (by simp), .inl rfl, hran.history⟩
  · obtain ⟨e, hran⟩ := hx.ran
    exact ⟨e, [.complete r], hran.isExchange e (by simp), .inr ⟨r, rfl⟩, by simp [hran.history]⟩
  · exact absurd hinv.position (by simp [hpast])

/-! ## The latches (R21, R84) -/

/-- The operand latches and the queue of requests. -/
def State.latches (s : State) : OpSel × Byte × Byte × Byte × List Byte × List Request :=
  (s.op, s.reg, s.val, s.command, s.send, s.requests)

theorem SameEngine.latches {s t : State} (h : SameEngine s t) : t.latches = s.latches := by
  simp only [State.latches, h.op, h.reg, h.val, h.command, h.send, h.requests]

theorem Exchanged.latches {s x : State} (h : Exchanged s x) : x.latches = s.latches := by
  cases h with
  | write reg v => exact (regWrite_same reg v s).latches
  | writeThenBudget reg v => exact (regWrite_same reg v s).latches
  | result reg => exact (regRead_same reg s).latches
  | tmp reg => exact (readTmp_same reg s).latches
  | poll reg => exact (pollRead_same reg s).latches
  | crcLo => exact (readCrcLo_same s).latches
  | crcHi => exact (readCrcHi_same s).latches
  | error => exact (readError_same s).latches
  | level => exact (readLevel_same s).latches
  | lastBits => exact (readLastBits_same s).latches
  | byte i => exact (readData_same i s).latches
  | lastByte i => exact (readData_same i s).latches

theorem Advanced.latches {s t : State} (h : Advanced s t) : t.latches = s.latches := by
  cases h with
  | goto _ hx => exact hx.latches
  | complete _ hx => exact hx.latches
  | skip => rfl

/-- Settles O14: no exchange writes a latch, and neither a move of the position nor a completion does. -/
theorem latchesKeepTheirValuesInsideAnOperation : Obligations.LatchesKeepTheirValuesInsideAnOperation := by
  intro s t hmid hstep
  have hkept := (advance_advanced hmid).latches
  rw [← step_next_of_busy hmid hstep] at hkept
  simpa [State.latches] using hkept

/-! ## What every step logs -/

/-- From `s` to `t` the events were appended, and what is outside the engine's registers followed from them: unlike `Ran`,
this counts requests and completions among the events. -/
structure Logged (s t : State) (events : List Event) : Prop where
  history : t.history = s.history ++ events
  regs : t.regs = Memory.after s.regs events
  cs : s.cs = .high → t.cs = .high
  cfg : t.cfg = s.cfg
  unconstrained : s.chip = .unconstrained → t.chip = .unconstrained
  fits : s.chip.fits s.cfg.fifoCap = true → t.chip.fits s.cfg.fifoCap = true

theorem Logged.refl (s : State) : Logged s s [] := ⟨by simp, rfl, id, rfl, id, id⟩

theorem Logged.trans {s t u : State} {ev ev' : List Event} (h : Logged s t ev) (h' : Logged t u ev') :
    Logged s u (ev ++ ev') where
  history := by rw [h'.history, h.history, List.append_assoc]
  regs := by rw [h'.regs, h.regs, Memory.after_append]
  cs := h'.cs ∘ h.cs
  cfg := h'.cfg.trans h.cfg
  unconstrained := h'.unconstrained ∘ h.unconstrained
  fits hf := by rw [← h.cfg]; exact h'.fits (by rw [h.cfg]; exact h.fits hf)

theorem Ran.logged {s t : State} {tr : List Event} (h : Ran s t tr) : Logged s t tr where
  history := h.history
  regs := h.regs
  cs hc := by rw [h.cs, hc, ite_self]
  cfg := h.cfg
  unconstrained := h.unconstrained
  fits := h.fits

theorem logged_goto (p : Seq) (s : State) : Logged s (goto p s) [] := ⟨by simp, rfl, id, rfl, id, id⟩

theorem logged_complete (r : OpResult) (s : State) : Logged s (complete r s) [.complete r] :=
  ⟨rfl, rfl, id, rfl, id, id⟩

theorem acceptOperation_logged (i : Instr) (s : State) : ∃ ev, Logged s (acceptOperation i s) ev := by
  cases i with
  | wr | rd | setb | clrb | crc | tocard => exact ⟨[.request _], rfl, rfl, id, rfl, id, id⟩
  | busWr | busRd | cmdIdle | cmdCalcCrc | cmdTransceive | cmdSoftReset | tagRead | tagWrite => exact ⟨[], Logged.refl s⟩

theorem Advanced.logged {s t : State} (h : Advanced s t) : ∃ ev, Logged s t ev := by
  cases h with
  | goto p hx => obtain ⟨e, hran⟩ := hx.ran; exact ⟨_, hran.logged.trans (logged_goto p _)⟩
  | complete r hx => obtain ⟨e, hran⟩ := hx.ran; exact ⟨_, hran.logged.trans (logged_complete r _)⟩
  | skip p => exact ⟨_, logged_goto p s⟩

/-- An instruction as a whole: acceptance, at least one exchange, and a completion if it is an operation of the block. A row
that is no operation leaves the position as it is. -/
theorem performed_ran (i : Instr) (s : State) :
    ∃ x tr, Ran (acceptOperation i s) x tr ∧ tr ≠ [] ∧
      ((performed i s = x ∧ x.seq = s.seq) ∨ ∃ r, performed i s = complete r x) := by
  cases i with
  | busWr a v => exact ⟨_, _, ran_writeExchange (writeFrameByte a) v s, by simp, .inl ⟨rfl, writeExchange_seq _ _ s⟩⟩
  | busRd a d => exact ⟨_, _, ran_readExchange (readFrameByte a) d s, by simp, .inl ⟨rfl, readExchange_seq _ _ s⟩⟩
  | wr reg value => exact ⟨_, _, ran_regWrite reg value _, by simp, .inr ⟨_, rfl⟩⟩
  | rd reg =>
    exact ⟨{ regRead reg (acceptRd reg s) with rdata := (regRead reg (acceptRd reg s)).rx }, _,
      (ran_regRead reg _).update rfl rfl rfl rfl rfl, by simp, .inr ⟨_, rfl⟩⟩
  | setb reg mask => exact ⟨_, _, ran_setBits reg mask _, by simp, .inr ⟨_, rfl⟩⟩
  | clrb reg mask => exact ⟨_, _, ran_clearBits reg mask _, by simp, .inr ⟨_, rfl⟩⟩
  | crc data =>
    obtain ⟨tr, hran, -, -, pre, post, rfl, -⟩ := ran_computeCrc data (acceptCrc data s)
    exact ⟨_, _, hran, by simp, .inr ⟨_, rfl⟩⟩
  | tocard command sendData =>
    obtain ⟨pre, post, hran, -⟩ := ran_toCard command sendData (acceptTocard command sendData s)
    exact ⟨_, _, hran, by simp, .inr ⟨_, rfl⟩⟩
  | cmdIdle | cmdCalcCrc | cmdTransceive | cmdSoftReset | tagRead | tagWrite =>
    exact ⟨_, _, ran_regWrite _ _ s, by simp, .inl ⟨rfl, regWrite_seq _ _ s⟩⟩

theorem performed_logged (i : Instr) (s : State) : ∃ ev, Logged s (performed i s) ev := by
  obtain ⟨ev, hacc⟩ := acceptOperation_logged i s
  obtain ⟨x, tr, hran, -, ⟨hx, -⟩ | ⟨r, hx⟩⟩ := performed_ran i s
  · exact ⟨_, hx ▸ hacc.trans hran.logged⟩
  · exact ⟨_, hx ▸ (hacc.trans hran.logged).trans (logged_complete r x)⟩

/-- Settles O42. The last exchange leaves chip-select high; an operation completes at REST, and any other row is performed
at REST and does not move. -/
theorem instructionsEndAtRestWithChipSelectHigh : Obligations.InstructionsEndAtRestWithChipSelectHigh := by
  intro i s t h
  obtain ⟨hrest, rfl⟩ := exec_next h
  obtain ⟨x, tr, hran, htr, hend⟩ := performed_ran i s
  have hcs : x.cs = .high := hran.cs.trans (if_neg htr)
  rcases hend with ⟨hx, hseq⟩ | ⟨r, hx⟩
  · rw [hx]
    exact ⟨hcs, hseq.trans hrest⟩
  · rw [hx]
    exact ⟨hcs, rfl⟩

/-- The inversion of `step`: it rests, runs or accepts the next request's instruction, or advances. -/
theorem step_cases {s t : State} (h : step s = .next t) :
    (s.seq = .rest ∧ t = s) ∨
    (∃ i rest, exec i { s with requests := rest } = .next t) ∨
    (∃ i rest, s.seq = .rest ∧ isOperation i = true ∧ t = acceptOperation i { s with requests := rest }) ∨
    (s.seq ≠ .rest ∧ t = advance s) := by
  by_cases hrest : s.seq = .rest
  · cases hr : s.requests with
    | nil =>
      rw [step_of_noRequest hrest hr, Host.Outcome.next.injEq] at h
      exact .inl ⟨hrest, h.symm⟩
    | cons r rest =>
      cases hf : fetch r with
      | none => rw [step_of_unreadable hrest hr hf] at h; cases h
      | some i =>
        rw [step_of_fetched hrest hr hf] at h
        unfold start at h
        split at h
        · exact .inr (.inl ⟨i, rest, h⟩)
        · split at h
          · next hop =>
            rw [Host.Outcome.next.injEq] at h
            exact .inr (.inr (.inl ⟨i, rest, hrest, hop, h.symm⟩))
          · exact .inr (.inl ⟨i, rest, h⟩)
  · exact .inr (.inr (.inr ⟨hrest, step_next_of_busy hrest h⟩))

/-- Every step appends events, and what is outside the engine's registers follows from them. -/
theorem step_logged {s t : State} (h : step s = .next t) : ∃ ev, Logged s t ev := by
  have hpop (rest : List Request) : Logged s { s with requests := rest } [] := ⟨by simp, rfl, id, rfl, id, id⟩
  rcases step_cases h with ⟨-, rfl⟩ | ⟨i, rest, hexec⟩ | ⟨i, rest, -, -, rfl⟩ | ⟨hmid, rfl⟩
  · exact ⟨[], Logged.refl _⟩
  · obtain ⟨-, rfl⟩ := exec_next hexec
    obtain ⟨ev, hlog⟩ := performed_logged i { s with requests := rest }
    exact ⟨_, (hpop rest).trans hlog⟩
  · obtain ⟨ev, hlog⟩ := acceptOperation_logged i { s with requests := rest }
    exact ⟨_, (hpop rest).trans hlog⟩
  · exact (advance_advanced hmid).logged

/-- Settles O18. -/
theorem stepKeepsTheParameters : Obligations.StepKeepsTheParameters := by
  intro s t h
  obtain ⟨ev, hlog⟩ := step_logged h
  exact hlog.cfg

/-- Settles O19. -/
theorem historyOnlyGrows : Obligations.HistoryOnlyGrows := by
  intro s t h
  obtain ⟨ev, hlog⟩ := step_logged h
  exact ⟨ev, hlog.history.symm⟩

/-! ## No fault (R61, R250) -/

theorem outcome_unconstrained {s : State} (hu : s.chip = .unconstrained) (t : State) : outcome s t = .next t := by
  simp only [outcome, hu]

theorem exec_ne_fault (i : Instr) {s : State} (hu : s.chip = .unconstrained) (r : Fault) : exec i s ≠ .fault r := by
  by_cases hrest : s.seq = .rest
  · rw [exec_unconstrained i hrest hu]; simp
  · rw [exec_eq_atRest, atRest_of_busy hrest]; simp

theorem start_ne_fault (g : Grain) (i : Instr) {s : State} (hu : s.chip = .unconstrained) (r : Fault) :
    start g i s ≠ .fault r := by
  unfold start
  split
  · exact exec_ne_fault i hu r
  · split
    · simp
    · exact exec_ne_fault i hu r

/-- Settles O20. A fault comes from `outcome` alone, which gives none over the unconstrained chip; and no event changes the
chip's kind. -/
theorem unconstrainedChipNeverFaults : Obligations.UnconstrainedChipNeverFaults := by
  intro s hu
  refine ⟨fun r => ?_, fun t h => ?_⟩
  · unfold step
    split
    · split
      · simp
      · split
        · simp
        · exact start_ne_fault _ _ (by exact hu) r
    · rw [stepExchange, outcome_unconstrained hu]; simp
  · obtain ⟨ev, hlog⟩ := step_logged h
    exact hlog.unconstrained hu

end Sys2Proof.Machine
end

section
/-! PROOFS. The invariant of the machine is kept by every step (R25 to R27, R31 to R33, R36, R54, R89): the family of the
invariant. -/

namespace Sys2Proof.Machine

/-! ## The ranges of the working and result registers -/

/-- The part of the invariant that speaks of engine registers alone. With `Logged`, which covers the rest, and the position
it makes up the invariant (`State.Inv.of_logged`). -/
structure State.Ranges (s : State) : Prop where
  nLow : 1 ≤ s.n
  nHigh : s.n ≤ 16
  dataLen : s.dataLen ≤ 16
  lastBits : s.lastBits &&& ~~~ s.cfg.lastBitsMask = 0
  bitLength : s.cfg.lastBitsFit → s.cfg.bitlenFromClamped = true → s.bitLength ≤ 128
  budget : s.cfg.wf → s.budget < 2 ^ 16

theorem Memory.wf_after (m : Memory) (events : List Event) (h : Memory.wf m = true) :
    Memory.wf (Memory.after m events) = true := by
  induction events generalizing m with
  | nil => exact h
  | cons e rest ih => exact ih _ (Memory.wf_afterEvent m e h)

theorem State.Inv.ranges {s : State} (h : s.Inv) : s.Ranges :=
  ⟨h.nLow, h.nHigh, h.dataLen, h.lastBits, h.bitLength, h.budget⟩

theorem State.Inv.of_logged {s t : State} {ev : List Event} (h : s.Inv) (hlog : Logged s t ev) (hr : t.Ranges)
    (hpos : positionInside t = true) : t.Inv where
  regs := hlog.regs ▸ Memory.wf_after _ ev h.regs
  cs := hlog.cs h.cs
  nLow := hr.nLow
  nHigh := hr.nHigh
  dataLen := hr.dataLen
  lastBits := hr.lastBits
  bitLength := hr.bitLength
  budget := hr.budget
  position := hpos
  fifo := by rw [hlog.cfg]; exact hlog.fits h.fifo

/-- The registers that `State.Ranges` bounds, and the parameters it bounds them by. -/
def State.ranged (s : State) : Config.Params × Nat × Nat × Byte × Nat × Nat :=
  (s.cfg, s.n, s.dataLen, s.lastBits, s.bitLength, s.budget)

theorem SameEngine.ranged {s t : State} (h : SameEngine s t) : t.ranged = s.ranged := by
  simp only [State.ranged, h.cfg, h.n, h.dataLen, h.lastBits, h.bitLength, h.budget]

theorem State.Ranges.congr {s t : State} (h : s.Ranges) (he : t.ranged = s.ranged) : t.Ranges := by
  simp only [State.ranged, Prod.mk.injEq] at he
  obtain ⟨hcfg, hn, hlen, hlast, hbits, hbudget⟩ := he
  constructor
  case nLow => rw [hn]; exact h.nLow
  case nHigh => rw [hn]; exact h.nHigh
  case dataLen => rw [hlen]; exact h.dataLen
  case lastBits => rw [hlast, hcfg]; exact h.lastBits
  case bitLength => rw [hbits, hcfg]; exact h.bitLength
  case budget => rw [hbudget, hcfg]; exact h.budget

theorem State.Ranges.complete {s : State} (h : s.Ranges) (r : OpResult) : (complete r s).Ranges := h.congr rfl

/-! ## The registers whose value an exchange brings -/

theorem one_le_drainCount (lvl : Byte) : 1 ≤ drainCount lvl := by
  simp only [drainCount, clamp, Config.DATA_MAX]
  split_ifs <;> omega

/-- The masked control byte lies inside its mask (R26). -/
theorem and_mask_and_not (b mask : Byte) : (b &&& mask) &&& ~~~ mask = 0 := by
  rw [BitVec.and_assoc, BitVec.and_not_self]
  exact BitVec.and_zero

theorem toNat_and_mask_le {mask : Byte} (h : mask ≤ 7) (b : Byte) : (b &&& mask).toNat ≤ 7 :=
  Nat.le_trans (by rw [BitVec.toNat_and]; exact Nat.and_le_right) h

/-- The bit length of at most 16 bytes is at most 128 where the parameters bound it (R32, R187). -/
theorem bitLengthOf_le {cfg : Config.Params} (hfit : cfg.lastBitsFit) (hclamped : cfg.bitlenFromClamped = true) {n : Nat}
    (hn : n ≤ 16) (lvl b : Byte) (free : Nat) : bitLengthOf cfg n lvl (b &&& cfg.lastBitsMask) free ≤ 128 := by
  have hbits := toNat_and_mask_le hfit b
  simp only [bitLengthOf, hclamped, if_true, bitsOf]
  split_ifs <;> omega

theorem ranges_readLevel {s : State} (h : s.Ranges) : (readLevel s).Ranges := by
  have hsame := readLevel_same s
  constructor
  case nLow => exact one_le_drainCount _
  case nHigh => exact drainCount_le _
  case dataLen => rw [hsame.dataLen]; exact h.dataLen
  case lastBits => rw [hsame.lastBits, hsame.cfg]; exact h.lastBits
  case bitLength => rw [hsame.bitLength, hsame.cfg]; exact h.bitLength
  case budget => rw [hsame.budget, hsame.cfg]; exact h.budget

theorem ranges_readLastBits {s : State} (h : s.Ranges) : (readLastBits s).Ranges := by
  have hsame := readLastBits_same s
  constructor
  case nLow => rw [hsame.n]; exact h.nLow
  case nHigh => rw [hsame.n]; exact h.nHigh
  case dataLen => rw [hsame.dataLen]; exact h.dataLen
  case lastBits => exact and_mask_and_not _ _
  case bitLength =>
    intro hfit hclamped
    exact bitLengthOf_le hfit hclamped ((regRead_n _ s).trans_le h.nHigh) _ _ _
  case budget => rw [hsame.budget, hsame.cfg]; exact h.budget

/-- A lower budget stays in range. -/
theorem State.Ranges.budget_le {s : State} (h : s.Ranges) {b : Nat} (hb : s.cfg.wf → b < 2 ^ 16) :
    State.Ranges { s with budget := b } :=
  ⟨h.nLow, h.nHigh, h.dataLen, h.lastBits, h.bitLength, hb⟩

theorem Exchanged.ranges {s x : State} (hx : Exchanged s x) (h : s.Ranges) : x.Ranges := by
  cases hx with
  | write reg v => exact h.congr (regWrite_same reg v s).ranged
  | writeThenBudget reg v =>
    exact (h.congr (regWrite_same reg v s).ranged).budget_le fun ⟨_, _, _, _, _, _, _, _, _, _, hfits⟩ => hfits
  | result reg => exact h.congr (regRead_same reg s).ranged
  | tmp reg => exact h.congr (readTmp_same reg s).ranged
  | poll reg =>
    have hlower : State.Ranges { s with budget := s.budget - 1 } :=
      h.budget_le fun hwf => (Nat.sub_le _ _).trans_lt (h.budget hwf)
    exact hlower.congr (pollRead_same reg s).ranged
  | crcLo => exact h.congr (readCrcLo_same s).ranged
  | crcHi => exact h.congr (readCrcHi_same s).ranged
  | error => exact h.congr (readError_same s).ranged
  | level => exact ranges_readLevel h
  | lastBits => exact ranges_readLastBits h
  | byte i => exact h.congr (readData_same i s).ranged
  | lastByte i =>
    have hread := h.congr (readData_same i s).ranged
    exact ⟨hread.nLow, hread.nHigh, hread.nHigh, hread.lastBits, hread.bitLength, hread.budget⟩

theorem Advanced.ranges {s t : State} (ht : Advanced s t) (h : s.Ranges) : t.Ranges := by
  cases ht with
  | goto _ hx => exact (hx.ranges h).congr rfl
  | complete _ hx => exact (hx.ranges h).complete _
  | skip _ _ => exact h.congr rfl

/-! ## The position stays inside its step (R36) -/

theorem positionInside_loadFrom_crc (i : Nat) (s : State) : positionInside (goto (crcLoadPosition i s) s) = true := by
  unfold crcLoadPosition loadFrom
  split
  · next hlt => exact decide_eq_true hlt
  · rfl

theorem positionInside_loadFrom_card (i : Nat) (s : State) : positionInside (goto (cardLoadPosition i s) s) = true := by
  unfold cardLoadPosition loadFrom
  split
  · next hlt => exact decide_eq_true hlt
  · rfl

theorem positionInside_loadByte (i : Nat) (next : Nat → State → Seq) (s : State)
    (hnext : ∀ j t, positionInside (goto (next j t) t) = true) : positionInside (loadByte i next s) = true := by
  unfold loadByte
  split
  · exact hnext _ _
  · exact hnext _ _

theorem positionInside_afterIssue (s : State) : positionInside (goto (afterIssue s) s) = true := by
  unfold afterIssue
  split <;> rfl

theorem positionInside_afterStop (s : State) : positionInside (afterStop s) = true := by
  unfold afterStop
  split
  · rfl
  · next hleft => exact bne_iff_ne.2 hleft

theorem positionInside_afterError {s : State} (hleft : s.budget ≠ 0) : positionInside (afterError s) = true := by
  unfold afterError
  split
  · exact bne_iff_ne.2 hleft
  · rfl

theorem positionInside_afterData (i : Nat) {s : State} (hleft : s.budget ≠ 0) : positionInside (afterData i s) = true := by
  unfold afterData
  split
  · next hlt => simp [positionInside, hleft, hlt]
  · rfl

/-- Step 7 runs only with a budget left, and no read of it changes the budget. -/
theorem budget_left_of_step7 {s : State} (hin : positionInside s = true)
    (h7 : s.seq = .t7Error ∨ s.seq = .t7Level ∨ s.seq = .t7Control ∨ ∃ i, s.seq = .t7Data i) : s.budget ≠ 0 := by
  rcases h7 with h | h | h | ⟨i, h⟩ <;> simp only [positionInside, h, Bool.and_eq_true, bne_iff_ne] at hin
  case inr.inr.inr => exact hin.1
  all_goals exact hin

theorem advance_positionInside {s : State} (h : s.Ranges) (hin : positionInside s = true) :
    positionInside (advance s) = true := by
  have hleft := budget_left_of_step7 hin
  unfold advance
  split
  case h_1 => exact hin
  case h_11 => exact positionInside_loadFrom_crc 0 _
  case h_12 i _ => exact positionInside_loadByte i _ s positionInside_loadFrom_crc
  case h_14 => dsimp only; split <;> rfl
  case h_22 => exact positionInside_loadFrom_card 0 _
  case h_23 i _ => exact positionInside_loadByte i _ s positionInside_loadFrom_card
  case h_24 => exact positionInside_afterIssue _
  case h_27 => dsimp only; split <;> rfl
  case h_29 => exact positionInside_afterStop _
  case h_30 hseq =>
    exact positionInside_afterError (by rw [(readError_same s).budget]; exact hleft (by simp [hseq]))
  case h_31 hseq =>
    have hkept : (readLevel s).budget ≠ 0 := by rw [(readLevel_same s).budget]; exact hleft (by simp [hseq])
    exact bne_iff_ne.2 hkept
  case h_32 hseq =>
    have hkept : (readLastBits s).budget ≠ 0 := by rw [(readLastBits_same s).budget]; exact hleft (by simp [hseq])
    have hn : 0 < (readLastBits s).n := by rw [(readLastBits_same s).n]; exact h.nLow
    simp [positionInside, hkept, hn]
  case h_33 i hseq =>
    exact positionInside_afterData i (by rw [(readData_same i s).budget]; exact hleft (by simp [hseq]))
  all_goals rfl

/-! ## Instructions and acceptance -/

theorem positionInside_of_rest {s : State} (hrest : s.seq = .rest) : positionInside s = true := by
  simp only [positionInside, hrest]

theorem acceptOperation_ranges (i : Instr) {s : State} (h : s.Ranges) : (acceptOperation i s).Ranges := by
  cases i with
  | tocard command sendData =>
    exact ⟨h.nLow, h.nHigh, Nat.zero_le 16, h.lastBits, fun _ _ => Nat.zero_le 128,
      fun ⟨_, _, _, _, _, _, _, _, hfits, _⟩ => hfits⟩
  | wr | rd | setb | clrb | crc => exact h.congr rfl
  | busWr | busRd | cmdIdle | cmdCalcCrc | cmdTransceive | cmdSoftReset | tagRead | tagWrite => exact h

theorem acceptOperation_positionInside {i : Instr} (hop : isOperation i = true) (s : State) :
    positionInside (acceptOperation i s) = true := by
  cases i with
  | wr | rd | setb | clrb | crc | tocard => rfl
  | busWr | busRd | cmdIdle | cmdCalcCrc | cmdTransceive | cmdSoftReset | tagRead | tagWrite => cases hop

theorem ranges_computeCrc (data : List Byte) {s : State} (h : s.Ranges) : (computeCrc data s).Ranges := by
  obtain ⟨-, -, hsame, hbudget, -⟩ := ran_computeCrc data s
  have hfits : State.Ranges { s with budget := (computeCrc data s).budget } :=
    h.budget_le fun ⟨_, _, _, _, _, _, _, _, _, _, hlt⟩ => hbudget.trans_lt hlt
  exact hfits.congr hsame.ranged

theorem ranges_toCard (command : Byte) (sendData : List Byte) {s : State} (h : s.Ranges) :
    (toCard command sendData s).Ranges := by
  obtain ⟨-, -, -, -, -, hsame, hbudget, hn, hlen, hlast, hbits, -⟩ := ran_toCard command sendData s
  have hcfg : (toCard command sendData s).cfg = s.cfg := hsame.cfg
  have hdrained : ∀ {b}, (toCard command sendData s).n = drainCount b → (toCard command sendData s).n ≤ 16 :=
    fun hb => hb ▸ drainCount_le _
  constructor
  case nLow =>
    rcases hn with hkept | ⟨b, hb⟩
    · rw [hkept]; exact h.nLow
    · rw [hb]; exact one_le_drainCount b
  case nHigh =>
    rcases hn with hkept | ⟨b, hb⟩
    · rw [hkept]; exact h.nHigh
    · exact hdrained hb
  case dataLen =>
    rcases hlen with hkept | ⟨hn, b, hb⟩
    · rw [hkept]; exact h.dataLen
    · rw [hn]; exact hdrained hb
  case lastBits =>
    rw [hcfg]
    rcases hlast with hkept | ⟨b, hb⟩
    · rw [hkept]; exact h.lastBits
    · rw [hb]; exact and_mask_and_not _ _
  case bitLength =>
    rw [hcfg]
    intro hfit hclamped
    rcases hbits with hkept | ⟨b, free, hb, c, hc⟩
    · rw [hkept]; exact h.bitLength hfit hclamped
    · rw [hb]; exact bitLengthOf_le hfit hclamped (hdrained hc) _ _ _
  case budget =>
    rw [hcfg]
    exact fun hwf => hbudget.trans_lt (h.budget hwf)

theorem performed_ranges (i : Instr) {s : State} (h : s.Ranges) : (performed i s).Ranges := by
  have hacc := acceptOperation_ranges i h
  cases i with
  | busWr a v => exact h.congr (writeExchange_same _ v s).ranged
  | busRd a d => exact h.congr (readExchange_same _ d s).ranged
  | wr reg value => exact (hacc.congr (regWrite_same reg value (acceptWr reg value s)).ranged).complete _
  | rd reg => exact (hacc.congr (regRead_same reg (acceptRd reg s)).ranged).congr rfl
  | setb reg mask => exact (hacc.congr (setBits_same reg mask (acceptSetb reg mask s)).ranged).complete _
  | clrb reg mask => exact (hacc.congr (clearBits_same reg mask (acceptClrb reg mask s)).ranged).complete _
  | crc data => exact (ranges_computeCrc data hacc).complete _
  | tocard command sendData => exact (ranges_toCard command sendData hacc).complete _
  | cmdIdle | cmdCalcCrc | cmdTransceive | cmdSoftReset => exact h.congr (issue_same _ s).ranged
  | tagRead | tagWrite => exact h.congr (regWrite_same _ _ s).ranged

/-- Settles O17. What is outside the engine's registers follows from the events of the step (`step_logged`). The ranges and the
position are kept by each way to step: an instruction ends at REST, acceptance stands at a first position, and an exchange
brings a value in range and moves inside its step. -/
theorem stepKeepsTheInvariant : Obligations.StepKeepsTheInvariant := by
  intro s t hinv hstep
  obtain ⟨ev, hlog⟩ := step_logged hstep
  have hpop (rest : List Request) : State.Ranges { s with requests := rest } := hinv.ranges.congr rfl
  rcases step_cases hstep with ⟨-, rfl⟩ | ⟨i, rest, hexec⟩ | ⟨i, rest, -, hop, rfl⟩ | ⟨hmid, rfl⟩
  · exact hinv
  · have hrest := (instructionsEndAtRestWithChipSelectHigh i _ t hexec).2
    obtain ⟨-, rfl⟩ := exec_next hexec
    exact hinv.of_logged hlog (performed_ranges i (hpop rest)) (positionInside_of_rest hrest)
  · exact hinv.of_logged hlog (acceptOperation_ranges i (hpop rest)) (acceptOperation_positionInside hop _)
  · exact hinv.of_logged hlog ((advance_advanced hmid).ranges hinv.ranges)
      (advance_positionInside hinv.ranges hinv.position)

end Sys2Proof.Machine
end

section
/-! PROOFS. The two grains agree (R62, R118): steps of one exchange each reach what the operation answers as a whole. -/

namespace Sys2Proof.Machine

/-! ## Moves

`Reach.move` takes one exchange; each `reach_` lemma below runs the positions of one step of the pseudocode. -/

theorem Reach.move {p q : Seq} {x y T : State} (hp : p ≠ .rest) (hadv : advance (goto p x) = goto q y)
    (h : Reach (goto q y) T) : Reach (goto p x) T :=
  Reach.adv hp (hadv ▸ h)

theorem Reach.finish {p : Seq} {x T : State} (hp : p ≠ .rest) (hadv : advance (goto p x) = T) : Reach (goto p x) T :=
  Reach.adv hp (hadv ▸ Reach.refl _)

/-! ## The register operations -/

theorem reach_wr (x : State) : Reach (goto .wr1 x) (complete .nothing (regWrite x.reg x.val x)) :=
  Reach.finish (by simp) (by simp only [advance, goto_seq, goto_reg, goto_val, regWrite_goto]; rfl)

theorem reach_rd (x : State) : Reach (goto .rd1 x) (completeRead (regRead x.reg x)) :=
  Reach.finish (by simp) (by simp only [advance, goto_seq, goto_reg, regRead_goto]; rfl)

theorem reach_setb (x : State) : Reach (goto .sb1 x) (complete .nothing (setBits x.reg x.val x)) := by
  have hsame := readTmp_same x.reg x
  refine Reach.move (q := .sb2) (y := readTmp x.reg x) (by simp) ?_ (Reach.finish (by simp) ?_)
  · simp only [advance, goto_seq, goto_reg, readTmp_goto, goto_goto]
  · simp only [advance, goto_seq, goto_reg, goto_val, hsame.reg, hsame.val, writeTmpOr_goto]
    rfl

theorem reach_clrb (x : State) : Reach (goto .cb1 x) (complete .nothing (clearBits x.reg x.val x)) := by
  have hsame := readTmp_same x.reg x
  refine Reach.move (q := .cb2) (y := readTmp x.reg x) (by simp) ?_ (Reach.finish (by simp) ?_)
  · simp only [advance, goto_seq, goto_reg, readTmp_goto, goto_goto]
  · simp only [advance, goto_seq, goto_reg, goto_val, hsame.reg, hsame.val, writeTmpAndNot_goto]
    rfl

/-! ## The steps of `computeCRC` (R151 to R158) -/

theorem reach_clearCrcDone {x T : State} (h : Reach (goto .c2Read (clearCrcDone x)) T) : Reach (goto .c1Read x) T := by
  have hcfg : (readTmp x.cfg.regCrcIrq x).cfg = x.cfg := (readTmp_same _ x).cfg
  refine Reach.move (q := .c1Write) (y := readTmp x.cfg.regCrcIrq x) (by simp) ?_ (Reach.move (by simp) ?_ h)
  · simp only [advance, goto_seq, goto_cfg, readTmp_goto, goto_goto]
  · simp only [advance, goto_seq, goto_cfg, hcfg, writeTmpAndNot_goto, goto_goto]
    rfl

theorem reach_crcFlush {x T : State} (h : Reach (goto (crcLoadPosition 0 (flushFifo x)) (flushFifo x)) T) :
    Reach (goto .c2Read x) T := by
  have hcfg : (readTmp Config.REG_FIFO_LEVEL x).cfg = x.cfg := (readTmp_same _ x).cfg
  refine Reach.move (q := .c2Write) (y := readTmp Config.REG_FIFO_LEVEL x) (by simp) ?_ (Reach.move (by simp) ?_ h)
  · simp only [advance, goto_seq, readTmp_goto, goto_goto]
  · simp only [advance, goto_seq, goto_cfg, hcfg, writeTmpOr_goto, goto_goto]
    rfl

theorem reach_crcIssue {x T : State} (h : Reach (goto .c5 (loadCrcBudget (issue Config.CMD_CALC_CRC x))) T) :
    Reach (goto .c4 x) T :=
  Reach.move (by simp) (by simp only [advance, goto_seq, issue, regWrite_goto]; rfl) h

theorem reach_crcResult (x : State) : Reach (goto .c6Lo x) (completeCrc (readCrcHi (readCrcLo x))) := by
  refine Reach.move (q := .c6Hi) (y := readCrcLo x) (by simp) ?_ (Reach.finish (by simp) ?_)
  · simp only [advance, goto_seq, readCrcLo, goto_cfg, regRead_goto]
    rfl
  · simp only [advance, goto_seq, readCrcHi, goto_cfg, regRead_goto]
    rfl

/-- `computeCRC` exchange by exchange. -/
theorem reach_computeCrc (x : State) : Reach (goto .c1Read x) (completeCrc (computeCrc x.send x)) := by
  have hsend : (flushFifo (clearCrcDone x)).send = x.send :=
    (flushFifo_same _).send.trans (clearBits_same x.cfg.regCrcIrq x.cfg.crcDoneBit x).send
  refine reach_clearCrcDone (reach_crcFlush (reach_loadCrc _ _ 0 (Nat.zero_le _) ?_))
  rw [List.drop_zero, hsend]
  exact reach_crcIssue (reach_pollCrc _ _ _ rfl (reach_crcResult _))

/-! ## The steps of `toCard` (R173 to R190) -/

theorem reach_prepareChip {x T : State}
    (h : Reach (goto (cardLoadPosition 0 (prepareChip x)) (prepareChip x)) T) : Reach (goto .t2Enable x) T := by
  have hcfgClear := (readTmp_same Config.REG_COMM_IRQ (enableIrqs x)).cfg
  have hcfgFlush := (readTmp_same Config.REG_FIFO_LEVEL (clearPending (enableIrqs x))).cfg
  refine Reach.move (q := .t2ClearRead) (y := enableIrqs x) (by simp) ?_ ?_
  · simp only [advance, goto_seq, enableIrqs, goto_cfg, regWrite_goto, goto_goto]
  refine Reach.move (q := .t2ClearWrite) (y := readTmp Config.REG_COMM_IRQ (enableIrqs x)) (by simp) ?_ ?_
  · simp only [advance, goto_seq, readTmp_goto, goto_goto]
  refine Reach.move (q := .t2FlushRead) (y := clearPending (enableIrqs x)) (by simp) ?_ ?_
  · simp only [advance, goto_seq, goto_cfg, hcfgClear, writeTmpAndNot_goto, goto_goto]
    rfl
  refine Reach.move (q := .t2FlushWrite) (y := readTmp Config.REG_FIFO_LEVEL (clearPending (enableIrqs x))) (by simp) ?_ ?_
  · simp only [advance, goto_seq, readTmp_goto, goto_goto]
  refine Reach.move (q := .t2Idle) (y := flushFifo (clearPending (enableIrqs x))) (by simp) ?_ (Reach.move (by simp) ?_ h)
  · simp only [advance, goto_seq, goto_cfg, hcfgFlush, writeTmpOr_goto, goto_goto]
    rfl
  · simp only [advance, goto_seq, goto_cfg, issue, regWrite_goto]
    rfl

theorem reach_issueCommand {x T : State} (h : Reach (goto .t5 (issueCommand x.command x)) T) :
    Reach (goto .t4Issue x) T := by
  have hissued := issue_same x.command x
  have hissue : advance (goto .t4Issue x) = goto (afterIssue (issue x.command x)) (issue x.command x) := by
    simp only [advance, goto_seq, goto_command, issue, regWrite_goto]
    rfl
  refine Reach.move (by simp) hissue ?_
  by_cases htrx : x.command = Config.CMD_TRANSCEIVE
  · have hread := readTmp_same Config.REG_BIT_FRAMING (issue x.command x)
    rw [afterIssue, hissued.command, if_pos htrx]
    rw [issueCommand, if_pos htrx] at h
    refine Reach.move (q := .t4StartWrite) (y := readTmp Config.REG_BIT_FRAMING (issue x.command x)) (by simp) ?_
      (Reach.move (by simp) ?_ h)
    · simp only [advance, goto_seq, readTmp_goto, goto_goto]
    · simp only [advance, goto_seq, goto_cfg, hread.cfg, writeTmpOr_goto, goto_goto]
      rfl
  · rw [afterIssue, hissued.command, if_neg htrx]
    rwa [issueCommand, if_neg htrx] at h

theorem reach_drainResponse (x : State) : Reach (goto .t7Level x) (completeCard (drainResponse x)) := by
  have hn : (readLastBits (readLevel x)).n = (readLevel x).n := (readLastBits_same _).n
  have hpos : 1 ≤ (readLevel x).n := one_le_drainCount _
  obtain ⟨m, hm⟩ : ∃ m, (readLastBits (readLevel x)).n = m + 1 := ⟨(readLevel x).n - 1, by omega⟩
  refine Reach.move (q := .t7Control) (y := readLevel x) (by simp) ?_ ?_
  · simp only [advance, goto_seq, readLevel_goto, goto_goto]
  refine Reach.move (q := .t7Data 0) (y := readLastBits (readLevel x)) (by simp) ?_ ?_
  · simp only [advance, goto_seq, readLastBits_goto, goto_goto]
  rw [drainResponse, hm]
  exact reach_drain m _ 0 (by omega)

theorem reach_evaluate {x : State} (hleft : x.budget ≠ 0) :
    Reach (goto .t7Error x) (completeCard (evaluate x.command x)) := by
  have hcommand : (readError x).command = x.command := (readError_same x).command
  have hadv : advance (goto .t7Error x) = afterError (goto .t7Error (readError x)) := by
    simp only [advance, goto_seq, readError_goto]
  rw [evaluate, if_neg hleft]
  dsimp only
  split
  · next hdrains =>
    refine Reach.move (q := .t7Level) (by simp) ?_ (reach_drainResponse (readError x))
    rw [hadv, afterError, goto_cfg, goto_command, goto_err, hcommand, if_pos hdrains]
    rfl
  · next hdrains =>
    refine Reach.finish (by simp) ?_
    rw [hadv, afterError, goto_cfg, goto_command, goto_err, hcommand, if_neg hdrains]
    rfl

theorem reach_stopSend (x : State) :
    Reach (goto .t6Read x) (completeCard (evaluate x.command (stopSend x))) := by
  have hread := readTmp_same Config.REG_BIT_FRAMING x
  have hstop := stopSend_same x
  have hwrite : advance (goto .t6Write (readTmp Config.REG_BIT_FRAMING x)) = afterStop (goto .t6Write (stopSend x)) := by
    simp only [advance, goto_seq, goto_cfg, hread.cfg, writeTmpAndNot_goto]
    rfl
  refine Reach.move (q := .t6Write) (y := readTmp Config.REG_BIT_FRAMING x) (by simp) ?_ ?_
  · simp only [advance, goto_seq, readTmp_goto, goto_goto]
  by_cases hspent : (stopSend x).budget = 0
  · refine Reach.finish (by simp) ?_
    rw [hwrite, afterStop, goto_budget, if_pos hspent, evaluate, if_pos hspent]
    rfl
  · refine Reach.move (q := .t7Error) (y := stopSend x) (by simp) ?_ ?_
    · rw [hwrite, afterStop, goto_budget, if_neg hspent, goto_goto]
    · have heval := reach_evaluate hspent
      rwa [hstop.command] at heval

/-- `toCard` exchange by exchange, from T2 on. -/
theorem reach_toCard (x : State) : Reach (goto .t2Enable x) (completeCard (toCard x.command x.send x)) := by
  obtain ⟨-, -, hprep, -⟩ := ran_prepareChip x
  have hload := loadFifo_same x.send (prepareChip x)
  obtain ⟨-, -, hissue, -⟩ := ran_issueCommand x.command (loadFifo x.send (prepareChip x))
  have hpoll := pollLoop_same trxPollDone Config.REG_COMM_IRQ
    ((issueCommand x.command (loadFifo x.send (prepareChip x))).budget - 1)
    (issueCommand x.command (loadFifo x.send (prepareChip x)))
  have hloaded : (loadFifo x.send (prepareChip x)).command = x.command := hload.command.trans hprep.command
  have hpolled := hpoll.command.trans (hissue.command.trans hloaded)
  refine reach_prepareChip (reach_loadCard _ _ 0 (Nat.zero_le _) ?_)
  rw [List.drop_zero, hprep.send]
  refine reach_issueCommand ?_
  rw [hloaded]
  refine reach_pollCard _ _ _ rfl ?_
  have hstop := reach_stopSend (pollLoop trxPollDone Config.REG_COMM_IRQ
    ((issueCommand x.command (loadFifo x.send (prepareChip x))).budget - 1)
    (issueCommand x.command (loadFifo x.send (prepareChip x))))
  rw [hpolled] at hstop
  exact hstop

/-! ## From acceptance to completion -/

theorem acceptOperation_chip (i : Instr) (s : State) : (acceptOperation i s).chip = s.chip := by
  cases i <;> rfl

theorem keepsChip_performed (i : Instr) (s : State) : KeepsChip s (performed i s) := by
  obtain ⟨x, tr, hran, -, ⟨hx, -⟩ | ⟨r, hx⟩⟩ := performed_ran i s
  all_goals
    rw [hx]
    exact ⟨fun hc => hran.unconstrained ((acceptOperation_chip i s).trans hc),
      fun hc => hran.stuck ((acceptOperation_chip i s).trans hc)⟩

/-- An accepted operation stands at its first position with its operands in the latches, from where its steps reach the
whole operation. -/
theorem reach_performed {i : Instr} (hop : isOperation i = true) (s : State) :
    Reach (acceptOperation i s) (performed i s) := by
  cases i with
  | wr reg value => exact reach_wr (acceptWr reg value s)
  | rd reg => exact reach_rd (acceptRd reg s)
  | setb reg mask => exact reach_setb (acceptSetb reg mask s)
  | clrb reg mask => exact reach_clrb (acceptClrb reg mask s)
  | crc data => exact reach_computeCrc (acceptCrc data s)
  | tocard command sendData => exact reach_toCard (acceptTocard command sendData s)
  | busWr | busRd | cmdIdle | cmdCalcCrc | cmdTransceive | cmdSoftReset | tagRead | tagWrite => cases hop

/-- Settles O13. -/
theorem exchangeStepsRunTheWholeOperation : Obligations.ExchangeStepsRunTheWholeOperation := by
  intro i s hop hrest
  rw [exec_eq_atRest]
  exact reach_exec hrest (acceptOperation_of_operation hop s).1 (keepsChip_performed i s) (reach_performed hop s)

end Sys2Proof.Machine
end

section
/-! PROOFS. The register operations, bus frames, chip commands and tag opcodes (40_register_access.md, 43_chip_commands.md). -/

namespace Sys2Proof.Machine

/-! ## Whole next states with the unconstrained chip -/

/-- Settles O21. -/
theorem wrPerformsOneWriteExchange : Obligations.WrPerformsOneWriteExchange := by
  intro reg value s hrest hu
  refine ⟨rfl, rfl, rfl, ?_⟩
  rw [exec_unconstrained _ hrest hu, performed, regWrite_unconstrained reg value (acceptWr reg value s) hu]
  simp [complete, record, acceptWr, Memory.after]

/-- Settles O22. -/
theorem rdReturnsTheAnswer : Obligations.RdReturnsTheAnswer := by
  intro reg s hrest hu
  refine ⟨rfl, rfl, rfl, ?_⟩
  rw [exec_unconstrained _ hrest hu, performed, regRead_unconstrained reg (acceptRd reg s) hu]
  simp [completeRead, complete, record, acceptRd, State.took, State.answer]

/-- Settles O23: the first exchange of the accepted operation moves to SB2, and the whole is `setBits`. -/
theorem setbWritesTheAnswerOrMask : Obligations.SetbWritesTheAnswerOrMask := by
  intro reg mask s hrest hu
  refine ⟨rfl, rfl, ⟨_, step_eq_next_advance hu (by simp [acceptOperation]), rfl⟩, ?_⟩
  rw [exec_unconstrained _ hrest hu, performed, setBits_unconstrained reg mask (acceptSetb reg mask s) hu]
  simp [complete, record, acceptSetb, State.took, State.answer]

/-- Settles O24: the first exchange of the accepted operation moves to CB2, and the whole is `clearBits`. -/
theorem clrbWritesTheAnswerAndNotMask : Obligations.ClrbWritesTheAnswerAndNotMask := by
  intro reg mask s hrest hu
  refine ⟨rfl, rfl, ⟨_, step_eq_next_advance hu (by simp [acceptOperation]), rfl⟩, ?_⟩
  rw [exec_unconstrained _ hrest hu, performed, clearBits_unconstrained reg mask (acceptClrb reg mask s) hu]
  simp [complete, record, acceptClrb, State.took, State.answer]

/-- Settles O25. -/
theorem busFramesPerformOneExchange : Obligations.BusFramesPerformOneExchange := by
  intro a b s hrest hu
  refine ⟨?_, ?_⟩
  · rw [exec_unconstrained _ hrest hu, performed, writeExchange_unconstrained _ b s hu]
    rfl
  · rw [exec_unconstrained _ hrest hu, performed, readExchange_unconstrained _ b s hu]

/-- Settles O26: each of the four rows is the write that issues its byte. -/
theorem chipCommandsWriteTheCommandRegister : Obligations.ChipCommandsWriteTheCommandRegister := by
  intro i c s hrest hu hmem
  have hissue : performed i s = issue c s := by
    simp only [List.mem_cons, Prod.mk.injEq, List.not_mem_nil, or_false] at hmem
    rcases hmem with ⟨rfl, rfl⟩ | ⟨rfl, rfl⟩ | ⟨rfl, rfl⟩ | ⟨rfl, rfl⟩ <;> rfl
  rw [exec_unconstrained _ hrest hu, hissue, issue, regWrite_unconstrained _ c s hu]
  rfl

/-- Settles O27: each of the two rows is the write of its byte to the FIFO port. -/
theorem tagOpcodesEnterTheFifo : Obligations.TagOpcodesEnterTheFifo := by
  intro i c s hrest hu hmem
  have hwrite : performed i s = regWrite Config.REG_FIFO_DATA c s := by
    simp only [List.mem_cons, Prod.mk.injEq, List.not_mem_nil, or_false] at hmem
    rcases hmem with ⟨rfl, rfl⟩ | ⟨rfl, rfl⟩ <;> rfl
  rw [exec_unconstrained _ hrest hu, hwrite, regWrite_unconstrained _ c s hu]
  rfl

/-! ## The frame, whichever chip answers -/

/-- What no register operation, bus frame, chip command or tag opcode writes. -/
def State.longOnly (s : State) :
    Config.Params × Byte × List Byte × Byte × Byte × Byte × Nat × Byte × Nat × Byte × Byte × Status ×
      Vector Byte 16 × Nat × Nat × List Request :=
  (s.cfg, s.command, s.send, s.irq, s.err, s.lvl, s.n, s.lastBits, s.budget, s.crcLo, s.crcHi, s.status, s.data,
    s.dataLen, s.bitLength, s.requests)

theorem SameEngine.longOnly {s t : State} (h : SameEngine s t) : t.longOnly = s.longOnly := by
  simp only [State.longOnly, h.cfg, h.command, h.send, h.irq, h.err, h.lvl, h.n, h.lastBits, h.budget, h.crcLo, h.crcHi,
    h.status, h.data, h.dataLen, h.bitLength, h.requests]

theorem longOnly_complete (r : OpResult) (s : State) : (complete r s).longOnly = s.longOnly := rfl

/-- The instructions that are neither CRC nor TOCARD. -/
def isShort : Instr → Bool
  | .crc _ => false
  | .tocard _ _ => false
  | _ => true

theorem performed_longOnly {i : Instr} (hshort : isShort i = true) (s : State) :
    (performed i s).longOnly = s.longOnly := by
  cases i with
  | busWr a v => exact (writeExchange_same _ v s).longOnly
  | busRd a d => exact (readExchange_same _ d s).longOnly
  | wr reg value =>
    rw [performed, longOnly_complete, (regWrite_same reg value (acceptWr reg value s)).longOnly]
    rfl
  | rd reg =>
    rw [performed, completeRead, longOnly_complete]
    exact (regRead_same reg (acceptRd reg s)).longOnly
  | setb reg mask =>
    rw [performed, longOnly_complete, (setBits_same reg mask (acceptSetb reg mask s)).longOnly]
    rfl
  | clrb reg mask =>
    rw [performed, longOnly_complete, (clearBits_same reg mask (acceptClrb reg mask s)).longOnly]
    rfl
  | crc | tocard => cases hshort
  | cmdIdle | cmdCalcCrc | cmdTransceive | cmdSoftReset => exact (issue_same _ s).longOnly
  | tagRead | tagWrite => exact (regWrite_same _ _ s).longOnly

/-- A row that is no operation of the block is exchanges alone, so the whole engine stays. -/
theorem performed_same_of_not_operation {i : Instr} (hop : isOperation i = false) (s : State) :
    SameEngine s (performed i s) := by
  cases i with
  | busWr a v => exact writeExchange_same _ v s
  | busRd a d => exact readExchange_same _ d s
  | wr | rd | setb | clrb | crc | tocard => cases hop
  | cmdIdle | cmdCalcCrc | cmdTransceive | cmdSoftReset => exact issue_same _ s
  | tagRead | tagWrite => exact regWrite_same _ _ s

theorem performed_rdata {i : Instr} (hshort : isShort i = true) (hrd : ∀ r, i ≠ .rd r) (s : State) :
    (performed i s).rdata = s.rdata := by
  cases i with
  | wr reg value => exact (regWrite_same reg value (acceptWr reg value s)).rdata
  | rd reg => exact absurd rfl (hrd reg)
  | setb reg mask => exact (setBits_same reg mask (acceptSetb reg mask s)).rdata
  | clrb reg mask => exact (clearBits_same reg mask (acceptClrb reg mask s)).rdata
  | crc | tocard => cases hshort
  | busWr | busRd | cmdIdle | cmdCalcCrc | cmdTransceive | cmdSoftReset | tagRead | tagWrite =>
    exact (performed_same_of_not_operation rfl s).rdata

theorem performed_tmp {i : Instr} (hshort : isShort i = true) (hsetb : ∀ r m, i ≠ .setb r m)
    (hclrb : ∀ r m, i ≠ .clrb r m) (s : State) : (performed i s).tmp = s.tmp := by
  cases i with
  | wr reg value => exact (regWrite_same reg value (acceptWr reg value s)).tmp
  | rd reg => exact (regRead_same reg (acceptRd reg s)).tmp
  | setb reg mask => exact absurd rfl (hsetb reg mask)
  | clrb reg mask => exact absurd rfl (hclrb reg mask)
  | crc | tocard => cases hshort
  | busWr | busRd | cmdIdle | cmdCalcCrc | cmdTransceive | cmdSoftReset | tagRead | tagWrite =>
    exact (performed_same_of_not_operation rfl s).tmp

/-- Settles O37. -/
theorem shortInstructionsFrame : Obligations.ShortInstructionsFrame := by
  intro i s t h hcrc htocard
  have hend := (instructionsEndAtRestWithChipSelectHigh i s t h).2
  obtain ⟨hrest, rfl⟩ := exec_next h
  have hshort : isShort i = true := by
    cases i with
    | crc data => exact absurd rfl (hcrc data)
    | tocard command sendData => exact absurd rfl (htocard command sendData)
    | _ => rfl
  have hlong := performed_longOnly hshort s
  simp only [State.longOnly, Prod.mk.injEq] at hlong
  obtain ⟨hcfg, hcommand, hsend, hirq, herr, hlvl, hn, hlast, hbudget, hlo, hhi, hstatus, hdata, hlen, hbits, hreq⟩ := hlong
  refine ⟨hcfg, hcommand, hsend, hirq, herr, hlvl, hn, hlast, hbudget, hlo, hhi, hstatus, hdata, hlen, hbits, hreq,
    hend.trans hrest.symm, fun hop => ?_, ?_, fun hrd => performed_rdata hshort hrd s,
    fun hsetb hclrb => performed_tmp hshort hsetb hclrb s⟩
  · have hsame := performed_same_of_not_operation hop s
    exact ⟨hsame.op, hsame.reg, hsame.val⟩
  · rintro r rfl
    exact (regRead_same r (acceptRd r s)).val

/-! ## The chip registers, whichever chip answers (R57, R63) -/

/-- A write exchange in the words of `State.afterStore`. -/
theorem read_afterEvent_write (s : State) (first v : Byte) (a : RegAddr) :
    Memory.read (Memory.afterEvent s.regs (.write first v)) a.toNat = s.afterStore (addressOnWire first) v a := by
  simp only [Memory.afterEvent, State.afterStore]
  split
  · rfl
  · split
    · next heq => rw [heq, Memory.read_write_same]
    · next hne => exact Memory.read_write_other _ _ fun e => hne (BitVec.eq_of_toNat_eq e)

theorem regByte_writeExchange (first v : Byte) (s : State) (a : RegAddr) :
    (writeExchange first v s).regByte a = s.afterStore (addressOnWire first) v a := by
  rw [State.regByte, writeExchange_regs, read_afterEvent_write]

theorem regByte_readExchange (first second : Byte) (s : State) (a : RegAddr) :
    (readExchange first second s).regByte a = s.regByte a := by
  rw [State.regByte, readExchange_regs, State.regByte]

theorem regByte_regWrite (reg v : Byte) (s : State) (a : RegAddr) :
    (regWrite reg v s).regByte a = s.afterStore (chipAddr reg) v a := by
  rw [regWrite, regByte_writeExchange, addressOnWire_writeAddressByte]

theorem regByte_regRead (reg : Byte) (s : State) (a : RegAddr) : (regRead reg s).regByte a = s.regByte a :=
  regByte_readExchange _ _ s a

theorem regByte_complete (r : OpResult) (s : State) (a : RegAddr) : (complete r s).regByte a = s.regByte a := rfl

theorem afterStore_congr {s t : State} (h : t.regs = s.regs) (b : RegAddr) (v : Byte) (a : RegAddr) :
    t.afterStore b v a = s.afterStore b v a := by
  simp only [State.afterStore, State.regByte, h]

theorem regByte_setBits (reg mask : Byte) (s : State) (a : RegAddr) :
    (setBits reg mask s).regByte a = s.afterStore (chipAddr reg) ((setBits reg mask s).tmp ||| mask) a := by
  have htmp : (setBits reg mask s).tmp = (readTmp reg s).tmp := regWrite_tmp _ _ _
  rw [htmp, setBits, writeTmpOr, regByte_regWrite]
  exact afterStore_congr (regRead_regs reg s) _ _ _

theorem regByte_clearBits (reg mask : Byte) (s : State) (a : RegAddr) :
    (clearBits reg mask s).regByte a = s.afterStore (chipAddr reg) ((clearBits reg mask s).tmp &&& ~~~ mask) a := by
  have htmp : (clearBits reg mask s).tmp = (readTmp reg s).tmp := regWrite_tmp _ _ _
  rw [htmp, clearBits, writeTmpAndNot, regByte_regWrite]
  exact afterStore_congr (regRead_regs reg s) _ _ _

theorem afterStore_softReset (s : State) (a : RegAddr) : s.afterStore 0x01 0x0F a = none := rfl

/-- Settles O38: acceptance and completion store nothing, so the one store is that of the exchange. -/
theorem shortInstructionsMemoryFrame : Obligations.ShortInstructionsMemoryFrame := by
  intro s t a
  refine ⟨fun r h => ?_, fun b d h => ?_, fun b v h => ?_, fun r v h => ?_, fun r m h => ?_, fun r m h => ?_,
    fun h => ?_, fun h => ?_, fun h => ?_, fun h => ?_, fun h => ?_, fun h => ?_⟩
  all_goals obtain ⟨-, rfl⟩ := exec_next h
  · exact regByte_regRead r (acceptRd r s) a
  · exact regByte_readExchange _ d s a
  · rw [performed, regByte_writeExchange, addressOnWire_writeFrameByte]
  · rw [performed, regByte_complete, regByte_regWrite]
    exact afterStore_congr rfl _ _ _
  · rw [performed, regByte_complete, regByte_setBits, complete_tmp]
    exact afterStore_congr rfl _ _ _
  · rw [performed, regByte_complete, regByte_clearBits, complete_tmp]
    exact afterStore_congr rfl _ _ _
  · exact regByte_regWrite _ _ s a
  · exact regByte_regWrite _ _ s a
  · exact regByte_regWrite _ _ s a
  · exact (regByte_regWrite _ _ s a).trans (afterStore_softReset s a)
  · exact regByte_regWrite _ _ s a
  · exact regByte_regWrite _ _ s a

end Sys2Proof.Machine
end

section
/-! PROOFS. The engine's registers as one value, so that what an operation writes composes by rewriting. -/

namespace Sys2Proof.Machine

/-- The engine alone: its registers, position, parameters and queue, with the chip's side, chip-select, `rx` and the history
set to fixed values. -/
def State.engine (s : State) : State :=
  { s with
    cs := .high
    rx := 0
    regs := []
    chip := .unconstrained
    oracle := []
    draws := 0
    history := [] }

theorem SameEngine.engine {s t : State} (h : SameEngine s t) : t.engine = s.engine := by
  simp only [State.engine, h.cfg, h.op, h.reg, h.val, h.command, h.send, h.tmp, h.irq, h.err, h.lvl, h.n, h.lastBits,
    h.budget, h.rdata, h.crcLo, h.crcHi, h.status, h.data, h.dataLen, h.bitLength, h.seq, h.requests]

theorem SameEngine.of_engine {s t : State} (h : t.engine = s.engine) : SameEngine s t where
  cfg := (congrArg State.cfg h :)
  op := (congrArg State.op h :)
  reg := (congrArg State.reg h :)
  val := (congrArg State.val h :)
  command := (congrArg State.command h :)
  send := (congrArg State.send h :)
  tmp := (congrArg State.tmp h :)
  irq := (congrArg State.irq h :)
  err := (congrArg State.err h :)
  lvl := (congrArg State.lvl h :)
  n := (congrArg State.n h :)
  lastBits := (congrArg State.lastBits h :)
  budget := (congrArg State.budget h :)
  rdata := (congrArg State.rdata h :)
  crcLo := (congrArg State.crcLo h :)
  crcHi := (congrArg State.crcHi h :)
  status := (congrArg State.status h :)
  data := (congrArg State.data h :)
  dataLen := (congrArg State.dataLen h :)
  bitLength := (congrArg State.bitLength h :)
  seq := (congrArg State.seq h :)
  requests := (congrArg State.requests h :)

/-! ## The shared operations -/

theorem engine_regWrite (reg v : Byte) (s : State) : (regWrite reg v s).engine = s.engine :=
  (regWrite_same reg v s).engine

theorem engine_loadFifo (bytes : List Byte) (s : State) : (loadFifo bytes s).engine = s.engine :=
  (loadFifo_same bytes s).engine

theorem engine_setBits (reg mask : Byte) {s : State} (hu : s.chip = .unconstrained) :
    (setBits reg mask s).engine = { s.engine with tmp := s.answer 0 } := by
  rw [← setBits_tmp reg mask hu]
  exact (setBits_same reg mask s).engine

theorem engine_clearBits (reg mask : Byte) {s : State} (hu : s.chip = .unconstrained) :
    (clearBits reg mask s).engine = { s.engine with tmp := s.answer 0 } := by
  rw [← clearBits_tmp reg mask hu]
  exact (clearBits_same reg mask s).engine

/-- The conditions under which a poll loop makes `p` reads: its exit test is the spent budget or a hit, and it is entered
with its budget. -/
structure PollEntry (done : Config.Params → Nat → Byte → Bool) (hit : Byte → Bool) (s : State) (p : Nat) : Prop where
  unconstrained : s.chip = .unconstrained
  exitTest : ∀ b v, done s.cfg b v = (b == 0 || hit v)
  reads : PollReads hit s 0 s.budget p

theorem PollEntry.budget_eq {done : Config.Params → Nat → Byte → Bool} {hit : Byte → Bool} {s : State} {p : Nat}
    (h : PollEntry done hit s p) : s.budget = s.budget - 1 + 1 := by
  have hlow := h.reads.atLeastOne
  have hhigh := h.reads.atMostBudget
  omega

theorem did_poll {done : Config.Params → Nat → Byte → Bool} {hit : Byte → Bool} {s : State} {p : Nat} (reg : Byte)
    (h : PollEntry done hit s p) : Did s (pollLoop done reg (s.budget - 1) s) p (s.reads reg 0 p) :=
  (did_pollLoop reg _ h.unconstrained h.exitTest h.budget_eq h.reads).1

theorem engine_poll {done : Config.Params → Nat → Byte → Bool} {hit : Byte → Bool} {s : State} {p : Nat} (reg : Byte)
    (h : PollEntry done hit s p) :
    (pollLoop done reg (s.budget - 1) s).engine = { s.engine with irq := s.answer (p - 1), budget := s.budget - p } := by
  obtain ⟨-, hirq, -, hbudget⟩ := did_pollLoop reg _ h.unconstrained h.exitTest h.budget_eq h.reads
  have hsame := (pollLoop_same done reg (s.budget - 1) s).engine
  rw [hirq, hbudget] at hsame
  exact hsame

/-- A state is known when its engine and what `Did` says are. -/
theorem Did.eq_of_engine {s t u : State} {k : Nat} {tr : List Event} (h : Did s t k tr) (he : t.engine = u.engine)
    (hrx : t.rx = u.rx) (htr : tr ≠ []) (hc : u.chip = .unconstrained) (ho : u.oracle = (s.took k).oracle)
    (hd : u.draws = (s.took k).draws) (hr : u.regs = Memory.after s.regs tr) (hh : u.history = s.history ++ tr)
    (hcs : u.cs = .high) : t = u :=
  State.eq_of_did h (SameEngine.of_engine he) hrx hc ho hd hr hh (by rw [hcs, if_neg htr])

end Sys2Proof.Machine
end

section
/-! PROOFS. The CRC coprocessor driver (41_crc_driver.md). -/

namespace Sys2Proof.Machine

/-! ## The steps with the unconstrained chip -/

/-- C1 to C4 (R151 to R154): two answers are taken, and the second is what the flush leaves in `E.tmp`. -/
theorem did_startCrc (data : List Byte) {s : State} (hu : s.chip = .unconstrained) :
    Did s (startCrc data s) 2
      ([Event.R s.cfg s.cfg.regCrcIrq (s.answer 0), Event.W s.cfg.regCrcIrq (s.answer 0 &&& ~~~ s.cfg.crcDoneBit),
        Event.R s.cfg Config.REG_FIFO_LEVEL (s.answer 1),
        Event.W Config.REG_FIFO_LEVEL (s.answer 1 ||| s.cfg.fifoFlushBit)] ++
        data.map (Event.W Config.REG_FIFO_DATA) ++ [Event.W Config.REG_COMMAND Config.CMD_CALC_CRC]) ∧
      (startCrc data s).engine = { s.engine with tmp := s.answer 1 } := by
  have hclear : Did s (clearCrcDone s) 1 _ := did_clearBits s.cfg.regCrcIrq s.cfg.crcDoneBit hu
  have hcfg : (clearCrcDone s).cfg = s.cfg := (clearBits_same _ _ s).cfg
  have hflush : Did (clearCrcDone s) (flushFifo (clearCrcDone s)) 1 _ :=
    did_setBits Config.REG_FIFO_LEVEL (clearCrcDone s).cfg.fifoFlushBit hclear.chip
  have hload := did_loadFifo data hflush.chip
  have hissue : Did _ (startCrc data s) 0 _ := did_regWrite Config.REG_COMMAND Config.CMD_CALC_CRC hload.chip
  constructor
  · have hall := ((hclear.trans hflush).trans hload).trans hissue
    rw [hclear.answer, hcfg] at hall
    exact hall
  · rw [startCrc, issue, engine_regWrite, engine_loadFifo, flushFifo, engine_setBits _ _ hclear.chip, clearCrcDone,
      engine_clearBits _ _ hu, ← clearCrcDone, hclear.answer]

/-- C5 (R156): `p` reads, the budget counted down from POLL_BUDGET_CRC. -/
theorem did_pollCrcDone {s : State} {p : Nat} (hu : s.chip = .unconstrained)
    (hp : PollReads (fun v => v &&& s.cfg.crcDoneBit != 0) s 0 s.cfg.pollBudgetCrc p) :
    Did s (pollCrcDone (loadCrcBudget s)) p (s.reads s.cfg.regCrcIrq 0 p) ∧
      (pollCrcDone (loadCrcBudget s)).engine =
        { s.engine with irq := s.answer (p - 1), budget := s.cfg.pollBudgetCrc - p } := by
  have hload : Did s (loadCrcBudget s) 0 [] := (Did.refl hu).update rfl rfl rfl rfl rfl rfl
  have hentry : PollEntry crcPollDone (fun v => v &&& s.cfg.crcDoneBit != 0) (loadCrcBudget s) p :=
    ⟨hu, fun _ _ => rfl, ⟨hp.atLeastOne, hp.atMostBudget, hp.noneBefore, hp.ends⟩⟩
  constructor
  · have hall := hload.trans (did_poll (loadCrcBudget s).cfg.regCrcIrq hentry)
    rw [Nat.zero_add, List.nil_append] at hall
    exact hall
  · exact engine_poll (loadCrcBudget s).cfg.regCrcIrq hentry

/-- C6 (R158): low byte first. -/
theorem did_crcResult {s : State} (hu : s.chip = .unconstrained) :
    Did s (readCrcHi (readCrcLo s)) 2
      [Event.R s.cfg s.cfg.regCrcResultLo (s.answer 0), Event.R s.cfg s.cfg.regCrcResultHi (s.answer 1)] ∧
      (readCrcHi (readCrcLo s)).engine = { s.engine with crcLo := s.answer 0, crcHi := s.answer 1 } ∧
      (readCrcHi (readCrcLo s)).rx = s.answer 1 := by
  have hlo : Did s (readCrcLo s) 1 _ := (did_regRead s.cfg.regCrcResultLo hu).update rfl rfl rfl rfl rfl rfl
  have hcfg : (readCrcLo s).cfg = s.cfg := (readCrcLo_same s).cfg
  have hhi : Did (readCrcLo s) (readCrcHi (readCrcLo s)) 1 _ :=
    (did_regRead (readCrcLo s).cfg.regCrcResultHi hlo.chip).update rfl rfl rfl rfl rfl rfl
  have hansLo : (readCrcLo s).crcLo = s.answer 0 := regRead_rx _ hu
  have hansHi : (readCrcHi (readCrcLo s)).crcHi = s.answer 1 := (regRead_rx _ hlo.chip).trans (hlo.answer 0)
  refine ⟨?_, ?_, hansHi⟩
  · have hall := hlo.trans hhi
    rw [hlo.answer, hcfg] at hall
    exact hall
  · have heLo := (readCrcLo_same s).engine
    have heHi := (readCrcHi_same (readCrcLo s)).engine
    rw [hansLo] at heLo
    rw [hansHi] at heHi
    refine heHi.trans ?_
    show { (readCrcLo s).engine with crcHi := s.answer 1 } = _
    rw [heLo]
    rfl

/-- Steps C1 to C6 with `p` poll reads, the whole next state. -/
theorem computeCrc_unconstrained (data : List Byte) (s : State) {p : Nat} (hu : s.chip = .unconstrained)
    (hp : PollReads (fun v => v &&& s.cfg.crcDoneBit != 0) s 2 s.cfg.pollBudgetCrc p) :
    computeCrc data s =
      { s.took (p + 4) with
        tmp := s.answer 1
        irq := s.answer (p + 1)
        budget := s.cfg.pollBudgetCrc - p
        crcLo := s.answer (p + 2)
        crcHi := s.answer (p + 3)
        rx := s.answer (p + 3)
        cs := .high
        regs := Memory.after s.regs (crcTrace s data p)
        history := s.history ++ crcTrace s data p } := by
  obtain ⟨hstart, heStart⟩ := did_startCrc data hu
  have hcfg : (startCrc data s).cfg = s.cfg := (congrArg State.cfg heStart :)
  have hpoll : PollReads _ (startCrc data s) 0 s.cfg.pollBudgetCrc p := PollReads.shift (j := 0) hstart hp
  rw [← hcfg] at hpoll
  obtain ⟨hloop, heLoop⟩ := did_pollCrcDone hstart.chip hpoll
  have hcfg' : (pollCrcDone (loadCrcBudget (startCrc data s))).cfg = s.cfg := (congrArg State.cfg heLoop :).trans hcfg
  obtain ⟨hresult, heResult, hrx⟩ := did_crcResult hloop.chip
  have hp1 := hp.atLeastOne
  have hlast : 2 + (p - 1) = p + 1 := by omega
  have hcount : 2 + p = p + 2 := by omega
  have hcount' : 2 + (p + 1) = p + 3 := by omega
  rw [hloop.answer, hloop.answer, hstart.answer, hstart.answer, hcfg', Nat.add_zero, hcount, hcount'] at hresult
  rw [hloop.answer, hloop.answer, hstart.answer, hstart.answer, heLoop, hstart.answer, heStart, hcfg, Nat.add_zero, hcount,
    hcount', hlast] at heResult
  rw [hloop.answer, hstart.answer, hcount'] at hrx
  rw [hstart.reads hcfg, hcfg] at hloop
  have hall : Did s (computeCrc data s) (p + 4) (crcTrace s data p) := by
    have := (hstart.trans hloop).trans hresult
    rw [show 2 + p + 2 = p + 4 by omega] at this
    exact this
  exact hall.eq_of_engine heResult hrx (by simp [crcTrace]) hu rfl rfl rfl rfl rfl

/-- Settles O28. Acceptance takes no answer, so the accepted state's answers and trace are those of `s`. -/
theorem crcRunsItsSixSteps : Obligations.CrcRunsItsSixSteps := by
  intro data s p hrest hu hp
  have hsteps := computeCrc_unconstrained data (acceptCrc data s) hu ⟨hp.atLeastOne, hp.atMostBudget, hp.noneBefore, hp.ends⟩
  rw [exec_unconstrained _ hrest hu, performed, hsteps, completeCrc, complete, record]
  rfl

/-! ## Completion (R150, R156) -/

theorem exchanges_append (h h' : List Event) : exchanges (h ++ h') = exchanges h ++ exchanges h' :=
  List.filter_append h h'

theorem exchanges_of_all {tr : List Event} (h : ∀ e ∈ tr, e.isExchange = true) : exchanges tr = tr :=
  List.filter_eq_self.2 h

theorem isExchange_of_mem_reads {s : State} {reg : Byte} {k count : Nat} : ∀ e ∈ s.reads reg k count, e.isExchange = true := by
  simp [State.reads, Event.R, Event.isExchange]

theorem exchanges_crcTrace (s : State) (data : List Byte) (p : Nat) :
    exchanges (crcTrace s data p) = crcTrace s data p := by
  have hload : ∀ e ∈ data.map (Event.W Config.REG_FIFO_DATA), e.isExchange = true := by
    simp [Event.W, Event.isExchange]
  simp only [crcTrace, exchanges_append, exchanges_of_all hload, exchanges_of_all isExchange_of_mem_reads]
  rfl

theorem length_crcTrace (s : State) (data : List Byte) (p : Nat) : (crcTrace s data p).length = data.length + p + 7 := by
  simp [crcTrace, State.reads]
  omega

/-- Settles O29: whatever the answers are, the poll has its number of reads, and with it the trace of R150. -/
theorem crcAlwaysCompletes : Obligations.CrcAlwaysCompletes := by
  intro data s hrest hu hwf
  obtain ⟨-, -, -, -, -, -, -, -, -, hbudget, -⟩ := hwf
  obtain ⟨p, hp⟩ := exists_pollReads (fun v => v &&& s.cfg.crcDoneBit != 0) s 2 hbudget
  refine ⟨p, _, hp.atLeastOne, hp.atMostBudget, crcRunsItsSixSteps data s p hrest hu hp, rfl, ?_⟩
  simp only [exchanges_append, exchanges_crcTrace, List.length_append, length_crcTrace]
  simp [exchanges, Event.isExchange]
  omega

/-! ## The frame, whichever chip answers -/

/-- A chip register that no exchange writes keeps its byte, unless one of them is a soft reset. -/
theorem Ran.regByte {s t : State} {tr : List Event} (h : Ran s t tr) {a : RegAddr}
    (hno : ∀ first v, Event.write first v ∈ tr → addressOnWire first ≠ a) :
    t.regByte a = s.regByte a ∨
      (∃ first, Event.write first Config.CMD_SOFT_RESET ∈ tr ∧ addressOnWire first = chipAddr Config.REG_COMMAND) ∧
        t.regByte a = none := by
  rw [State.regByte, State.regByte, h.regs]
  exact Memory.read_after s.regs tr a hno

/-- The write exchanges of `computeCRC`. -/
theorem write_of_computeCrc {irq first v : Byte} {pre post : List Event}
    (hpre : ∀ f v, Event.write f v ∈ pre →
      f = writeAddressByte irq ∨ f = writeAddressByte Config.REG_FIFO_LEVEL ∨ f = writeAddressByte Config.REG_FIFO_DATA)
    (hpost : ∀ f v, Event.write f v ∈ post → False)
    (h : Event.write first v ∈ pre ++ [Event.W Config.REG_COMMAND Config.CMD_CALC_CRC] ++ post) :
    addressOnWire first = chipAddr irq ∨ addressOnWire first = 0x0A ∨ addressOnWire first = 0x09 ∨
      addressOnWire first = 0x01 ∧ v = Config.CMD_CALC_CRC := by
  simp only [List.mem_append, List.mem_singleton, Event.W, Event.write.injEq] at h
  rcases h with (h | ⟨rfl, rfl⟩) | h
  · rcases hpre first v h with rfl | rfl | rfl
    · exact .inl (addressOnWire_writeAddressByte irq)
    · exact .inr (.inl rfl)
    · exact .inr (.inr (.inl rfl))
  · exact .inr (.inr (.inr ⟨rfl, rfl⟩))
  · exact (hpost first v h).elim

/-- Settles O39. The engine's part is that of the exchanges, and a chip register outside the list is in no write of the trace;
only a write to REG_CRC_IRQ can be a soft reset there, since the command written is calculate-CRC. -/
theorem crcFrame : Obligations.CrcFrame := by
  intro data s t h
  obtain ⟨hrest, rfl⟩ := exec_next h
  obtain ⟨tr, hran, hsame, -, pre, post, rfl, hpost, hpre⟩ := ran_computeCrc data (acceptCrc data s)
  rw [performed, completeCrc]
  generalize computeCrc data (acceptCrc data s) = x at hran hsame ⊢
  refine ⟨⟨hsame.cfg, hsame.reg, hsame.val, hsame.command, hsame.err, hsame.lvl, hsame.n, hsame.lastBits, hsame.rdata,
    hsame.status, hsame.data, hsame.dataLen, hsame.bitLength, hsame.requests, hrest.symm⟩, fun a ha => ?_⟩
  simp only [List.mem_cons, List.not_mem_nil, or_false, not_or] at ha
  obtain ⟨hirq, hlevel, hdata, hcommand⟩ := ha
  have hkept := hran.regByte (a := a) fun first v hw heq => by
    rcases write_of_computeCrc hpre hpost hw with h | h | h | ⟨h, -⟩
    · exact hirq (heq.symm.trans h)
    · exact hlevel (heq.symm.trans h)
    · exact hdata (heq.symm.trans h)
    · exact hcommand (heq.symm.trans h)
  refine hkept.imp id fun ⟨⟨first, hw, hreset⟩, hnone⟩ => ⟨?_, hnone⟩
  rcases write_of_computeCrc hpre hpost hw with h | h | h | ⟨-, h⟩
  · exact h.symm.trans hreset
  · exact absurd (hreset.symm.trans h) (by decide)
  · exact absurd (hreset.symm.trans h) (by decide)
  · exact absurd h (by decide)

end Sys2Proof.Machine
end

section
/-! PROOFS. The transceive operation with the unconstrained chip (42_transceive.md): its steps, each with the answers it takes,
its exchanges, and what it leaves in the engine. -/

namespace Sys2Proof.Machine

/-! ## Steps 2 to 6 -/

/-- Steps 2 to 6 of `toCard`, all that precedes step 7. -/
def toCardUntilStop (command : Byte) (sendData : List Byte) (s : State) : State :=
  stopSend (pollCommIrq (issueCommand command (loadFifo sendData (prepareChip s))))

theorem toCard_eq_evaluate (command : Byte) (sendData : List Byte) (s : State) :
    toCard command sendData s = evaluate command (toCardUntilStop command sendData s) := rfl

theorem did_prepareChip {s : State} (hu : s.chip = .unconstrained) :
    Did s (prepareChip s) 2 (cardPrepareTrace s.cfg (s.answer 0) (s.answer 1)) ∧
      (prepareChip s).engine = { s.engine with tmp := s.answer 1 } := by
  have henable : Did s (enableIrqs s) 0 _ := did_regWrite Config.REG_COMM_IEN _ hu
  have heEnable : (enableIrqs s).engine = s.engine := engine_regWrite _ _ s
  have hcfgEnable : (enableIrqs s).cfg = s.cfg := (congrArg State.cfg heEnable :)
  have hclear : Did (enableIrqs s) (clearPending (enableIrqs s)) 1 _ := did_clearBits Config.REG_COMM_IRQ _ henable.chip
  have heClear : (clearPending (enableIrqs s)).engine = _ := engine_clearBits Config.REG_COMM_IRQ _ henable.chip
  have hcfgClear : (clearPending (enableIrqs s)).cfg = s.cfg := (congrArg State.cfg heClear :).trans hcfgEnable
  have hflush : Did (clearPending (enableIrqs s)) (flushFifo (clearPending (enableIrqs s))) 1 _ :=
    did_setBits Config.REG_FIFO_LEVEL _ hclear.chip
  have heFlush : (flushFifo (clearPending (enableIrqs s))).engine = _ := engine_setBits Config.REG_FIFO_LEVEL _ hclear.chip
  have hcfgFlush : (flushFifo (clearPending (enableIrqs s))).cfg = s.cfg := (congrArg State.cfg heFlush :).trans hcfgClear
  have hidle : Did _ (prepareChip s) 0 _ := did_regWrite Config.REG_COMMAND _ hflush.chip
  have hirq : (enableIrqs s).answer 0 = s.answer 0 := henable.answer 0
  have hlevel : (clearPending (enableIrqs s)).answer 0 = s.answer 1 := (hclear.answer 0).trans (henable.answer 1)
  constructor
  · have hall := ((henable.trans hclear).trans hflush).trans hidle
    rw [hlevel, hirq, hcfgEnable, hcfgClear, hcfgFlush] at hall
    exact hall
  · rw [prepareChip, issue, engine_regWrite, heFlush, heClear, heEnable, hlevel]

theorem did_issueCommand (command : Byte) {s : State} (hu : s.chip = .unconstrained) :
    Did s (issueCommand command s) (readsBeforePoll command - 2) (cardIssueTrace s.cfg command (s.answer 0)) ∧
      ∃ b, (issueCommand command s).engine = { s.engine with tmp := b } := by
  have hissue : Did s (issue command s) 0 _ := did_regWrite Config.REG_COMMAND command hu
  have heIssue : (issue command s).engine = s.engine := engine_regWrite _ _ s
  have hcfg : (issue command s).cfg = s.cfg := (congrArg State.cfg heIssue :)
  by_cases htrx : command = Config.CMD_TRANSCEIVE
  · rw [issueCommand, if_pos htrx, readsBeforePoll, if_pos htrx, cardIssueTrace, if_pos htrx, ← hcfg]
    have hstart : Did (issue command s) (startSend (issue command s)) 1 _ := did_setBits Config.REG_BIT_FRAMING _ hissue.chip
    have heStart : (startSend (issue command s)).engine = _ := engine_setBits Config.REG_BIT_FRAMING _ hissue.chip
    rw [hissue.answer] at hstart
    exact ⟨hissue.trans hstart, _, heStart.trans (by rw [heIssue])⟩
  · rw [issueCommand, if_neg htrx, readsBeforePoll, if_neg htrx, cardIssueTrace, if_neg htrx]
    exact ⟨hissue, _, heIssue⟩

/-- Steps 2 to 6 with `p` poll reads, the first of them read number `readsBeforePoll command`. -/
theorem did_toCardUntilStop (command : Byte) (sendData : List Byte) {s : State} {p : Nat} (hu : s.chip = .unconstrained)
    (hp : PollReads (trxSignalled s.cfg) s (readsBeforePoll command) s.budget p) :
    Did s (toCardUntilStop command sendData s) (readsBeforePoll command + p + 1) (cardTrace s command sendData p) ∧
      (toCardUntilStop command sendData s).engine =
        { s.engine with
          tmp := s.answer (readsBeforePoll command + p)
          irq := s.answer (readsBeforePoll command + p - 1)
          budget := s.budget - p } ∧
      (toCardUntilStop command sendData s).rx = s.answer (readsBeforePoll command + p) := by
  obtain ⟨hprep, hePrep⟩ := did_prepareChip hu
  have hload := did_loadFifo sendData hprep.chip
  have heLoad := (engine_loadFifo sendData (prepareChip s)).trans hePrep
  obtain ⟨hissue, b, heIssue⟩ := did_issueCommand command hload.chip
  rw [heLoad] at heIssue
  have hbefore := (hprep.trans hload).trans hissue
  have hcfg : (issueCommand command (loadFifo sendData (prepareChip s))).cfg = s.cfg := (congrArg State.cfg heIssue :)
  have hcfgLoad : (loadFifo sendData (prepareChip s)).cfg = s.cfg := (congrArg State.cfg heLoad :)
  have hbudget : (issueCommand command (loadFifo sendData (prepareChip s))).budget = s.budget :=
    (congrArg State.budget heIssue :)
  have hcount : 2 + 0 + (readsBeforePoll command - 2) = readsBeforePoll command := by
    unfold readsBeforePoll
    split <;> rfl
  have hframing : (loadFifo sendData (prepareChip s)).answer 0 = s.answer 2 := (hload.answer 0).trans (hprep.answer 0)
  rw [hcount, hframing, hcfgLoad] at hbefore
  rw [toCardUntilStop]
  generalize issueCommand command (loadFifo sendData (prepareChip s)) = x at *
  have hentry : PollEntry trxPollDone (trxSignalled s.cfg) x p := by
    refine ⟨hbefore.chip, fun b v => by rw [hcfg]; rfl, ?_⟩
    rw [hbudget]
    exact PollReads.shift (j := 0) hbefore hp
  have hpoll : Did x (pollCommIrq x) p _ := did_poll Config.REG_COMM_IRQ hentry
  have hePoll : (pollCommIrq x).engine = _ := engine_poll Config.REG_COMM_IRQ hentry
  have hcfgPoll : (pollCommIrq x).cfg = s.cfg := (congrArg State.cfg hePoll :).trans hcfg
  have hstop : Did (pollCommIrq x) (stopSend (pollCommIrq x)) 1 _ := did_clearBits Config.REG_BIT_FRAMING _ hpoll.chip
  have heStop : (stopSend (pollCommIrq x)).engine = _ := engine_clearBits Config.REG_BIT_FRAMING _ hpoll.chip
  have hlast : (pollCommIrq x).answer 0 = s.answer (readsBeforePoll command + p) :=
    (hpoll.answer 0).trans (hbefore.answer p)
  have hpolled : x.answer (p - 1) = s.answer (readsBeforePoll command + p - 1) := by
    rw [hbefore.answer, Nat.add_sub_assoc hp.atLeastOne]
  refine ⟨?_, ?_, (clearBits_rx _ _ hpoll.chip).trans hlast⟩
  · rw [hbefore.reads hcfg, Nat.add_zero] at hpoll
    rw [hlast, hcfgPoll] at hstop
    exact (hbefore.trans hpoll).trans hstop
  · rw [heStop, hePoll, heIssue, hlast, hpolled, hbudget]

/-! ## Step 7 -/

theorem evaluate_of_spent (command : Byte) {s : State} (hspent : s.budget = 0) : evaluate command s = s :=
  if_pos hspent

theorem evaluate_of_left (command : Byte) {s : State} (hleft : s.budget ≠ 0) :
    evaluate command s =
      if drains (readError s).cfg command (readError s).err then drainResponse (readError s) else readError s :=
  if_neg hleft

/-- The error read (R184, R185). -/
theorem did_readError {s : State} (hu : s.chip = .unconstrained) :
    Did s (readError s) 1 [Event.R s.cfg Config.REG_ERROR (s.answer 0)] ∧
      (readError s).engine =
        { s.engine with err := s.answer 0, status := statusAfter s.cfg s.irq (s.answer 0) s.status } ∧
      (readError s).rx = s.answer 0 := by
  have hans : (regRead Config.REG_ERROR s).rx = s.answer 0 := regRead_rx _ hu
  have hstatus : (readError s).status = statusAfter s.cfg s.irq (s.answer 0) s.status := by
    simp only [readError, regRead_cfg, regRead_irq, regRead_status, hans]
  have hsame := (readError_same s).engine
  rw [hstatus, readError_err hu] at hsame
  exact ⟨(did_regRead Config.REG_ERROR hu).update rfl rfl rfl rfl rfl rfl, hsame, hans⟩

theorem did_readLevel {s : State} (hu : s.chip = .unconstrained) :
    Did s (readLevel s) 1 [Event.R s.cfg Config.REG_FIFO_LEVEL (s.answer 0)] ∧
      (readLevel s).engine = { s.engine with lvl := s.answer 0, n := drainCount (s.answer 0) } := by
  have hans : (readLevel s).lvl = s.answer 0 := regRead_rx _ hu
  have hn : (readLevel s).n = drainCount (s.answer 0) := congrArg drainCount hans
  have hsame := (readLevel_same s).engine
  rw [hn, hans] at hsame
  exact ⟨(did_regRead Config.REG_FIFO_LEVEL hu).update rfl rfl rfl rfl rfl rfl, hsame⟩

theorem engine_readLastBits {s : State} (hu : s.chip = .unconstrained) :
    (readLastBits s).engine =
      { s.engine with
        lastBits := s.answer 0 &&& s.cfg.lastBitsMask
        bitLength := bitLengthOf s.cfg s.n s.lvl (s.answer 0 &&& s.cfg.lastBitsMask)
          (Config.freeBitLength (s.took 1).draws) } := by
  have hread := did_regRead Config.REG_CONTROL hu
  have hlast : (readLastBits s).lastBits = s.answer 0 &&& s.cfg.lastBitsMask := by
    simp only [readLastBits, regRead_rx _ hu, regRead_cfg]
  have hbits : (readLastBits s).bitLength =
      bitLengthOf s.cfg s.n s.lvl (s.answer 0 &&& s.cfg.lastBitsMask) (Config.freeBitLength (s.took 1).draws) := by
    simp only [readLastBits, regRead_rx _ hu, regRead_cfg, regRead_n, regRead_lvl, hread.draws]
  have hsame := (readLastBits_same s).engine
  rw [hlast, hbits] at hsame
  exact hsame

/-- Where D13 states the length, the control read draws nothing but its answer. -/
theorem did_readLastBits {s : State} (hu : s.chip = .unconstrained)
    (hstated : bitLengthOpen s.cfg s.lvl (s.answer 0 &&& s.cfg.lastBitsMask) = false) :
    Did s (readLastBits s) 1 [Event.R s.cfg Config.REG_CONTROL (s.answer 0)] := by
  refine (did_regRead Config.REG_CONTROL hu).update rfl rfl ?_ rfl rfl rfl
  simp only [readLastBits, regRead_rx _ hu, regRead_cfg, regRead_lvl, hstated]
  rfl

theorem engine_drainBytes (count i : Nat) (s : State) :
    (drainBytes count i s).engine = { s.engine with data := (drainBytes count i s).data } :=
  (drainBytes_same count i s).engine

/-- What the drain leaves in the engine, wherever the bit length comes from (R186 to R188, D13). -/
theorem engine_drainResponse {s : State} (hu : s.chip = .unconstrained) :
    (drainResponse s).engine =
      { s.engine with
        lvl := s.answer 0
        n := drainCount (s.answer 0)
        lastBits := s.answer 1 &&& s.cfg.lastBitsMask
        bitLength := bitLengthOf s.cfg (drainCount (s.answer 0)) (s.answer 0) (s.answer 1 &&& s.cfg.lastBitsMask)
          (Config.freeBitLength (s.took 2).draws)
        data := (drainResponse s).data
        dataLen := drainCount (s.answer 0) } := by
  obtain ⟨hlevel, heLevel⟩ := did_readLevel hu
  have heLast := engine_readLastBits hlevel.chip
  have hn : (readLevel s).n = drainCount (s.answer 0) := (congrArg State.n heLevel :)
  have hlvl : (readLevel s).lvl = s.answer 0 := (congrArg State.lvl heLevel :)
  have hcfg : (readLevel s).cfg = s.cfg := (congrArg State.cfg heLevel :)
  have hdraws : ((readLevel s).took 1).draws = (s.took 2).draws := by
    have := congrArg State.draws (took_took 1 1 s)
    simp only [State.took] at this ⊢
    rw [hlevel.draws, hlevel.oracle]
    exact this
  rw [hlevel.answer, hn, hlvl, hcfg, hdraws, heLevel] at heLast
  have hcount : (readLastBits (readLevel s)).n = drainCount (s.answer 0) := (readLastBits_same _).n.trans hn
  have heDrain := engine_drainBytes (readLastBits (readLevel s)).n 0 (readLastBits (readLevel s))
  have hcountDrain : (drainBytes (readLastBits (readLevel s)).n 0 (readLastBits (readLevel s))).n = drainCount (s.answer 0) :=
    (drainBytes_same _ _ _).n.trans hcount
  have hset : (drainResponse s).engine =
      { (drainBytes (readLastBits (readLevel s)).n 0 (readLastBits (readLevel s))).engine with
        dataLen := (drainBytes (readLastBits (readLevel s)).n 0 (readLastBits (readLevel s))).n } := rfl
  rw [hset, heDrain, heLast, hcountDrain]
  rfl

/-- The drain's exchanges and the bytes it reads, where D13 states the length. -/
theorem did_drainResponse {s : State} (hu : s.chip = .unconstrained)
    (hstated : bitLengthOpen s.cfg (s.answer 0) (s.answer 1 &&& s.cfg.lastBitsMask) = false) :
    Did s (drainResponse s) (2 + drainCount (s.answer 0))
      ([Event.R s.cfg Config.REG_FIFO_LEVEL (s.answer 0), Event.R s.cfg Config.REG_CONTROL (s.answer 1)] ++
        s.reads Config.REG_FIFO_DATA 2 (drainCount (s.answer 0))) ∧
      (∀ j (hj : j < 16), (drainResponse s).data[j] =
        if j < drainCount (s.answer 0) then s.answer (2 + j) else s.data[j]) ∧
      (drainResponse s).rx = s.answer (1 + drainCount (s.answer 0)) := by
  obtain ⟨hlevel, heLevel⟩ := did_readLevel hu
  have hlvl : (readLevel s).lvl = s.answer 0 := (congrArg State.lvl heLevel :)
  have hcfg : (readLevel s).cfg = s.cfg := (congrArg State.cfg heLevel :)
  have hcontrol : (readLevel s).answer 0 = s.answer 1 := hlevel.answer 0
  have hlast := did_readLastBits hlevel.chip (by rw [hcfg, hlvl, hcontrol]; exact hstated)
  have hlastSame := readLastBits_same (readLevel s)
  have hcfgLast : (readLastBits (readLevel s)).cfg = s.cfg := hlastSame.cfg.trans hcfg
  have hn : (readLastBits (readLevel s)).n = drainCount (s.answer 0) := hlastSame.n.trans (congrArg State.n heLevel :)
  have hdata : (readLastBits (readLevel s)).data = s.data := hlastSame.data.trans (congrArg State.data heLevel :)
  rw [hcontrol, hcfg] at hlast
  have hbefore : Did s (readLastBits (readLevel s)) 2 _ := hlevel.trans hlast
  obtain ⟨hdrain, hbytes, hrx⟩ := did_drainBytes (readLastBits (readLevel s)).n 0 hbefore.chip
  rw [hbefore.reads hcfgLast, hn] at hdrain
  rw [hn] at hbytes hrx
  have hpos := one_le_drainCount (s.answer 0)
  have hwhole : drainResponse s =
      setDataLen (drainBytes (drainCount (s.answer 0)) 0 (readLastBits (readLevel s))) := by
    rw [← hn]
    rfl
  rw [hwhole]
  refine ⟨(hbefore.trans hdrain).update rfl rfl rfl rfl rfl rfl, fun j hj => ?_, ?_⟩
  · rw [setDataLen_data, hbytes j hj, hbefore.answer]
    simp only [Nat.zero_le, true_and, Nat.zero_add, Nat.sub_zero, hdata]
  · rw [setDataLen_rx, hrx hpos, hbefore.answer, ← Nat.add_sub_assoc hpos, Nat.add_comm 2]
    congr 1
    omega

end Sys2Proof.Machine
end

section
/-! PROOFS. What TOCARD ends with: the next states of the exhausted and the signalled poll (R183 to R192, R260). -/

namespace Sys2Proof.Machine

/-! ## Tests and counts in the words of the statements -/

theorem statusAfter_error (cfg : Config.Params) (irq err : Byte) :
    statusAfter cfg irq err .error =
      if err &&& 0x1B ≠ 0 then .error else if irq &&& 0x77 &&& cfg.timerIrqBit ≠ 0 then .timeout else .ok := by
  simp only [statusAfter, errorBits, timerFired, bne_iff_ne]

theorem drains_eq_true {cfg : Config.Params} {command err : Byte} :
    drains cfg command err = true ↔
      command = Config.CMD_TRANSCEIVE ∧ (cfg.drainOnError = true ∨ err &&& 0x1B = 0) := by
  simp [drains, errorBits]

theorem drainCount_eq (lvl : Byte) : drainCount lvl = max 1 (min 16 lvl.toNat) := by
  simp only [drainCount, clamp, Config.DATA_MAX]
  split_ifs <;> omega

theorem bitsOf_eq (m : Nat) (lastBits : Byte) :
    bitsOf m lastBits = if lastBits.toNat = 0 then m * 8 else (m - 1) * 8 + lastBits.toNat := by
  have hzero : lastBits = 0 ↔ lastBits.toNat = 0 := BitVec.toNat_inj.symm
  simp only [bitsOf, hzero]

/-! ## From acceptance to the end of step 6 -/

/-- What `did_toCardUntilStop` says of the accepted operation, in the words of the state before acceptance: step 1 reloads the
budget and resets the result, and takes no answer. -/
theorem did_acceptedUntilStop (command : Byte) (sendData : List Byte) {s : State} {p : Nat} (hu : s.chip = .unconstrained)
    (hp : PollReads (trxSignalled s.cfg) s (readsBeforePoll command) s.cfg.pollBudgetTrx p) :
    Did (acceptTocard command sendData s) (toCardUntilStop command sendData (acceptTocard command sendData s))
        (readsBeforePoll command + p + 1) (cardTrace s command sendData p) ∧
      (toCardUntilStop command sendData (acceptTocard command sendData s)).engine =
        { (acceptTocard command sendData s).engine with
          tmp := s.answer (readsBeforePoll command + p)
          irq := s.answer (readsBeforePoll command + p - 1)
          budget := s.cfg.pollBudgetTrx - p } ∧
      (toCardUntilStop command sendData (acceptTocard command sendData s)).rx = s.answer (readsBeforePoll command + p) :=
  did_toCardUntilStop command sendData hu ⟨hp.atLeastOne, hp.atMostBudget, hp.noneBefore, hp.ends⟩

theorem cardTrace_ne_nil (s : State) (command : Byte) (sendData : List Byte) (p : Nat) :
    cardTrace s command sendData p ≠ [] := by
  simp [cardTrace, cardPrepareTrace]

/-- Settles O31. The poll spends its budget, so step 7 does nothing, and what step 1 set is the result. -/
theorem tocardExhaustedReturnsError : Obligations.TocardExhaustedReturnsError := by
  intro command sendData s k p hrest hu hk hp hspent
  subst hk
  obtain ⟨hdid, he, hrx⟩ := did_acceptedUntilStop command sendData hu hp
  rw [hspent, Nat.sub_self, ← hspent] at he
  have hzero : (toCardUntilStop command sendData (acceptTocard command sendData s)).budget = 0 := (congrArg State.budget he :)
  have hstate := hdid.eq_of_engine
    (u := { (acceptTocard command sendData s).took (readsBeforePoll command + p + 1) with
      tmp := s.answer (readsBeforePoll command + p)
      irq := s.answer (readsBeforePoll command + p - 1)
      budget := 0
      rx := s.answer (readsBeforePoll command + p)
      cs := .high
      regs := Memory.after s.regs (cardTrace s command sendData p)
      history := s.history ++ [.request (.tocard command sendData)] ++ cardTrace s command sendData p })
    he hrx (cardTrace_ne_nil s command sendData p) hu rfl rfl rfl rfl rfl
  rw [exec_unconstrained _ hrest hu, performed, toCard_eq_evaluate, evaluate_of_spent _ hzero, hstate, completeCard, complete,
    record]
  rfl

/-- The poll left a budget, so step 7 reads the error register; and what steps 2 to 6 left is still there. -/
theorem did_acceptedUntilError (command : Byte) (sendData : List Byte) {s : State} {p : Nat} (hu : s.chip = .unconstrained)
    (hp : PollReads (trxSignalled s.cfg) s (readsBeforePoll command) s.cfg.pollBudgetTrx p)
    (hleft : p < s.cfg.pollBudgetTrx) {status : Status}
    (hstatus : status = (if s.answer (readsBeforePoll command + p + 1) &&& 0x1B ≠ 0 then .error
      else if s.answer (readsBeforePoll command + p - 1) &&& 0x77 &&& s.cfg.timerIrqBit ≠ 0 then .timeout else .ok)) :
    (toCardUntilStop command sendData (acceptTocard command sendData s)).budget ≠ 0 ∧
      Did (acceptTocard command sendData s) (readError (toCardUntilStop command sendData (acceptTocard command sendData s)))
        (readsBeforePoll command + p + 2)
        (cardTrace s command sendData p ++ [Event.R s.cfg Config.REG_ERROR (s.answer (readsBeforePoll command + p + 1))]) ∧
      (readError (toCardUntilStop command sendData (acceptTocard command sendData s))).engine =
        { (acceptTocard command sendData s).engine with
          tmp := s.answer (readsBeforePoll command + p)
          irq := s.answer (readsBeforePoll command + p - 1)
          err := s.answer (readsBeforePoll command + p + 1)
          budget := s.cfg.pollBudgetTrx - p
          status := status } ∧
      (readError (toCardUntilStop command sendData (acceptTocard command sendData s))).rx =
        s.answer (readsBeforePoll command + p + 1) := by
  obtain ⟨hdid, he, -⟩ := did_acceptedUntilStop command sendData hu hp
  generalize toCardUntilStop command sendData (acceptTocard command sendData s) = x at *
  have hbudget : x.budget = s.cfg.pollBudgetTrx - p := (congrArg State.budget he :)
  have hcfg : x.cfg = s.cfg := (congrArg State.cfg he :)
  have hirq : x.irq = s.answer (readsBeforePoll command + p - 1) := (congrArg State.irq he :)
  have hbefore : x.status = .error := (congrArg State.status he :)
  have hans : x.answer 0 = s.answer (readsBeforePoll command + p + 1) := hdid.answer 0
  obtain ⟨hread, heRead, hrx⟩ := did_readError hdid.chip
  rw [hans, hcfg] at hread
  rw [hans, hcfg, hirq, hbefore, statusAfter_error, ← hstatus, he] at heRead
  exact ⟨by omega, hdid.trans hread, heRead, hrx.trans hans⟩

/-- Settles O32. No drain follows the error read, so what it leaves is the result. -/
theorem tocardSignalledWithoutDrain : Obligations.TocardSignalledWithoutDrain := by
  intro command sendData s k p status hrest hu hk hp hleft hno hstatus
  subst hk
  obtain ⟨hbudget, hdid, he, hrx⟩ := did_acceptedUntilError command sendData hu hp hleft hstatus
  have hcfg : (readError (toCardUntilStop command sendData (acceptTocard command sendData s))).cfg = s.cfg :=
    (congrArg State.cfg he :)
  have herr : (readError (toCardUntilStop command sendData (acceptTocard command sendData s))).err =
      s.answer (readsBeforePoll command + p + 1) := (congrArg State.err he :)
  have hdrains : ¬ drains s.cfg command (s.answer (readsBeforePoll command + p + 1)) = true := by
    rw [drains_eq_true]
    rintro ⟨htrx, hdrain⟩
    rcases hno with hother | ⟨hoff, hbits⟩
    · exact hother htrx
    · exact hdrain.elim (by simp [hoff]) hbits
  have hstate := hdid.eq_of_engine
    (u := { (acceptTocard command sendData s).took (readsBeforePoll command + p + 2) with
      tmp := s.answer (readsBeforePoll command + p)
      irq := s.answer (readsBeforePoll command + p - 1)
      err := s.answer (readsBeforePoll command + p + 1)
      budget := s.cfg.pollBudgetTrx - p
      rx := s.answer (readsBeforePoll command + p + 1)
      status := status
      cs := .high
      regs := Memory.after s.regs (cardTrace s command sendData p)
      history := s.history ++ [.request (.tocard command sendData)] ++
        (cardTrace s command sendData p ++ [Event.R s.cfg 0x06 (s.answer (readsBeforePoll command + p + 1))]) })
    he hrx (by simp) hu rfl rfl (by rw [Memory.after_append]; rfl) rfl rfl
  rw [exec_unconstrained _ hrest hu, performed, toCard_eq_evaluate, evaluate_of_left _ hbudget, hcfg, herr, if_neg hdrains,
    hstate, completeCard, complete, record]
  simp only [List.append_assoc]
  rfl

/-! ## The drain -/

/-- The first `n` bytes of the data registers, from what the drain left in each. -/
theorem take_toList_of_getElem {data : Vector Byte 16} {f : Nat → Byte} {n : Nat} (hn : n ≤ 16)
    (h : ∀ j (hj : j < 16), j < n → data[j] = f j) : data.toList.take n = (List.range n).map f := by
  refine List.ext_getElem (by simpa using hn) fun j hj _ => ?_
  have hjn : j < n := by simp at hj; omega
  have hget := h j (by omega) hjn
  simpa using hget

/-- The transceive command with a drain: the operation ends in the drain of a state `r` in which five answers and the poll's
are taken (R184 to R186). -/
theorem exec_tocard_of_drain (sendData : List Byte) {s : State} {p : Nat} (hrest : s.seq = .rest)
    (hu : s.chip = .unconstrained) (hp : PollReads (trxSignalled s.cfg) s 3 s.cfg.pollBudgetTrx p)
    (hleft : p < s.cfg.pollBudgetTrx) (hdrain : s.cfg.drainOnError = true ∨ s.answer (p + 4) &&& 0x1B = 0) {status : Status}
    (hstatus : status = (if s.answer (p + 4) &&& 0x1B ≠ 0 then .error
      else if s.answer (p + 2) &&& 0x77 &&& s.cfg.timerIrqBit ≠ 0 then .timeout else .ok)) :
    ∃ r, exec (.tocard 0x0C sendData) s = .next (completeCard (drainResponse r)) ∧
      Did (acceptTocard 0x0C sendData s) r (p + 5)
        (cardTrace s 0x0C sendData p ++ [Event.R s.cfg Config.REG_ERROR (s.answer (p + 4))]) ∧
      r.engine =
        { (acceptTocard 0x0C sendData s).engine with
          tmp := s.answer (p + 3)
          irq := s.answer (p + 2)
          err := s.answer (p + 4)
          budget := s.cfg.pollBudgetTrx - p
          status := status } := by
  have hthree : readsBeforePoll 0x0C = 3 := rfl
  have htmp : 3 + p = p + 3 := Nat.add_comm 3 p
  have hirq : p + 3 - 1 = p + 2 := rfl
  have herrIndex : p + 3 + 1 = p + 4 := rfl
  have hcount : p + 3 + 2 = p + 5 := rfl
  have herror := did_acceptedUntilError 0x0C sendData (status := status) hu hp hleft
  rw [hthree, htmp, hirq, herrIndex, hcount] at herror
  obtain ⟨hbudget, hdid, he, -⟩ := herror hstatus
  refine ⟨_, ?_, hdid, he⟩
  have hcfg : (readError (toCardUntilStop 0x0C sendData (acceptTocard 0x0C sendData s))).cfg = s.cfg :=
    (congrArg State.cfg he :)
  have herr : (readError (toCardUntilStop 0x0C sendData (acceptTocard 0x0C sendData s))).err = s.answer (p + 4) :=
    (congrArg State.err he :)
  rw [exec_unconstrained _ hrest hu, performed, toCard_eq_evaluate, evaluate_of_left _ hbudget, hcfg, herr,
    if_pos (drains_eq_true.2 ⟨rfl, hdrain⟩)]

/-- Settles O33. The clamped count enters the formula, so the length is stated; the drain's bytes stand in the data registers
below the count, and the record takes those. -/
theorem tocardSignalledWithDrain : Obligations.TocardSignalledWithDrain := by
  intro sendData s p n count status hrest hu hp hleft hdrain hclamped hn hcount hstatus
  obtain ⟨r, hexec, hdid, he⟩ := exec_tocard_of_drain sendData hrest hu hp hleft hdrain hstatus
  have hcfg : r.cfg = s.cfg := (congrArg State.cfg he :)
  have hdata : r.data = s.data := (congrArg State.data he :)
  have hans (m : Nat) : r.answer m = s.answer (p + 5 + m) := hdid.answer m
  have hlevel : drainCount (r.answer 0) = n := by rw [hans, drainCount_eq]; exact hn.symm
  have hstated (lvl lastBits : Byte) : bitLengthOpen r.cfg lvl lastBits = false := by simp [bitLengthOpen, hcfg, hclamped]
  obtain ⟨hdrained, hbytes, hrx⟩ := did_drainResponse hdid.chip (hstated _ _)
  have heDrain := engine_drainResponse hdid.chip
  have hbits (free : Nat) : bitLengthOf s.cfg n (s.answer (p + 5)) (s.answer (p + 6) &&& s.cfg.lastBitsMask) free =
      if count = 0 then n * 8 else (n - 1) * 8 + count := by
    rw [bitLengthOf, if_pos hclamped, bitsOf_eq, ← hcount]
  have hreads : r.reads Config.REG_FIFO_DATA 2 n = s.reads Config.REG_FIFO_DATA (p + 7) n := hdid.reads hcfg _ _ _
  have hrxIndex : p + 5 + (1 + n) = p + 6 + n := by omega
  have htotal : p + 5 + (2 + n) = p + 7 + n := by omega
  rw [hlevel, hcfg, hans, hans, hreads] at hdrained
  rw [hlevel, hcfg, hans, hans, hbits, he] at heDrain
  rw [hlevel, hans, hrxIndex] at hrx
  have hall := hdid.trans hdrained
  rw [htotal] at hall
  have hdataBytes (j : Nat) (hj : j < 16) :
      (drainResponse r).data[j] = if j < n then s.answer (p + 7 + j) else s.data[j] := by
    rw [hbytes j hj, hlevel, hans, ← Nat.add_assoc]
    simp only [hdata]
  have hn16 : n ≤ 16 := by omega
  have hrecord : (drainResponse r).data.toList.take n = (List.range n).map fun j => s.answer (p + 7 + j) :=
    take_toList_of_getElem hn16 fun j hj hjn => by rw [hdataBytes j hj, if_pos hjn]
  refine ⟨(drainResponse r).data, hdataBytes, ?_⟩
  generalize (drainResponse r).data = data at heDrain hrecord
  have hstate := hall.eq_of_engine
    (u := { (acceptTocard 0x0C sendData s).took (p + 7 + n) with
      tmp := s.answer (p + 3)
      irq := s.answer (p + 2)
      err := s.answer (p + 4)
      lvl := s.answer (p + 5)
      n := n
      lastBits := s.answer (p + 6) &&& s.cfg.lastBitsMask
      budget := s.cfg.pollBudgetTrx - p
      rx := s.answer (p + 6 + n)
      status := status
      data := data
      dataLen := n
      bitLength := if count = 0 then n * 8 else (n - 1) * 8 + count
      cs := .high
      regs := Memory.after s.regs (cardTrace s 0x0C sendData p)
      history := s.history ++ [.request (.tocard 0x0C sendData)] ++
        ((cardTrace s 0x0C sendData p ++ [Event.R s.cfg 0x06 (s.answer (p + 4))]) ++
          ([Event.R s.cfg 0x0A (s.answer (p + 5)), Event.R s.cfg 0x0C (s.answer (p + 6))] ++ s.reads 0x09 (p + 7) n)) })
    heDrain hrx (by simp) hu rfl rfl ?_ rfl rfl
  · rw [hexec, hstate, completeCard, complete, record, resultRecord]
    simp only [hrecord, List.append_assoc]
    rfl
  · rw [Memory.after_append, Memory.after_append, Memory.after_append, Memory.after_reads]
    rfl

end Sys2Proof.Machine
end

section
/-! PROOFS. TOCARD's bit length without the clamp, its status, its completion and its frame (R10, R170, R187, R193, R260, R294). -/

namespace Sys2Proof.Machine

/-! ## The unclamped bit length (D13) -/

theorem handedOver_complete (r : OpResult) (s : State) : (complete r s).handedOver = some r := by
  simp only [State.handedOver, complete_history, List.getLast?_append, List.getLast?_singleton, Option.some_or]

/-- Settles O34. The drain leaves the formula on the level as read wherever D13 does not leave the length open, and a count of
0 or a level above 0 is such a place. -/
theorem tocardUnclampedBitLength : Obligations.TocardUnclampedBitLength := by
  intro sendData s p lvl count hrest hu hp hleft hdrain hunclamped hlvl hcount
  obtain ⟨r, hexec, hdid, he⟩ := exec_tocard_of_drain sendData hrest hu hp hleft hdrain rfl
  have hcfg : r.cfg = s.cfg := (congrArg State.cfg he :)
  have hans (m : Nat) : r.answer m = s.answer (p + 5 + m) := hdid.answer m
  have heDrain := engine_drainResponse hdid.chip
  rw [hcfg, hans, hans] at heDrain
  have hlen : (drainResponse r).dataLen = max 1 (min 16 lvl) := by
    rw [hlvl, ← drainCount_eq]
    exact (congrArg State.dataLen heDrain :)
  have hbits := (congrArg State.bitLength heDrain :)
  have hstated (hnot : ¬ (s.answer (p + 5) = 0 ∧ count ≠ 0)) :
      (drainResponse r).bitLength = if count = 0 then lvl * 8 else (lvl - 1) * 8 + count := by
    have hopen : ¬ bitLengthOpen s.cfg (s.answer (p + 5)) (s.answer (p + 6) &&& s.cfg.lastBitsMask) = true := by
      simpa [bitLengthOpen, hunclamped, hcount, ← BitVec.toNat_inj] using hnot
    refine hbits.trans ?_
    rw [bitLengthOf, if_neg (by simp [hunclamped]), if_neg hopen, bitsOf_eq, ← hcount, hlvl]
  refine ⟨_, hexec, hlen, fun hzero => ?_, fun hcount0 hlvl0 => ?_, handedOver_complete _ _⟩
  · rw [completeCard, complete_bitLength, hstated (fun h => h.2 hzero), if_pos hzero]
  · rw [completeCard, complete_bitLength, hstated (fun h => hlvl0 (by rw [hlvl, h.1]; rfl)), if_neg hcount0]

/-! ## The status (R185, R260) -/

theorem readError_status (s : State) : (readError s).status = statusAfter s.cfg s.irq (readError s).err s.status := by
  simp only [readError, regRead_cfg, regRead_irq, regRead_status]

/-- The drain writes none of the registers the status was read off, and not the status. -/
theorem drainResponse_keeps (s : State) :
    (drainResponse s).status = s.status ∧ (drainResponse s).err = s.err ∧ (drainResponse s).irq = s.irq ∧
      (drainResponse s).budget = s.budget := by
  have hlevel := readLevel_same s
  have hlast := readLastBits_same (readLevel s)
  have hdrain := drainBytes_same (readLastBits (readLevel s)).n 0 (readLastBits (readLevel s))
  exact ⟨hdrain.status.trans (hlast.status.trans hlevel.status), hdrain.err.trans (hlast.err.trans hlevel.err),
    hdrain.irq.trans (hlast.irq.trans hlevel.irq), hdrain.budget.trans (hlast.budget.trans hlevel.budget)⟩

/-- The status after step 7, in the registers it leaves. -/
theorem evaluate_status (command : Byte) (s : State) :
    (evaluate command s).status =
      if (evaluate command s).budget = 0 then s.status
      else statusAfter s.cfg (evaluate command s).irq (evaluate command s).err s.status := by
  by_cases hspent : s.budget = 0
  · rw [evaluate_of_spent command hspent, if_pos hspent]
  · have hread := readError_same s
    rw [evaluate_of_left command hspent]
    split
    · obtain ⟨hstatus, herr, hirq, hbudget⟩ := drainResponse_keeps (readError s)
      rw [hstatus, herr, hirq, hbudget, hread.irq, hread.budget, if_neg hspent, readError_status]
    · rw [hread.irq, hread.budget, if_neg hspent, readError_status]

/-- Steps 2 to 6 write `E.tmp`, `E.irq` and `E.budget` alone, whichever chip answers. -/
theorem engine_toCardUntilStop (command : Byte) (sendData : List Byte) (s : State) :
    ∃ tmp irq budget, (toCardUntilStop command sendData s).engine =
      { s.engine with tmp := tmp, irq := irq, budget := budget } := by
  obtain ⟨-, -, hprep, -⟩ := ran_prepareChip s
  have hePrep : (prepareChip s).engine = { s.engine with tmp := (prepareChip s).tmp } := hprep.engine
  have heLoad := (engine_loadFifo sendData (prepareChip s)).trans hePrep
  rw [toCardUntilStop]
  generalize loadFifo sendData (prepareChip s) = x at *
  obtain ⟨-, -, hissue, -⟩ := ran_issueCommand command x
  have heIssue : (issueCommand command x).engine = { x.engine with tmp := (issueCommand command x).tmp } := hissue.engine
  rw [heLoad] at heIssue
  generalize issueCommand command x = y at *
  have hePoll : (pollCommIrq y).engine =
      { y.engine with irq := (pollCommIrq y).irq, budget := (pollCommIrq y).budget } := (pollLoop_same _ _ _ y).engine
  have heStop : (stopSend (pollCommIrq y)).engine =
      { (pollCommIrq y).engine with tmp := (stopSend (pollCommIrq y)).tmp } := (stopSend_same _).engine
  rw [hePoll, heIssue] at heStop
  exact ⟨_, _, _, heStop⟩

/-- Settles O36. Step 1 sets ERROR, nothing before step 7 writes the status, and step 7 keeps it or replaces it by R185. -/
theorem statusPriority : Obligations.StatusPriority := by
  intro command sendData s t _ _ h
  obtain ⟨-, rfl⟩ := exec_next h
  obtain ⟨_, _, _, he⟩ := engine_toCardUntilStop command sendData (acceptTocard command sendData s)
  obtain ⟨_, _, -, -, -, hsame, -⟩ := ran_toCard command sendData (acceptTocard command sendData s)
  have hcfg : (toCard command sendData (acceptTocard command sendData s)).cfg = s.cfg := hsame.cfg
  have hcfgStop : (toCardUntilStop command sendData (acceptTocard command sendData s)).cfg = s.cfg := (congrArg State.cfg he :)
  have hbefore : (toCardUntilStop command sendData (acceptTocard command sendData s)).status = .error :=
    (congrArg State.status he :)
  have hstatus := evaluate_status command (toCardUntilStop command sendData (acceptTocard command sendData s))
  rw [hbefore, statusAfter_error, hcfgStop, ← toCard_eq_evaluate] at hstatus
  simp only [performed, completeCard, complete_status, complete_budget, complete_err, complete_irq, complete_cfg, hcfg]
  exact hstatus

/-! ## Completion within its bound (R193) -/

theorem ran_drainResponse (s : State) : ∃ tr, Ran s (drainResponse s) tr ∧ tr.length ≤ 18 := by
  have hn : (readLastBits (readLevel s)).n ≤ 16 := (readLastBits_same _).n.trans_le (drainCount_le _)
  obtain ⟨answers, hdrain, hlength⟩ := ran_drainBytes (readLastBits (readLevel s)).n 0 (readLastBits (readLevel s))
  refine ⟨_, (((ran_readLevel s).trans (ran_readLastBits _)).trans hdrain).update rfl rfl rfl rfl rfl, ?_⟩
  simp only [List.length_append, List.length_singleton, List.length_map, hlength]
  omega

theorem ran_evaluate_length (command : Byte) (s : State) : ∃ tr, Ran s (evaluate command s) tr ∧ tr.length ≤ 19 := by
  by_cases hspent : s.budget = 0
  · rw [evaluate_of_spent command hspent]
    exact ⟨[], Ran.refl s, Nat.zero_le 19⟩
  · rw [evaluate_of_left command hspent]
    split
    · obtain ⟨tr, hdrain, hlength⟩ := ran_drainResponse (readError s)
      exact ⟨_, (ran_readError s).trans hdrain, by simp only [List.length_append, List.length_singleton]; omega⟩
    · exact ⟨_, ran_readError s, by simp⟩

theorem length_cardTrace_le (s : State) (command : Byte) (sendData : List Byte) (p : Nat) :
    (cardTrace s command sendData p).length ≤ sendData.length + p + 11 := by
  have hissue : (cardIssueTrace s.cfg command (s.answer 2)).length ≤ 3 := by
    unfold cardIssueTrace
    split <;> simp
  simp only [cardTrace, cardPrepareTrace, cardStopTrace, State.reads, List.length_append, List.length_map,
    List.length_range, List.length_cons, List.length_nil]
  omega

/-- Settles O35. The poll has its number of reads, at most its budget, whatever the answers; step 7 adds at most 19. -/
theorem tocardAlwaysCompletes : Obligations.TocardAlwaysCompletes := by
  intro command sendData s hrest hu hwf
  obtain ⟨-, -, -, -, -, -, -, hbudget, -⟩ := hwf
  obtain ⟨p, hp⟩ := exists_pollReads (trxSignalled s.cfg) s (readsBeforePoll command) hbudget
  obtain ⟨hdid, -⟩ := did_acceptedUntilStop command sendData hu hp
  obtain ⟨tr, heval, htr⟩ :=
    ran_evaluate_length command (toCardUntilStop command sendData (acceptTocard command sendData s))
  refine ⟨_, exec_unconstrained _ hrest hu, rfl, ?_⟩
  rw [performed, completeCard, exchanges_complete, toCard_eq_evaluate, heval.exchanges_eq, hdid.history, exchanges_append]
  have haccept : exchanges (acceptTocard command sendData s).history = exchanges s.history := by
    simp [exchanges, Event.isExchange]
  have hcard : (exchanges (cardTrace s command sendData p)).length ≤ sendData.length + p + 11 :=
    (List.length_filter_le _ _).trans (length_cardTrace_le s command sendData p)
  have hpoll := hp.atMostBudget
  simp only [haccept, List.length_append]
  omega

/-! ## The frame, whichever chip answers -/

/-- The write exchanges of `toCard`. -/
theorem write_of_toCard {command cmdIdle first v : Byte} {pre post : List Event}
    (hpre : ∀ f v, Event.write f v ∈ pre → f = writeAddressByte 0x02 ∨ f = writeAddressByte 0x04 ∨
      f = writeAddressByte 0x0A ∨ f = writeAddressByte 0x09 ∨ (f = writeAddressByte 0x01 ∧ v = cmdIdle))
    (hpost : ∀ f v, Event.write f v ∈ post → f = writeAddressByte 0x0D)
    (h : Event.write first v ∈ pre ++ [Event.W 0x01 command] ++ post) :
    addressOnWire first ∈ [(0x02 : RegAddr), 0x04, 0x0A, 0x09, 0x0D] ∨
      addressOnWire first = 0x01 ∧ (v = command ∨ v = cmdIdle) := by
  simp only [List.mem_append, List.mem_singleton, Event.W, Event.write.injEq] at h
  rcases h with (h | ⟨rfl, rfl⟩) | h
  · rcases hpre first v h with rfl | rfl | rfl | rfl | ⟨rfl, rfl⟩
    · exact .inl (by decide)
    · exact .inl (by decide)
    · exact .inl (by decide)
    · exact .inl (by decide)
    · exact .inr ⟨rfl, .inr rfl⟩
  · exact .inr ⟨rfl, .inl rfl⟩
  · rw [hpost first v h]
    exact .inl (by decide)

/-- Settles O40. The engine's part is that of the exchanges, and a chip register outside the list is in no write of the trace;
a soft reset among the writes goes to the command register, which only the command and CMD_IDLE are written to. -/
theorem tocardFrame : Obligations.TocardFrame := by
  intro command sendData s t h
  obtain ⟨hrest, rfl⟩ := exec_next h
  obtain ⟨pre, post, hran, hpost, hpre, hsame, -, -, -, -, -, hdata⟩ :=
    ran_toCard command sendData (acceptTocard command sendData s)
  rw [performed, completeCard]
  generalize toCard command sendData (acceptTocard command sendData s) = x at hran hsame hdata ⊢
  refine ⟨⟨hsame.cfg, hsame.reg, hsame.val, hsame.rdata, hsame.crcLo, hsame.crcHi, hsame.requests, hrest.symm⟩, hdata,
    fun a ha => ?_⟩
  have hkept := hran.regByte (a := a) fun first v hw heq => by
    rcases write_of_toCard hpre hpost hw with hlisted | ⟨hcommand, -⟩
    · rw [heq] at hlisted
      simp only [List.mem_cons, List.not_mem_nil, or_false] at hlisted ha
      tauto
    · rw [heq] at hcommand
      simp [hcommand] at ha
  refine hkept.imp id fun ⟨⟨first, hw, hreset⟩, hnone⟩ => ⟨?_, hnone⟩
  rcases write_of_toCard hpre hpost hw with hlisted | ⟨-, hv⟩
  · rw [hreset] at hlisted
    exact absurd hlisted (by decide)
  · exact hv.imp Eq.symm Eq.symm

/-- The command register after a command byte and exchanges that do not write it (R57, R294). -/
theorem Ran.regByte_command {s t : State} {pre post : List Event} {c : Byte}
    (h : Ran s t (pre ++ [Event.W 0x01 c] ++ post))
    (hpost : ∀ f v, Event.write f v ∈ post → addressOnWire f ≠ 0x01) :
    t.regByte 0x01 = if c = 0x0F then none else some c := by
  have hissued : Memory.read (Memory.after s.regs (pre ++ [Event.W 0x01 c])) (0x01 : RegAddr).toNat =
      if c = 0x0F then none else some c := by
    rw [Memory.after_append]
    show Memory.read (Memory.afterEvent (Memory.after s.regs pre) (Event.W 0x01 c)) _ = _
    by_cases hreset : c = 0x0F
    · rw [if_pos hreset, hreset]
      rfl
    · simp only [Event.W, Memory.afterEvent, addressOnWire_writeAddressByte]
      rw [if_neg (fun hboth => hreset hboth.2), if_neg hreset]
      exact Memory.read_write_same _ _ c
  rw [State.regByte, h.regs, Memory.after_append, ← hissued]
  rcases Memory.read_after (Memory.after s.regs (pre ++ [Event.W 0x01 c])) post 0x01 hpost with hkept | ⟨⟨f, hf, hreg⟩, -⟩
  · exact hkept
  · exact absurd hreg (hpost f _ hf)

/-- Settles O41. After the command byte CRC writes nothing more, and TOCARD writes the bit-framing register alone. -/
theorem commandRegisterIsNotReturnedToIdle : Obligations.CommandRegisterIsNotReturnedToIdle := by
  intro s t
  refine ⟨fun data h => ?_, fun command sendData h => ?_⟩
  · obtain ⟨-, rfl⟩ := exec_next h
    obtain ⟨tr, hran, -, -, pre, post, rfl, hpost, -⟩ := ran_computeCrc data (acceptCrc data s)
    rw [performed, completeCrc, regByte_complete]
    exact hran.regByte_command fun f v hf => (hpost f v hf).elim
  · obtain ⟨-, rfl⟩ := exec_next h
    obtain ⟨pre, post, hran, hpost, -⟩ := ran_toCard command sendData (acceptTocard command sendData s)
    rw [performed, completeCard, regByte_complete]
    exact hran.regByte_command fun f v hf => by rw [hpost f v hf]; decide

end Sys2Proof.Machine
end

section
/-! PROOFS. Exchanges and result depend on the operands, the parameters and the answers alone (R86, R281). -/

namespace Sys2Proof.Machine

/-! ## The answers to come -/

/-- All that the unconstrained chip's answers and the trace of an operation are read off: the parameters, the supplied answers,
and the number of the next free one. -/
def State.stream (s : State) : Config.Params × List Byte × Nat := (s.cfg, s.oracle, s.draws)

theorem stream_eq_iff {s₁ s₂ : State} :
    s₁.stream = s₂.stream ↔ s₁.cfg = s₂.cfg ∧ s₁.oracle = s₂.oracle ∧ s₁.draws = s₂.draws := by
  simp only [State.stream, Prod.mk.injEq]

theorem answer_congr {s₁ s₂ : State} (h : s₁.stream = s₂.stream) : s₁.answer = s₂.answer := by
  obtain ⟨-, horacle, hdraws⟩ := stream_eq_iff.1 h
  funext k
  simp only [State.answer, horacle, hdraws]

theorem took_stream_congr {s₁ s₂ : State} (h : s₁.stream = s₂.stream) (k : Nat) : (s₁.took k).stream = (s₂.took k).stream := by
  obtain ⟨hcfg, horacle, hdraws⟩ := stream_eq_iff.1 h
  simp only [State.stream, State.took, hcfg, horacle, hdraws]

theorem Did.stream {s t : State} {k : Nat} {tr : List Event} (h : Did s t k tr) (hcfg : t.cfg = s.cfg) :
    t.stream = (s.took k).stream :=
  stream_eq_iff.2 ⟨hcfg, h.oracle, h.draws⟩

theorem reads_congr {s₁ s₂ : State} (h : s₁.stream = s₂.stream) (reg : Byte) (k count : Nat) :
    s₁.reads reg k count = s₂.reads reg k count := by
  simp only [State.reads, (stream_eq_iff.1 h).1, answer_congr h]

theorem crcTrace_congr {s₁ s₂ : State} (h : s₁.stream = s₂.stream) (data : List Byte) (p : Nat) :
    crcTrace s₁ data p = crcTrace s₂ data p := by
  simp only [crcTrace, reads_congr h, (stream_eq_iff.1 h).1, answer_congr h]

theorem cardTrace_congr {s₁ s₂ : State} (h : s₁.stream = s₂.stream) (command : Byte) (sendData : List Byte) (p : Nat) :
    cardTrace s₁ command sendData p = cardTrace s₂ command sendData p := by
  simp only [cardTrace, reads_congr h, (stream_eq_iff.1 h).1, answer_congr h]

theorem PollReads.congr {hit : Byte → Bool} {s₁ s₂ : State} {k B p : Nat} (h : s₁.stream = s₂.stream)
    (hp : PollReads hit s₁ k B p) : PollReads hit s₂ k B p := by
  have hans := answer_congr h
  exact ⟨hp.atLeastOne, hp.atMostBudget, by rw [← hans]; exact hp.noneBefore, by rw [← hans]; exact hp.ends⟩

/-! ## Two runs -/

/-- Both runs complete and append the same events. -/
def SameEvents (i : Instr) (s₁ s₂ : State) : Prop :=
  ∃ t₁ t₂ events, exec i s₁ = .next t₁ ∧ exec i s₂ = .next t₂ ∧
    t₁.history = s₁.history ++ events ∧ t₂.history = s₂.history ++ events

/-- The instruction completes and appends `events`. -/
def Appends (i : Instr) (s : State) (events : List Event) : Prop :=
  ∃ t, exec i s = .next t ∧ t.history = s.history ++ events

theorem SameEvents.of_appends {i : Instr} {s₁ s₂ : State} {events events' : List Event} (h₁ : Appends i s₁ events)
    (h₂ : Appends i s₂ events') (heq : events = events') : SameEvents i s₁ s₂ := by
  obtain ⟨t₁, hexec₁, hhist₁⟩ := h₁
  obtain ⟨t₂, hexec₂, hhist₂⟩ := h₂
  exact ⟨t₁, t₂, events, hexec₁, hexec₂, hhist₁, heq ▸ hhist₂⟩

section
variable {s : State} (hrest : s.seq = .rest) (hu : s.chip = .unconstrained)
include hrest hu

/-! What each short instruction appends is a part of the whole next state stated for it. -/

theorem appends_wr (reg value : Byte) :
    Appends (.wr reg value) s [.request (.wr reg value), Event.W reg value, .complete .nothing] :=
  ⟨_, (wrPerformsOneWriteExchange reg value s hrest hu).2.2.2, rfl⟩

theorem appends_rd (reg : Byte) :
    Appends (.rd reg) s [.request (.rd reg), Event.R s.cfg reg (s.answer 0), .complete (.byte (s.answer 0))] :=
  ⟨_, (rdReturnsTheAnswer reg s hrest hu).2.2.2, rfl⟩

theorem appends_setb (reg mask : Byte) :
    Appends (.setb reg mask) s [.request (.setb reg mask), Event.R s.cfg reg (s.answer 0),
      Event.W reg (s.answer 0 ||| mask), .complete .nothing] :=
  ⟨_, (setbWritesTheAnswerOrMask reg mask s hrest hu).2.2.2, rfl⟩

theorem appends_clrb (reg mask : Byte) :
    Appends (.clrb reg mask) s [.request (.clrb reg mask), Event.R s.cfg reg (s.answer 0),
      Event.W reg (s.answer 0 &&& ~~~ mask), .complete .nothing] :=
  ⟨_, (clrbWritesTheAnswerAndNotMask reg mask s hrest hu).2.2.2, rfl⟩

theorem appends_busWr (a : RegAddr) (v : Byte) : Appends (.busWr a v) s [.write (writeFrameByte a) v] :=
  ⟨_, (busFramesPerformOneExchange a v s hrest hu).1, rfl⟩

theorem appends_busRd (a : RegAddr) (d : Byte) : Appends (.busRd a d) s [.read (readFrameByte a) d (s.answer 0)] :=
  ⟨_, (busFramesPerformOneExchange a d s hrest hu).2, rfl⟩

theorem appends_chipCommand {i : Instr} {c : Byte}
    (hi : (i, c) ∈ [(Instr.cmdIdle, s.cfg.cmdIdle), (.cmdCalcCrc, 0x03), (.cmdTransceive, 0x0C), (.cmdSoftReset, 0x0F)]) :
    Appends i s [Event.W 0x01 c] :=
  ⟨_, chipCommandsWriteTheCommandRegister i c s hrest hu hi, rfl⟩

theorem appends_tagOpcode {i : Instr} {c : Byte} (hi : (i, c) ∈ [(Instr.tagRead, (0x30 : Byte)), (.tagWrite, 0xA0)]) :
    Appends i s [Event.W 0x09 c] :=
  ⟨_, tagOpcodesEnterTheFifo i c s hrest hu hi, rfl⟩

theorem appends_crc (data : List Byte) {p : Nat}
    (hp : PollReads (fun v => v &&& s.cfg.crcDoneBit != 0) s 2 s.cfg.pollBudgetCrc p) :
    Appends (.crc data) s
      ([.request (.crc data)] ++ crcTrace s data p ++ [.complete (.pair (s.answer (p + 2)) (s.answer (p + 3)))]) :=
  ⟨_, crcRunsItsSixSteps data s p hrest hu hp, by simp only [List.append_assoc]⟩

end

/-! ## The drain, wherever its bit length comes from -/

/-- The state in which the drain's data reads begin. -/
def drainStart (s : State) : State := readLastBits (readLevel s)

theorem readLastBits_stream {s : State} (hu : s.chip = .unconstrained) :
    (readLastBits s).stream =
      (s.cfg, (s.took 1).oracle,
        if bitLengthOpen s.cfg s.lvl (s.answer 0 &&& s.cfg.lastBitsMask) then (s.took 1).draws + 1
        else (s.took 1).draws) := by
  have hread := did_regRead Config.REG_CONTROL hu
  simp only [State.stream, readLastBits, regRead_rx _ hu, regRead_cfg, regRead_lvl, hread.oracle, hread.draws]

/-- Where D13 leaves the length open a free value is drawn, in both runs or in neither. -/
theorem drainStart_stream_congr {s₁ s₂ : State} (h : s₁.stream = s₂.stream) (hu₁ : s₁.chip = .unconstrained)
    (hu₂ : s₂.chip = .unconstrained) : (drainStart s₁).stream = (drainStart s₂).stream := by
  obtain ⟨hlevel₁, he₁⟩ := did_readLevel hu₁
  obtain ⟨hlevel₂, he₂⟩ := did_readLevel hu₂
  have hlvl : (readLevel s₁).lvl = (readLevel s₂).lvl :=
    (congrArg State.lvl he₁ :).trans ((congrFun (answer_congr h) 0).trans (congrArg State.lvl he₂ :).symm)
  have hlevel : (readLevel s₁).stream = (readLevel s₂).stream := by
    rw [hlevel₁.stream (congrArg State.cfg he₁ :), hlevel₂.stream (congrArg State.cfg he₂ :), took_stream_congr h]
  obtain ⟨-, horacle, hdraws⟩ := stream_eq_iff.1 (took_stream_congr hlevel 1)
  rw [drainStart, drainStart, readLastBits_stream hlevel₁.chip, readLastBits_stream hlevel₂.chip, hlvl, horacle, hdraws,
    answer_congr hlevel, (stream_eq_iff.1 hlevel).1]

/-- What the drain and the completion append. -/
def drainEvents (s : State) : List Event :=
  [Event.R s.cfg Config.REG_FIFO_LEVEL (s.answer 0), Event.R s.cfg Config.REG_CONTROL (s.answer 1)] ++
    (drainStart s).reads Config.REG_FIFO_DATA 0 (drainCount (s.answer 0)) ++
    [.complete (.card
      { status := s.status
        data := (List.range (drainCount (s.answer 0))).map (drainStart s).answer
        bitLength := bitLengthOf s.cfg (drainCount (s.answer 0)) (s.answer 0) (s.answer 1 &&& s.cfg.lastBitsMask)
          (Config.freeBitLength (s.took 2).draws) })]

theorem drainEvents_congr {s₁ s₂ : State} (h : s₁.stream = s₂.stream) (hstatus : s₁.status = s₂.status)
    (hu₁ : s₁.chip = .unconstrained) (hu₂ : s₂.chip = .unconstrained) : drainEvents s₁ = drainEvents s₂ := by
  have hstart := drainStart_stream_congr h hu₁ hu₂
  simp only [drainEvents, reads_congr hstart, answer_congr hstart, answer_congr h, (stream_eq_iff.1 h).1, hstatus,
    (stream_eq_iff.1 (took_stream_congr h 2)).2.2]

theorem history_completeCard_drainResponse {s : State} (hu : s.chip = .unconstrained) :
    (completeCard (drainResponse s)).history = s.history ++ drainEvents s := by
  obtain ⟨hlevel, heLevel⟩ := did_readLevel hu
  have hlast := ran_readLastBits (readLevel s)
  have hcontrol : (regRead Config.REG_CONTROL (readLevel s)).rx = s.answer 1 :=
    (regRead_rx _ hlevel.chip).trans (hlevel.answer 0)
  have hcfg : (readLevel s).cfg = s.cfg := (congrArg State.cfg heLevel :)
  have hn : (drainStart s).n = drainCount (s.answer 0) := (readLastBits_same _).n.trans (congrArg State.n heLevel :)
  rw [hcontrol, hcfg] at hlast
  obtain ⟨hdrain, hbytes, -⟩ := did_drainBytes (drainStart s).n 0 (hlast.unconstrained hlevel.chip)
  have heDrain := engine_drainResponse hu
  have hhistory : (drainResponse s).history = s.history ++
      [Event.R s.cfg Config.REG_FIFO_LEVEL (s.answer 0), Event.R s.cfg Config.REG_CONTROL (s.answer 1)] ++
        (drainStart s).reads Config.REG_FIFO_DATA 0 (drainCount (s.answer 0)) := by
    refine hdrain.history.trans ?_
    rw [hlast.history, hlevel.history, List.append_assoc s.history, hn]
    rfl
  have hdata : (drainResponse s).data.toList.take (drainCount (s.answer 0)) =
      (List.range (drainCount (s.answer 0))).map (drainStart s).answer := by
    refine take_toList_of_getElem (drainCount_le _) fun j hj hjn => (hbytes j hj).trans ?_
    rw [hn, if_pos (by omega), Nat.sub_zero]
    rfl
  have hrecord : resultRecord (drainResponse s) =
      { status := s.status
        data := (List.range (drainCount (s.answer 0))).map (drainStart s).answer
        bitLength := bitLengthOf s.cfg (drainCount (s.answer 0)) (s.answer 0) (s.answer 1 &&& s.cfg.lastBitsMask)
          (Config.freeBitLength (s.took 2).draws) } := by
    have hlen : (drainResponse s).dataLen = drainCount (s.answer 0) := (congrArg State.dataLen heDrain :)
    have hstatus : (drainResponse s).status = s.status := (congrArg State.status heDrain :)
    rw [resultRecord, hlen, hstatus, ← hdata]
    exact congrArg (TransceiveResult.mk _ _) (congrArg State.bitLength heDrain :)
  rw [completeCard, complete_history, hhistory, hrecord, drainEvents]
  simp only [List.append_assoc]

/-! ## The three ends of TOCARD in two runs -/

section
variable {s : State} (command : Byte) (sendData : List Byte) (hrest : s.seq = .rest) (hu : s.chip = .unconstrained) {p : Nat}

include hrest hu in
theorem appends_tocard_exhausted
    (hp : PollReads (trxSignalled s.cfg) s (readsBeforePoll command) s.cfg.pollBudgetTrx p)
    (hspent : p = s.cfg.pollBudgetTrx) :
    Appends (.tocard command sendData) s
      ([.request (.tocard command sendData)] ++ cardTrace s command sendData p ++ [.complete (.card ⟨.error, [], 0⟩)]) :=
  ⟨_, tocardExhaustedReturnsError command sendData s _ p hrest hu rfl hp hspent, by simp only [List.append_assoc]⟩

include hrest hu in
theorem appends_tocard_without_drain
    (hp : PollReads (trxSignalled s.cfg) s (readsBeforePoll command) s.cfg.pollBudgetTrx p)
    (hleft : p < s.cfg.pollBudgetTrx)
    (hno : command ≠ 0x0C ∨ s.cfg.drainOnError = false ∧ s.answer (readsBeforePoll command + p + 1) &&& 0x1B ≠ 0) :
    Appends (.tocard command sendData) s
      ([.request (.tocard command sendData)] ++ cardTrace s command sendData p ++
        [Event.R s.cfg 0x06 (s.answer (readsBeforePoll command + p + 1)),
          .complete (.card ⟨statusAfter s.cfg (s.answer (readsBeforePoll command + p - 1))
            (s.answer (readsBeforePoll command + p + 1)) .error, [], 0⟩)]) :=
  ⟨_, tocardSignalledWithoutDrain command sendData s _ p _ hrest hu rfl hp hleft hno (statusAfter_error ..),
    by simp only [List.append_assoc]⟩

include hrest hu in
/-- The drain begins in a state whose answers and status the operands, the parameters and the answers fix. -/
theorem appends_tocard_with_drain (hp : PollReads (trxSignalled s.cfg) s 3 s.cfg.pollBudgetTrx p)
    (hleft : p < s.cfg.pollBudgetTrx) (hdrain : s.cfg.drainOnError = true ∨ s.answer (p + 4) &&& 0x1B = 0) :
    ∃ r, r.chip = .unconstrained ∧ r.stream = (s.took (p + 5)).stream ∧
      r.status = statusAfter s.cfg (s.answer (p + 2)) (s.answer (p + 4)) .error ∧
      Appends (.tocard 0x0C sendData) s
        ([.request (.tocard 0x0C sendData)] ++
          (cardTrace s 0x0C sendData p ++ [Event.R s.cfg Config.REG_ERROR (s.answer (p + 4))]) ++ drainEvents r) := by
  obtain ⟨r, hexec, hdid, he⟩ := exec_tocard_of_drain sendData hrest hu hp hleft hdrain (statusAfter_error ..)
  refine ⟨r, hdid.chip, hdid.stream (congrArg State.cfg he :), (congrArg State.status he :), _, hexec, ?_⟩
  rw [history_completeCard_drainResponse hdid.chip, hdid.history, acceptTocard_history]
  simp only [List.append_assoc]

end

/-- Each end of `toCard` is chosen by the parameters and the answers, and appends what they fix. -/
theorem sameEvents_tocard (command : Byte) (sendData : List Byte) {s₁ s₂ : State} (hrest₁ : s₁.seq = .rest)
    (hrest₂ : s₂.seq = .rest) (hu₁ : s₁.chip = .unconstrained) (hu₂ : s₂.chip = .unconstrained)
    (h : s₁.stream = s₂.stream) (hbudget : 1 ≤ s₁.cfg.pollBudgetTrx) : SameEvents (.tocard command sendData) s₁ s₂ := by
  have hcfg := (stream_eq_iff.1 h).1
  have hans := answer_congr h
  obtain ⟨p, hp⟩ := exists_pollReads (trxSignalled s₁.cfg) s₁ (readsBeforePoll command) hbudget
  have hp₂ : PollReads (trxSignalled s₂.cfg) s₂ (readsBeforePoll command) s₂.cfg.pollBudgetTrx p := hcfg ▸ hp.congr h
  by_cases hspent : p = s₁.cfg.pollBudgetTrx
  · exact SameEvents.of_appends (appends_tocard_exhausted command sendData hrest₁ hu₁ hp hspent)
      (appends_tocard_exhausted command sendData hrest₂ hu₂ hp₂ (hcfg ▸ hspent)) (by rw [cardTrace_congr h])
  have hleft : p < s₁.cfg.pollBudgetTrx := lt_of_le_of_ne hp.atMostBudget hspent
  by_cases hno : command ≠ 0x0C ∨
      s₁.cfg.drainOnError = false ∧ s₁.answer (readsBeforePoll command + p + 1) &&& 0x1B ≠ 0
  · exact SameEvents.of_appends (appends_tocard_without_drain command sendData hrest₁ hu₁ hp hleft hno)
      (appends_tocard_without_drain command sendData hrest₂ hu₂ hp₂ (hcfg ▸ hleft) (hcfg ▸ hans ▸ hno))
      (by rw [cardTrace_congr h, hcfg, hans])
  · push Not at hno
    obtain ⟨rfl, herror⟩ := hno
    have hindex : readsBeforePoll 0x0C + p + 1 = p + 4 := by rw [show readsBeforePoll 0x0C = 3 from rfl]; omega
    rw [hindex] at herror
    have hdrain : s₁.cfg.drainOnError = true ∨ s₁.answer (p + 4) &&& 0x1B = 0 :=
      (Bool.eq_false_or_eq_true _).imp_right herror
    obtain ⟨r₁, hchip₁, hstream₁, hstatus₁, happends₁⟩ :=
      appends_tocard_with_drain sendData hrest₁ hu₁ hp hleft hdrain
    obtain ⟨r₂, hchip₂, hstream₂, hstatus₂, happends₂⟩ :=
      appends_tocard_with_drain sendData hrest₂ hu₂ hp₂ (hcfg ▸ hleft) (hcfg ▸ hans ▸ hdrain)
    have hstream : r₁.stream = r₂.stream := by rw [hstream₁, hstream₂, took_stream_congr h]
    have hstatus : r₁.status = r₂.status := by rw [hstatus₁, hstatus₂, hcfg, hans]
    exact SameEvents.of_appends happends₁ happends₂
      (by rw [cardTrace_congr h, hcfg, hans, drainEvents_congr hstream hstatus hchip₁ hchip₂])

/-- Each instruction appends the same events in both runs. -/
theorem sameEvents_of_stream (i : Instr) {s₁ s₂ : State} (hrest₁ : s₁.seq = .rest) (hrest₂ : s₂.seq = .rest)
    (hu₁ : s₁.chip = .unconstrained) (hu₂ : s₂.chip = .unconstrained) (h : s₁.stream = s₂.stream)
    (hcrc : 1 ≤ s₁.cfg.pollBudgetCrc) (htrx : 1 ≤ s₁.cfg.pollBudgetTrx) : SameEvents i s₁ s₂ := by
  have hcfg := (stream_eq_iff.1 h).1
  have hans := answer_congr h
  cases i with
  | wr reg value => exact .of_appends (appends_wr hrest₁ hu₁ reg value) (appends_wr hrest₂ hu₂ reg value) rfl
  | rd reg => exact .of_appends (appends_rd hrest₁ hu₁ reg) (appends_rd hrest₂ hu₂ reg) (by rw [hcfg, hans])
  | setb reg mask =>
    exact .of_appends (appends_setb hrest₁ hu₁ reg mask) (appends_setb hrest₂ hu₂ reg mask) (by rw [hcfg, hans])
  | clrb reg mask =>
    exact .of_appends (appends_clrb hrest₁ hu₁ reg mask) (appends_clrb hrest₂ hu₂ reg mask) (by rw [hcfg, hans])
  | busWr a v => exact .of_appends (appends_busWr hrest₁ hu₁ a v) (appends_busWr hrest₂ hu₂ a v) rfl
  | busRd a d => exact .of_appends (appends_busRd hrest₁ hu₁ a d) (appends_busRd hrest₂ hu₂ a d) (by rw [hans])
  | cmdIdle =>
    exact .of_appends (appends_chipCommand hrest₁ hu₁ (by simp)) (appends_chipCommand hrest₂ hu₂ (by simp))
      (congrArg (fun cfg : Config.Params => [Event.W 0x01 cfg.cmdIdle]) hcfg)
  | cmdCalcCrc =>
    exact .of_appends (appends_chipCommand hrest₁ hu₁ (c := 0x03) (by simp)) (appends_chipCommand hrest₂ hu₂ (by simp)) rfl
  | cmdTransceive =>
    exact .of_appends (appends_chipCommand hrest₁ hu₁ (c := 0x0C) (by simp)) (appends_chipCommand hrest₂ hu₂ (by simp)) rfl
  | cmdSoftReset =>
    exact .of_appends (appends_chipCommand hrest₁ hu₁ (c := 0x0F) (by simp)) (appends_chipCommand hrest₂ hu₂ (by simp)) rfl
  | tagRead =>
    exact .of_appends (appends_tagOpcode hrest₁ hu₁ (c := 0x30) (by simp)) (appends_tagOpcode hrest₂ hu₂ (by simp)) rfl
  | tagWrite =>
    exact .of_appends (appends_tagOpcode hrest₁ hu₁ (c := 0xA0) (by simp)) (appends_tagOpcode hrest₂ hu₂ (by simp)) rfl
  | crc data =>
    obtain ⟨p, hp⟩ := exists_pollReads (fun v => v &&& s₁.cfg.crcDoneBit != 0) s₁ 2 hcrc
    have hp₂ : PollReads (fun v => v &&& s₂.cfg.crcDoneBit != 0) s₂ 2 s₂.cfg.pollBudgetCrc p := hcfg ▸ hp.congr h
    exact .of_appends (appends_crc hrest₁ hu₁ data hp) (appends_crc hrest₂ hu₂ data hp₂)
      (by rw [crcTrace_congr h, hans])
  | tocard command sendData => exact sameEvents_tocard command sendData hrest₁ hrest₂ hu₁ hu₂ h htrx

/-- Settles O43. What every instruction appends is a function of its operands, the parameters and the answers to come. -/
theorem outcomeDependsOnlyOnOperandsAndAnswers : Obligations.OutcomeDependsOnlyOnOperandsAndAnswers := by
  intro i s₁ s₂ hrest₁ hrest₂ hu₁ hu₂ hcfg hwf horacle hdraws
  obtain ⟨-, -, -, -, -, -, -, htrx, -, hcrc, -⟩ := hwf
  exact sameEvents_of_stream i hrest₁ hrest₂ hu₁ hu₂ (stream_eq_iff.2 ⟨hcfg, horacle, hdraws⟩) hcrc htrx

end Sys2Proof.Machine
end

section
/-! PROOFS. SimChip, the reference environment (R88 to R96): its exchanges, its FIFO, its commands, its answers. -/

namespace Sys2Proof.Machine

/-! ## Exchanges with SimChip -/

@[simp] theorem recordWrite_chip (a : RegAddr) (v : Byte) (s : State) : (recordWrite a v s).chip = s.chip := by
  unfold recordWrite
  split <;> rfl

theorem chipRead_sim (a : RegAddr) {s : State} {c : SimChip} (hc : s.chip = .sim c) : chipRead a s = simRead a c s := by
  simp only [chipRead, hc]

theorem chipWrite_sim (a : RegAddr) (v : Byte) {s : State} {c : SimChip} (hc : s.chip = .sim c) :
    chipWrite a v s = simWrite a v c (recordWrite a v s) := by
  simp only [chipWrite, recordWrite_chip, hc]

section
variable {s : State} {c : SimChip} (hc : s.chip = .sim c)
include hc

/-- What SimChip's side of a read exchange leaves of the chip. -/
theorem regRead_chip_sim (reg : Byte) : (regRead reg s).chip = (simRead (chipAddr reg) c (busSelect s)).chip := by
  rw [← chipRead_sim _ (show (busSelect s).chip = .sim c from hc), ← addressOnWire_readAddressByte]
  rfl

theorem regRead_rx_sim (reg : Byte) : (regRead reg s).rx = (simRead (chipAddr reg) c (busSelect s)).rx := by
  rw [← chipRead_sim _ (show (busSelect s).chip = .sim c from hc), ← addressOnWire_readAddressByte]
  rfl

theorem regWrite_chip_sim (reg v : Byte) :
    (regWrite reg v s).chip = (simWrite (chipAddr reg) v c (recordWrite (chipAddr reg) v (busSelect s))).chip := by
  rw [← chipWrite_sim _ _ (show (busSelect s).chip = .sim c from hc), ← addressOnWire_writeAddressByte]
  rfl

variable (hrest : s.seq = .rest)
include hrest

/-- Over SimChip an instruction completes unless SimChip has no step. -/
theorem exec_sim (i : Instr) {c' : SimChip} (hc' : (performed i s).chip = .sim c') : exec i s = .next (performed i s) := by
  simp only [exec_eq_atRest, atRest, hrest, outcome, hc, hc', reduceCtorEq, if_false]

/-- RD over SimChip: what SimChip's answer leaves of it, and the byte. -/
theorem exec_rd_sim (reg : Byte) {a : RegAddr} {c' : SimChip} (ha : chipAddr reg = a)
    (hc' : (simRead a c (busSelect (acceptRd reg s))).chip = .sim c') :
    ∃ t, exec (.rd reg) s = .next t ∧ t.rdata = (simRead a c (busSelect (acceptRd reg s))).rx ∧ t.chip = .sim c' := by
  subst ha
  have hchip : (performed (.rd reg) s).chip = .sim c' := (regRead_chip_sim (s := acceptRd reg s) hc reg).trans hc'
  exact ⟨_, exec_sim hc hrest _ hchip, regRead_rx_sim (s := acceptRd reg s) hc reg, hchip⟩

/-- WR over SimChip, where SimChip has a step: what the write leaves of it. -/
theorem exec_wr_sim (reg v : Byte) {a : RegAddr} {c' : SimChip} (ha : chipAddr reg = a)
    (hc' : (simWrite a v c (recordWrite a v (busSelect (acceptWr reg v s)))).chip = .sim c') :
    ∃ t, exec (.wr reg v) s = .next t ∧ t.chip = .sim c' := by
  subst ha
  have hchip : (performed (.wr reg v) s).chip = .sim c' := (regWrite_chip_sim (s := acceptWr reg v s) hc reg v).trans hc'
  exact ⟨_, exec_sim hc hrest _ hchip, hchip⟩

end

/-! ## The FIFO (R91) -/

theorem regWrite_fifo_of_full {reg v : Byte} {s : State} {c : SimChip} (hc : s.chip = .sim c) (ha : chipAddr reg = 0x09)
    (hfull : s.cfg.fifoCap ≤ c.fifo.length) : (regWrite reg v s).chip = .stuck := by
  have hcfg : (recordWrite 0x09 v (busSelect s)).cfg = s.cfg := (recordWrite_same _ _ _).cfg
  rw [regWrite_chip_sim hc, ha, simWrite, simPort_fifoData]
  simp only [simWriteFifo, hcfg, not_lt.2 hfull, if_false]

theorem regWrite_fifo_of_room (v : Byte) {s : State} {c : SimChip} (hc : s.chip = .sim c)
    (hroom : c.fifo.length < s.cfg.fifoCap) :
    (regWrite Config.REG_FIFO_DATA v s).chip = .sim { c with fifo := c.fifo ++ [v] } := by
  have hcfg : (recordWrite 0x09 v (busSelect s)).cfg = s.cfg := (recordWrite_same _ _ _).cfg
  rw [regWrite_chip_sim hc, show chipAddr Config.REG_FIFO_DATA = 0x09 from rfl, simWrite, simPort_fifoData]
  simp only [simWriteFifo, hcfg, hroom, if_true, setSim_chip]

/-- Settles O46. The one write exchange leaves SimChip without a step. -/
theorem simChipStopsOnFullFifo : Obligations.SimChipStopsOnFullFifo := by
  intro reg value s c hrest hc ha hfull
  have hstuck : (performed (.wr reg value) s).chip = .stuck := by
    rw [performed, complete_chip]
    exact regWrite_fifo_of_full ((acceptWr_chip ..).trans hc) ha hfull
  simp only [exec_eq_atRest, atRest, hrest, outcome, hc, hstuck, if_true]

/-- A load that fits is appended, byte after byte. -/
theorem loadFifo_chip_sim (bytes : List Byte) {s : State} {c : SimChip} (hc : s.chip = .sim c)
    (hroom : c.fifo.length + bytes.length ≤ s.cfg.fifoCap) :
    (loadFifo bytes s).chip = .sim { c with fifo := c.fifo ++ bytes } := by
  induction bytes generalizing s c with
  | nil => simpa [loadFifo] using hc
  | cons b rest ih =>
    have hfirst : (regWrite Config.REG_FIFO_DATA b s).chip = .sim { c with fifo := c.fifo ++ [b] } :=
      regWrite_fifo_of_room b hc (by simp only [List.length_cons] at hroom; omega)
    have hrest := ih hfirst (by simp only [regWrite_cfg, List.length_append, List.length_cons] at *; simp; omega)
    simpa [loadFifo] using hrest

/-- Settles O47. Loads append; the read of the port answers the head of the FIFO and keeps the tail. -/
theorem simChipFifoIsAQueue : Obligations.SimChipFifoIsAQueue := by
  refine ⟨fun bytes s c hc hroom => loadFifo_chip_sim bytes hc hroom, fun reg oldest rest s c hrest hc ha hfifo => ?_⟩
  have hread : simRead 0x09 c (busSelect (acceptRd reg s)) =
      receive oldest (setSim { c with fifo := rest } (busSelect (acceptRd reg s))) := by
    rw [simRead, simPort_fifoData]
    simp only [simReadFifo, hfifo]
  obtain ⟨t, hexec, hdata, hchip⟩ := exec_rd_sim hc hrest reg ha (congrArg State.chip hread)
  exact ⟨t, hexec, hdata.trans (congrArg State.rx hread), hchip⟩

/-! ## Calculate-CRC and start-send (R94, R95) -/

/-- Settles O48. The write of 0x03 to the command register is `simCalcCrc`. -/
theorem simChipLatchesTheCrcOfItsFifo : Obligations.SimChipLatchesTheCrcOfItsFifo := by
  intro s c hrest hc
  have hchip : (performed .cmdCalcCrc s).chip =
      (simCalcCrc c (recordWrite 0x01 Config.CMD_CALC_CRC (busSelect s))).chip := regWrite_chip_sim hc _ _
  have hcfg : (recordWrite 0x01 Config.CMD_CALC_CRC (busSelect s)).cfg = s.cfg := (recordWrite_same _ _ _).cfg
  refine ⟨_, _, exec_sim hc hrest _ hchip, hchip, ?_, rfl, ?_⟩
  · rw [hcfg]
  · dsimp only
    split
    · exact .inl rfl
    · exact .inr ⟨_, rfl⟩

/-- Settles O49. The write at 0x0D leaves the armed command at 0x01 as it was, so the bit takes the FIFO as the frame. -/
theorem simChipStartSendTakesTheFifoAsTheFrame : Obligations.SimChipStartSendTakesTheFifoAsTheFrame := by
  intro v s c hrest hc harmed hbit
  generalize hx : recordWrite 0x0D v (busSelect (acceptWr 0x0D v s)) = x
  have hcfg : x.cfg = s.cfg := hx ▸ (recordWrite_same _ _ _).cfg
  have hcommand : x.regByte 0x01 = some 0x0C := by
    rw [← hx]
    exact (Memory.read_write_other _ _ (by decide)).trans harmed
  have hwrite : simWrite 0x0D v c x =
      setSim { c with fifo := [], pending := .trx (c.delay x.draws) (c.tagOracle c.fifo), delays := c.delays.tail }
        { x with draws := x.draws + 1 } := by
    rw [simWrite, simPort_bitFraming]
    exact if_pos ⟨hcfg ▸ hbit, hcommand⟩
  obtain ⟨t, hexec, hchip⟩ := exec_wr_sim hc hrest 0x0D v rfl (hx ▸ congrArg State.chip hwrite)
  exact ⟨t, _, _, hexec, hchip, rfl, rfl⟩

/-! ## What SimChip answers (R92, R93, R95) -/

theorem answerFifo_of_fits {cfg : Config.Params} {r : List Byte} (draws : Nat) (h : r.length ≤ cfg.fifoCap) :
    answerFifo cfg draws r = r := if_pos h

/-- Settles O50. The poll's progress is the answer's clause of `SimChip.pollTransceive`. -/
theorem simChipPollDeliversTheAnswer : Obligations.SimChipPollDeliversTheAnswer := by
  intro s c r k e q hrest hc hpending
  have hpoll : c.pollTransceive s.cfg s.draws =
      { c with
        fifo := answerFifo s.cfg s.draws r, lastBits := k, err := e, commIrq := c.commIrq ||| q, pending := .none } := by
    simp only [SimChip.pollTransceive, hpending]
  have hread : simRead 0x04 c (busSelect (acceptRd 0x04 s)) = simReadCommIrq c (busSelect (acceptRd 0x04 s)) := by
    rw [simRead, simPort_commIrq]
  obtain ⟨t, hexec, hdata, hchip⟩ := exec_rd_sim hc hrest 0x04 rfl
    ((congrArg State.chip hread).trans (congrArg Chip.sim hpoll))
  exact ⟨t, answerFifo s.cfg s.draws r, hexec,
    (hdata.trans (congrArg State.rx hread)).trans (congrArg SimChip.commIrq hpoll), hchip, answerFifo_length ..,
    answerFifo_of_fits _⟩

/-- Bits outside the mask do not matter under the mask. -/
theorem and_not_or_and_of_covered {v m k : Byte} (h : k &&& ~~~ m = 0) : ((v &&& ~~~ m) ||| k) &&& m = k := by
  ext i hi
  have hcovers : k[i] = true → m[i] = true := by simpa using congrArg (fun x : Byte => x[i]) h
  cases hk : k[i] with
  | false => simp [hk]
  | true => simp [hk, hcovers hk]

/-- A read of the level register answers the length of the FIFO where a byte holds it (R92). -/
theorem simReadLevel_rx {c : SimChip} (s : State) (h : c.fifo.length ≤ 255) :
    (simReadLevel c s).rx.toNat = c.fifo.length := by
  rw [simReadLevel, if_pos (by omega), receive, BitVec.toNat_ofNat, Nat.mod_eq_of_lt (by omega)]

theorem simReadLevel_chip (c : SimChip) (s : State) : (simReadLevel c s).chip = s.chip := by
  unfold simReadLevel
  split
  · rfl
  · exact receiveFree_chip s

/-- A read of the control register answers the bit count in the bits of the mask, where the mask covers it (R93). -/
theorem simReadControl_rx {c : SimChip} (s : State) (h : c.lastBits.setWidth 8 &&& ~~~ s.cfg.lastBitsMask = 0) :
    (simReadControl c s).rx &&& s.cfg.lastBitsMask = c.lastBits.setWidth 8 := by
  simp only [simReadControl, if_pos h, receive]
  exact and_not_or_and_of_covered h

theorem simReadControl_chip (c : SimChip) (s : State) : (simReadControl c s).chip = s.chip := by
  simp only [simReadControl]
  split <;> exact receiveFree_chip s

/-- Settles O55. Neither read changes SimChip. -/
theorem simChipAnswersLevelAndLastBits : Obligations.SimChipAnswersLevelAndLastBits := by
  intro s c hrest hc
  constructor
  · have hread : simRead 0x0A c (busSelect (acceptRd 0x0A s)) = simReadLevel c (busSelect (acceptRd 0x0A s)) := by
      rw [simRead, simPort_fifoLevel]
    obtain ⟨t, hexec, hdata, hchip⟩ := exec_rd_sim hc hrest 0x0A (a := 0x0A) rfl
      ((congrArg State.chip hread).trans ((simReadLevel_chip ..).trans hc))
    exact ⟨t, hexec, hchip, fun h => by rw [hdata, hread, simReadLevel_rx _ h]⟩
  · have hread : simRead 0x0C c (busSelect (acceptRd 0x0C s)) = simReadControl c (busSelect (acceptRd 0x0C s)) := by
      rw [simRead, simPort_control]
    obtain ⟨t, hexec, hdata, hchip⟩ := exec_rd_sim hc hrest 0x0C (a := 0x0C) rfl
      ((congrArg State.chip hread).trans ((simReadControl_chip ..).trans hc))
    exact ⟨t, hexec, hchip, fun h => by rw [hdata, hread]; exact simReadControl_rx _ h⟩

/-! ## The start (R89) -/

/-- Settles O54: `startSim_starts` for the chip's side, `startSim_same` for the engine registers. -/
theorem simChipStartsWithNothingPending : Obligations.SimChipStartsWithNothingPending := by
  intro c s
  obtain ⟨c', hchip, hpending, hfifo, htags, hcrcs, hdelays, hsilent, hregs, hrx, hcs, hhistory⟩ := startSim_starts c s
  have h := startSim_same c s
  exact ⟨_, c', rfl, hchip, hpending, hfifo, htags, hcrcs, hdelays, hsilent, fun a => by rw [State.regByte, hregs]; rfl,
    h.cfg, h.op, h.reg, h.val, h.command, h.send, h.tmp, h.irq, h.err, h.lvl, h.n, h.lastBits, h.budget, h.rdata, h.crcLo,
    h.crcHi, h.status, h.data, h.dataLen, h.bitLength, h.seq, hcs, hrx, hhistory, h.requests⟩

end Sys2Proof.Machine
end

section
/-! PROOFS. Session start and block write (R232 to R236): the family of the host sequences. -/

namespace Sys2Proof.Machine

/-! ## What a host sequence performs -/

/-- From `s` to `t` a host sequence at REST took `k` answers of the unconstrained chip and performed the exchanges `tr`. -/
structure Performs (s t : State) (k : Nat) (tr : List Event) : Prop where
  seq : t.seq = .rest
  chip : t.chip = .unconstrained
  stream : t.stream = (s.took k).stream
  exchanges : exchanges t.history = exchanges s.history ++ tr

theorem Performs.refl {s : State} (hrest : s.seq = .rest) (hu : s.chip = .unconstrained) : Performs s s 0 [] :=
  ⟨hrest, hu, by simp [State.stream, State.took], (List.append_nil _).symm⟩

theorem Performs.trans {s t u : State} {j k : Nat} {tr tr' : List Event} (h : Performs s t j tr) (h' : Performs t u k tr') :
    Performs s u (j + k) (tr ++ tr') where
  seq := h'.seq
  chip := h'.chip
  stream := by rw [h'.stream, took_stream_congr h.stream, took_took]
  exchanges := by rw [h'.exchanges, h.exchanges, List.append_assoc]

theorem Performs.answer {s t : State} {k : Nat} {tr : List Event} (h : Performs s t k tr) (m : Nat) :
    t.answer m = s.answer (k + m) := by
  rw [answer_congr h.stream, took_answer]

theorem Performs.cfg {s t : State} {k : Nat} {tr : List Event} (h : Performs s t k tr) : t.cfg = s.cfg :=
  (stream_eq_iff.1 h.stream).1

/-! ## Session start (R235, R236) -/

section
variable {s : State} (hrest : s.seq = .rest) (hu : s.chip = .unconstrained)
include hrest hu

theorem exec_wr_performs (reg value : Byte) :
    ∃ t, exec (.wr reg value) s = .next t ∧ Performs s t 0 [Event.W reg value] := by
  obtain ⟨-, -, -, hexec⟩ := wrPerformsOneWriteExchange reg value s hrest hu
  exact ⟨_, hexec, rfl, hu, (Performs.refl hrest hu).stream, exchanges_append _ _⟩

theorem exec_rd_performs (reg : Byte) :
    ∃ t, exec (.rd reg) s = .next t ∧ Performs s t 1 [Event.R s.cfg reg (s.answer 0)] ∧ t.rdata = s.answer 0 := by
  obtain ⟨-, -, -, hexec⟩ := rdReturnsTheAnswer reg s hrest hu
  exact ⟨_, hexec, ⟨rfl, hu, rfl, exchanges_append _ _⟩, rfl⟩

theorem exec_setb_performs (reg mask : Byte) :
    ∃ t, exec (.setb reg mask) s = .next t ∧
      Performs s t 1 [Event.R s.cfg reg (s.answer 0), Event.W reg (s.answer 0 ||| mask)] := by
  obtain ⟨-, -, -, hexec⟩ := setbWritesTheAnswerOrMask reg mask s hrest hu
  exact ⟨_, hexec, rfl, hu, rfl, exchanges_append _ _⟩

end

/-- Each register of the list is written once, in order. -/
theorem initWrites_performs (registers : List Byte) {s : State} (hrest : s.seq = .rest) (hu : s.chip = .unconstrained) :
    ∃ t, initWrites registers s = .next ⟨t, (), []⟩ ∧
      Performs s t 0 (registers.map fun reg => Event.W reg (Config.initVal reg)) := by
  induction registers generalizing s with
  | nil => exact ⟨s, rfl, Performs.refl hrest hu⟩
  | cons reg rest ih =>
    obtain ⟨t, hexec, hfirst⟩ := exec_wr_performs hrest hu reg (Config.initVal reg)
    obtain ⟨u, hwrites, hrestWrites⟩ := ih hfirst.seq hfirst.chip
    exact ⟨u, by rw [initWrites, hexec]; exact hwrites, hfirst.trans hrestWrites⟩

/-- The antenna step's exchanges: one read, and `setBits` unless both bits are set. -/
def antennaTrace (s : State) : List Event :=
  [Event.R s.cfg 0x14 (s.answer 0)] ++
    (if s.answer 0 &&& 0x03 = 0x03 then [] else [Event.R s.cfg 0x14 (s.answer 1), Event.W 0x14 (s.answer 1 ||| 0x03)])

theorem antennaStep_performs {s : State} (hrest : s.seq = .rest) (hu : s.chip = .unconstrained) :
    ∃ t k, antennaStep s = .next ⟨t, (), []⟩ ∧ Performs s t k (antennaTrace s) := by
  obtain ⟨t, hread, ht, hdata⟩ := exec_rd_performs hrest hu Config.REG_TX_CONTROL
  by_cases hset : s.answer 0 &&& 0x03 = 0x03
  · refine ⟨t, 1, ?_, ?_⟩
    · rw [antennaStep, hread, andThen, hdata, if_pos hset]
    · rw [antennaTrace, if_pos hset, List.append_nil]
      exact ht
  · obtain ⟨u, hsetb, hu⟩ := exec_setb_performs ht.seq ht.chip Config.REG_TX_CONTROL Config.TX_EN_BITS
    rw [ht.cfg, ht.answer 0] at hu
    refine ⟨u, 2, ?_, ?_⟩
    · rw [antennaStep, hread, andThen, hdata, if_neg hset, hsetb, andThen]
    · rw [antennaTrace, if_neg hset]
      exact ht.trans hu

/-- Settles O51. The soft reset, the six writes and the antenna step follow each other; the writes take no answer. -/
theorem initPerformsItsWritesAndTheAntennaStep : Obligations.InitPerformsItsWritesAndTheAntennaStep := by
  intro s hrest hu
  obtain ⟨t, hreset, ht⟩ :=
    exec_wr_performs (s := { s with cs := .high }) hrest hu Config.REG_COMMAND Config.CMD_SOFT_RESET
  obtain ⟨u, hwrites, hconfig⟩ := initWrites_performs Config.INIT_ONLY_REGS ht.seq ht.chip
  obtain ⟨v, k, hantenna, hlast⟩ := antennaStep_performs hconfig.seq hconfig.chip
  have hbefore := ht.trans hconfig
  have htrace : antennaTrace u = antennaTrace s := by
    simp only [antennaTrace, hbefore.answer, hbefore.cfg]
    rfl
  refine ⟨⟨v, (), []⟩, ?_, hlast.seq, ?_⟩
  · rw [initSession, hreset, andThen, hwrites, thenRun]
    simp only [hantenna, List.append_nil]
  · rw [(hbefore.trans hlast).exchanges, htrace]
    simp only [antennaTrace, List.append_assoc]
    rfl

/-! ## Block write (R232 to R234) -/

theorem toList_eq_cons (data : Vector Byte 16) : ∃ rest, data.toList = data[0] :: rest ∧ rest ≠ [] := by
  have hlen : data.toList.length = 16 := data.length_toList
  match hdata : data.toList with
  | [] => simp [hdata] at hlen
  | [_] => simp [hdata] at hlen
  | first :: second :: rest =>
    have hget : data.toList[0] = data[0] := Vector.getElem_toList _
    simp only [hdata, List.getElem_cons_zero] at hget
    exact ⟨second :: rest, by rw [hget], List.cons_ne_nil _ _⟩

/-- Phase 1's test in the result registers. -/
theorem requestAcknowledged_resultRecord (u : State) :
    requestAcknowledged (resultRecord u) = true ↔ u.status = .ok ∧ u.dataLen = 1 ∧ u.data[0] = 0x0A := by
  obtain ⟨rest, hdata, hrest⟩ := toList_eq_cons u.data
  cases hn : u.dataLen with
  | zero => simp [requestAcknowledged, resultRecord, hn]
  | succ m => simp [requestAcknowledged, resultRecord, hn, hdata, hrest, and_comm]

/-- Phase 2's test in the result registers. -/
theorem dataAcknowledged_resultRecord (u : State) :
    dataAcknowledged (resultRecord u) = true ↔ u.status = .ok ∧ 1 ≤ u.dataLen ∧ u.data[0] = 0x0A := by
  obtain ⟨rest, hdata, -⟩ := toList_eq_cons u.data
  cases hn : u.dataLen with
  | zero => simp [dataAcknowledged, resultRecord, hn]
  | succ m => simp [dataAcknowledged, resultRecord, hn, hdata]

/-- A payload with its pair, from REST: both operations complete, and their states are the ones the host sequence reads. -/
theorem transceiveWithCrc_completes (payload : List Byte) {s : State} (hrest : s.seq = .rest) (hu : s.chip = .unconstrained) :
    ∃ t u, exec (.crc payload) s = .next t ∧ exec (.tocard 0x0C (payload ++ [t.crcLo, t.crcHi])) t = .next u ∧
      transceiveWithCrc payload s = .next ⟨u, resultRecord u, []⟩ ∧ u.seq = .rest ∧ u.chip = .unconstrained := by
  obtain ⟨t, hcrc, htrest, htu⟩ := exec_crc_completes payload hrest hu
  obtain ⟨u, hcard, hurest, huu, -⟩ := exec_tocard_completes 0x0C (payload ++ [t.crcLo, t.crcHi]) htrest htu
  exact ⟨t, u, hcrc, hcard, transceiveWithCrc_of_exec hcrc hcard, hurest, huu⟩

/-- An instruction that completes leaves the parameters. -/
theorem exec_cfg {i : Instr} {s t : State} (h : exec i s = .next t) : t.cfg = s.cfg := by
  obtain ⟨-, rfl⟩ := exec_next h
  obtain ⟨_, hlogged⟩ := performed_logged i s
  exact hlogged.cfg

theorem writeData_of_transceive {data : List Byte} {s w : State}
    (htrx : transceiveWithCrc (padBlock s.cfg.padByte data) s = .next ⟨w, resultRecord w, []⟩) :
    writeData data s = .next
      (if w.status = .ok ∧ 1 ≤ w.dataLen ∧ w.data[0] = 0x0A then ⟨w, .written, [.dataWritten]⟩
        else ⟨w, .dataFailed, [.writeError]⟩) := by
  have hiff := dataAcknowledged_resultRecord w
  rw [writeData, htrx]
  by_cases hack : w.status = .ok ∧ 1 ≤ w.dataLen ∧ w.data[0] = 0x0A
  · simp [thenRun, hiff.2 hack, hack]
  · rw [if_neg hack]
    simp [thenRun, mt hiff.1 hack]

/-- Settles O53. Phase 1 is one payload with its pair; its acknowledgment alone leads to phase 2, which is another. -/
theorem writeBlockSendsDataOnlyAfterTheAcknowledgment : Obligations.WriteBlockSendsDataOnlyAfterTheAcknowledgment := by
  intro a data s hrest hu _
  obtain ⟨t, u, hcrc, hcard, htrx, hurest, huu⟩ := transceiveWithCrc_completes [0xA0, a] hrest hu
  have hiff := requestAcknowledged_resultRecord u
  refine ⟨t, u, hcrc, hcard, fun hno => ?_, fun hack => ?_⟩
  · have hrejected := mt hiff.1 hno
    rw [writeBlock, htrx]
    simp [thenRun, hrejected]
  · have hcfg : u.cfg = s.cfg := (exec_cfg hcard).trans (exec_cfg hcrc)
    obtain ⟨v, w, hcrc', hcard', htrx', -, -⟩ :=
      transceiveWithCrc_completes (padBlock u.cfg.padByte data) hurest huu
    refine ⟨_, v, w, congrArg (padBlock · data) (congrArg Config.Params.padByte hcfg), hcrc', hcard', ?_⟩
    rw [writeBlock, htrx]
    simp only [thenRun, hiff.2 hack, if_true, writeData_of_transceive htrx', List.nil_append]

end Sys2Proof.Machine
end
